-- ==== Sys2Proof/Word.lean ====
section
/-! DEFINITION. The sizes of a machine, which 00_scope.md R5 and R7 make parameters, and the types they give. -/

namespace Sys2Proof

abbrev Byte := BitVec 8

/-- The sizes of R5 and R7. What they must meet stands with them: `WAW` is `AW` - `OL`; the tag, set and offset slices make
up a word address (10_state.md R23, 42_cache.md R150); the geometry is in powers of two; an instruction is a whole number of
words (20_memory.md R43); there is a register 0 and a way 0. -/
structure Sizes where
  w         : Nat
  aw        : Nat
  nreg      : Nat
  ol        : Nat
  waw       : Nat
  ilen      : Nat
  instWords : Nat
  targw     : Nat
  nsets     : Nat
  nways     : Nat
  lineWords : Nat
  tagw      : Nat
  setw      : Nat
  wayw      : Nat
  offw      : Nat
  waw_eq       : waw + ol = aw
  slices       : tagw + setw + offw = waw
  ilen_eq      : ilen = instWords * w
  nsets_eq     : nsets = 2 ^ setw
  nways_eq     : nways = 2 ^ wayw
  lineWords_eq : lineWords = 2 ^ offw
  nreg_pos     : 0 < nreg

/-- The sizes with the spec's defaults (R5, R7), which are T0's. -/
abbrev Sizes.t0 : Sizes where
  w         := 32
  aw        := 32
  nreg      := 32
  ol        := 2
  waw       := 30
  ilen      := 32
  instWords := 1
  targw     := 26
  nsets     := 16
  nways     := 4
  lineWords := 4
  tagw      := 24
  setw      := 4
  wayw      := 2
  offw      := 2
  waw_eq       := by decide
  slices       := by decide
  ilen_eq      := by decide
  nsets_eq     := by decide
  nways_eq     := by decide
  lineWords_eq := by decide
  nreg_pos     := by decide

/-- A data word, a register or an operand value. -/
abbrev Sizes.Word (D : Sizes) := BitVec D.w

/-- `pc`, `npc` or an effective address. -/
abbrev Sizes.Addr (D : Sizes) := BitVec D.aw

/-- A word address (20_memory.md R40). -/
abbrev Sizes.WordAddr (D : Sizes) := BitVec D.waw

/-- The bits of an instruction (30_encoding.md R70). -/
abbrev Sizes.Inst (D : Sizes) := BitVec D.ilen

/-- The target field of a jump (30_encoding.md R72). -/
abbrev Sizes.Targ (D : Sizes) := BitVec D.targw

/-- The index of a register (10_state.md R10). The "no register" sentinel is `none` of `Option D.Reg`. -/
abbrev Sizes.Reg (D : Sizes) := Fin D.nreg

/-- A cache tag (10_state.md R23). -/
abbrev Sizes.Tag (D : Sizes) := BitVec D.tagw

/-- The index of a set, of a line in its set, of a word in its line (10_state.md R23, R24). -/
abbrev Sizes.SetIx (D : Sizes) := Fin D.nsets
abbrev Sizes.Way (D : Sizes) := Fin D.nways
abbrev Sizes.Off (D : Sizes) := Fin D.lineWords

/-- Register 0. -/
def Sizes.r0 (D : Sizes) : D.Reg := ⟨0, D.nreg_pos⟩

theorem Sizes.nsets_pos (D : Sizes) : 0 < D.nsets := D.nsets_eq ▸ Nat.two_pow_pos _
theorem Sizes.nways_pos (D : Sizes) : 0 < D.nways := D.nways_eq ▸ Nat.two_pow_pos _
theorem Sizes.lineWords_pos (D : Sizes) : 0 < D.lineWords := D.lineWords_eq ▸ Nat.two_pow_pos _

/-- Way 0. -/
def Sizes.way0 (D : Sizes) : D.Way := ⟨0, D.nways_pos⟩

/-- The bytes that hold one word of the backing store. -/
def Sizes.wordBytes (D : Sizes) : Nat := (D.w + 7) / 8

/-- The bytes of the whole backing store. -/
def Sizes.memBytes (D : Sizes) : Nat := D.wordBytes * 2 ^ D.waw

/-- The register file (10_state.md R10). -/
abbrev RegFile (D : Sizes) := Vector D.Word D.nreg

/-- The backing store, as the list of its bytes that do not hold the value an unlisted byte reads as. -/
abbrev Memory := List Host.Cell

/-- A word of T0: data, address or instruction. -/
abbrev Word := BitVec 32

/-- A register field of a word of T0 (30_encoding.md R79). -/
abbrev Reg := BitVec 5

end Sys2Proof
end

