-- ==== Sys2Proof/Machine/Address.lean ====
section
/-! DEFINITION. Addresses: effective, word and cache addresses (20_memory.md R40, R45; 42_cache.md R150, R151). -/

namespace Sys2Proof

/-- A computed value `E` as an effective address. The spec uses `E`, of `W` bits, where an address of `AW` bits stands and
gives no conversion. DESIGN CHOICE, unsafe where `AW` differs from `W` (log entry 16): the low bits, zeros above them. -/
def Sizes.effAddr (D : Sizes) (e : D.Word) : D.Addr := e.setWidth D.aw

/-- The word address of an effective address, `ea >> OL` (20_memory.md R40). -/
def Sizes.wordAddr (D : Sizes) (ea : D.Addr) : D.WordAddr := ea.extractLsb' D.ol D.waw

/-- The effective address of a word address, `wa << OL` (20_memory.md R41). -/
def Sizes.byteAddr (D : Sizes) (wa : D.WordAddr) : D.Addr := wa.setWidth D.aw <<< D.ol

/-- `ea[OL-1:0] = 0` (20_memory.md R45). -/
def Sizes.aligned (D : Sizes) (ea : D.Addr) : Bool := ea.extractLsb' 0 D.ol == 0

/-- `off(wa)`, `set(wa)` and `tag(wa)` (42_cache.md R150). -/
def Sizes.offOf (D : Sizes) (wa : D.WordAddr) : D.Off :=
  ⟨(wa.extractLsb' 0 D.offw).toNat, D.lineWords_eq ▸ BitVec.isLt _⟩
def Sizes.setOf (D : Sizes) (wa : D.WordAddr) : D.SetIx :=
  ⟨(wa.extractLsb' D.offw D.setw).toNat, D.nsets_eq ▸ BitVec.isLt _⟩
def Sizes.tagOf (D : Sizes) (wa : D.WordAddr) : D.Tag := wa.extractLsb' (D.offw + D.setw) D.tagw

/-- `base(t, s)` (42_cache.md R151). -/
def Sizes.baseOf (D : Sizes) (t : D.Tag) (i : D.SetIx) : D.WordAddr :=
  (t.setWidth D.waw <<< (D.offw + D.setw)) ||| (BitVec.ofNat D.waw i.val <<< D.offw)

/-- The access's line-aligned base address (42_cache.md R151): the offset bits cleared. -/
def Sizes.lineBase (D : Sizes) (wa : D.WordAddr) : D.WordAddr := (wa >>> D.offw) <<< D.offw

/-- The word address `k` words above a line's base. -/
def Sizes.lineWord (D : Sizes) (b : D.WordAddr) (k : D.Off) : D.WordAddr := b + BitVec.ofNat D.waw k.val

/-- The cursor after a fill (42_cache.md R163). -/
def Sizes.nextWay (D : Sizes) (w : D.Way) : D.Way := ⟨(w.val + 1) % D.nways, Nat.mod_lt _ D.nways_pos⟩

end Sys2Proof
end

