-- ==== Sys2Proof/Config.lean ====
section
/-! DEFINITION. What the core takes as parameters (00_scope.md R7): the opcode table, the system-call collaborator and the
platform, and the one record `Parameters` of them all. -/

namespace Sys2Proof

/-- An opcode as the buffers carry it. The core knows `nop` and `jump` by identity and every other one by its flags and
Port only (30_encoding.md R74). The names after them are T0's, and `other` has one for each opcode of any other table.
`LINK` is not an opcode (R71). -/
inductive Opcode where
  | nop | jump
  | add | sub | and | or | xor | slt
  | addi | ori | lui
  | lw | sw
  | syscall
  | other (code : Nat)
  deriving DecidableEq, Repr

/-- Functional-unit classes, opaque to the core: T0's (30_encoding.md R84), and `other` for those of any other table. -/
inductive FuClass where
  | none | ialu | rdport | wrport
  | other (code : Nat)
  deriving DecidableEq, Repr

/-- The flags of an opcode: the three bits the core reads and, as a number, every other bit, which the buffers carry and no
rule reads (30_encoding.md R73). -/
structure Flags where
  load    : Bool
  store   : Bool
  syscall : Bool
  others  : Nat
  deriving DecidableEq, Repr

/-- A Port (10_state.md R15); `none` is the "no register" sentinel. -/
structure Port (D : Sizes) where
  srcA : Option D.Reg
  srcB : Option D.Reg
  srcC : Option D.Reg
  dstE : Option D.Reg
  dstM : Option D.Reg
  deriving DecidableEq, Repr

/-- The per-opcode record the table gives for one instruction (30_encoding.md R72), less `effect` and `targ`. -/
structure Entry (D : Sizes) where
  op    : Opcode
  fu    : FuClass
  flags : Flags
  port  : Port D
  deriving DecidableEq, Repr

/-- What the table answers for an instruction (30_encoding.md R71). `Op(o)` and `NOP` are both `op`, with the record of the
opcode; an entry whose opcode is `nop` is the sentinel. -/
inductive Lookup (D : Sizes) where
  | op (e : Entry D)
  | link
  | absent
  deriving DecidableEq, Repr

/-- The answer of the system-call collaborator (60_exceptions.md R230). `cont` is the spec's `Continue(R2, BM2)`. -/
inductive SysResult (D : Sizes) where
  | exit (code : D.Word)
  | cont (regs : RegFile D) (mem : Memory)
  deriving DecidableEq, Repr

/-- The parameters that are fixed for a machine of given sizes (00_scope.md R6, R7). `lookup`, `effect` and `targ` are the
opcode table (30_encoding.md R72); `sys` is the collaborator `Sys(R, BM, inst)` (60_exceptions.md R230). -/
structure Config (D : Sizes) where
  iStep       : D.Addr
  segMask     : D.Addr
  targShift   : Nat
  nopInst     : D.Inst
  missPenalty : Nat
  lookup      : D.Inst → Lookup D
  effect      : Opcode → D.Inst → D.Addr → D.Word → D.Word → D.Word
  targ        : D.Inst → D.Targ
  sys         : RegFile D → Memory → D.Inst → SysResult D

/-- The table's class for `NOP`, which `NOP_INST` decodes to (10_state.md R21; 30_encoding.md R75, WF1). -/
def Config.nopFu {D : Sizes} (C : Config D) : FuClass :=
  match C.lookup C.nopInst with
  | .op e => e.fu
  | .link => .none
  | .absent => .none

/-- A range of word addresses, `lo` included and `hi` not. -/
structure Region where
  lo : Nat
  hi : Nat
  deriving DecidableEq, Repr

/-- What the platform fixes before reset (60_exceptions.md R241): `ENTRY`, `InitRegs`, `InitMem`, and `Mapped` given by
the ranges of word addresses that are not mapped. -/
structure Platform (D : Sizes) where
  entry    : D.Addr
  initRegs : RegFile D
  initMem  : Memory
  unmapped : List Region
  deriving DecidableEq, Repr

/-- The one configuration record: every parameter of R7 with the geometry of R5 and the penalty of R6. -/
structure Parameters where
  sizes    : Sizes
  config   : Config sizes
  platform : Platform sizes

/-- The platform of `State.reset`. DESIGN CHOICE, unsafe (log entries 3, 4, 5, 6): registers 0, nothing listed in memory,
every address mapped, and the entry address the spec's vectors use (D23). -/
def Platform.default : Platform .t0 where
  entry    := 0x00400000
  initRegs := Vector.replicate 32 0
  initMem  := []
  unmapped := []

end Sys2Proof
end

