-- ==== Sys2Proof/Syntax.lean ====
section
/-! DEFINITION. The instructions of the opcode table T0, one constructor for each row of spec/opcode_table.json
(30_encoding.md R81). Operands are the fields of the instruction word, in the order of the assembler syntax (R85). -/

namespace Sys2Proof

inductive Instr where
  | nop
  | j (targ : BitVec 26)
  | add (rd rs rt : Reg)
  | sub (rd rs rt : Reg)
  | and (rd rs rt : Reg)
  | or (rd rs rt : Reg)
  | xor (rd rs rt : Reg)
  | slt (rd rs rt : Reg)
  | addi (rt rs : Reg) (imm : BitVec 16)
  | ori (rt rs : Reg) (imm : BitVec 16)
  | lui (rt : Reg) (imm : BitVec 16)
  | lw (rt : Reg) (imm : BitVec 16) (rs : Reg)
  | sw (rt : Reg) (imm : BitVec 16) (rs : Reg)
  /-- The table-chaining pseudo-opcode (44_fixture_t0.md R203); its low 26 bits are any. -/
  | link (ignored : BitVec 26)
  | syscall
  deriving DecidableEq, Repr

end Sys2Proof
end

