-- ==== Sys2Proof/WellFormed.lean ====
section
/-! DEFINITION. What must be checked before a term means anything: the record of an opcode and the opcode table as a
whole (30_encoding.md R75, WF1 to WF10), and the operands of a line of assembler (R85). A term of `Instr` needs no check
of its own: its fields have exactly the widths of the encoding. -/

namespace Sys2Proof

/-- The Port with all five fields `NONE`. -/
def Port.allNone {D : Sizes} : Port D := ⟨none, none, none, none, none⟩

/-- Every flag clear. -/
def Flags.clear : Flags := ⟨false, false, false, 0⟩

/-- None of the three flags of R73 set. -/
def Flags.noneSet (f : Flags) : Bool := !f.load && !f.store && !f.syscall

section
variable {D : Sizes}

/-- WF2: no destination is register 0. The sources are indices or `NONE` by their type. -/
def Port.dstNotZero (p : Port D) : Bool := p.dstE != some D.r0 && p.dstM != some D.r0

/-- WF3: `dstE` differs from `dstM` unless both are `NONE`. -/
def Port.dstDistinct (p : Port D) : Bool := p.dstE != p.dstM || p.dstE == none

/-- WF4, first half: at most one of the three flags is set. -/
def Flags.exclusive (f : Flags) : Bool :=
  !(f.load && f.store) && !(f.load && f.syscall) && !(f.store && f.syscall)

/-- WF4, second half: only a load has `dstM`. -/
def Entry.dstMOnlyLoad (e : Entry D) : Bool := e.port.dstM == none || e.flags.load

/-- WF6. -/
def Entry.jumpBare (e : Entry D) : Bool :=
  e.op != .jump || (e.port == Port.allNone && e.flags.noneSet)

/-- WF9. -/
def Entry.syscallBare (e : Entry D) : Bool := !e.flags.syscall || e.port == Port.allNone

/-- WF10, what it says of the record of `NOP`. -/
def Entry.nopBare (e : Entry D) : Bool :=
  e.op != .nop || (e.port == Port.allNone && e.flags == Flags.clear)

/-- A record that meets WF2, WF3, WF4, WF6, WF9 and WF10. -/
def Entry.admitted (e : Entry D) : Bool :=
  e.port.dstNotZero && e.port.dstDistinct && e.flags.exclusive && e.dstMOnlyLoad && e.jumpBare && e.syscallBare
    && e.nopBare

/-- An admitted opcode table with a collaborator that leaves register 0 at zero (30_encoding.md R75, 60_exceptions.md
R230) and an `ISTEP` that keeps a fetch on a word (20_memory.md R43). WF7 and WF8 hold by construction: an `effect` is a word
and reaches neither `npc` nor the width of an access. A step is taken on no other table (`stepWith`). -/
structure Config.Admitted (C : Config D) : Prop where
  wf1 : ∃ e, C.lookup C.nopInst = .op e ∧ e.op = .nop
  records : ∀ w e, C.lookup w = .op e → e.admitted = true
  byOpcode : ∀ w w' e e', C.lookup w = .op e → C.lookup w' = .op e' → e.op = e'.op →
    e.fu = e'.fu ∧ e.flags = e'.flags
  wf5A : ∀ w e, C.lookup w = .op e → e.port.srcA = none →
    ∀ pc a a' b, C.effect e.op w pc a b = C.effect e.op w pc a' b
  wf5B : ∀ w e, C.lookup w = .op e → e.port.srcB = none →
    ∀ pc a b b', C.effect e.op w pc a b = C.effect e.op w pc a b'
  wf10 : ∀ w pc a b, C.effect .nop w pc a b = 0
  iStep : C.iStep ≠ 0 ∧ C.iStep.toNat % 2 ^ D.ol = 0
  sys : ∀ R m w R' m', C.sys R m w = .cont R' m' → R[D.r0] = 0 → R'[D.r0] = 0

end

/-- A line of T0's assembler with its operands (30_encoding.md R85). `move` and `li` are the two pseudo-instructions;
a label is the byte address it stands for. -/
inductive Asm where
  | nop
  | j (label : Word)
  | add (rd rs rt : Nat)
  | sub (rd rs rt : Nat)
  | and (rd rs rt : Nat)
  | or (rd rs rt : Nat)
  | xor (rd rs rt : Nat)
  | slt (rd rs rt : Nat)
  | addi (rt rs : Nat) (imm : Int)
  | ori (rt rs : Nat) (imm : Int)
  | lui (rt : Nat) (imm : Int)
  | lw (rt : Nat) (imm : Int) (rs : Nat)
  | sw (rt : Nat) (imm : Int) (rs : Nat)
  | syscall
  | move (rd rs : Nat)
  | li (rt : Nat) (imm : Int)
  deriving DecidableEq, Repr

/-- `r0` to `r31`. -/
def regOk (r : Nat) : Bool := decide (r < 32)

/-- -32768 <= imm <= 32767. -/
def simmOk (imm : Int) : Bool := decide (-32768 ≤ imm) && decide (imm ≤ 32767)

/-- 0 <= imm <= 65535. -/
def uimmOk (imm : Int) : Bool := decide (0 ≤ imm) && decide (imm ≤ 65535)

/-- `label[31:28]` equals the jump's own `pc[31:28]` and `label[1:0]` is 0. -/
def labelOk (pc label : Word) : Bool :=
  label.extractLsb' 28 4 == pc.extractLsb' 28 4 && label.extractLsb' 0 2 == 0

/-- The line stands at `pc` and its operands are in the ranges of R85. `lw` and `sw` have an I-format immediate that is
sign-extended (R80), so its range is that of `addi`. -/
def Asm.wellFormed (pc : Word) : Asm → Bool
  | .nop => true
  | .j label => labelOk pc label
  | .add rd rs rt => regOk rd && regOk rs && regOk rt
  | .sub rd rs rt => regOk rd && regOk rs && regOk rt
  | .and rd rs rt => regOk rd && regOk rs && regOk rt
  | .or rd rs rt => regOk rd && regOk rs && regOk rt
  | .xor rd rs rt => regOk rd && regOk rs && regOk rt
  | .slt rd rs rt => regOk rd && regOk rs && regOk rt
  | .addi rt rs imm => regOk rt && regOk rs && simmOk imm
  | .ori rt rs imm => regOk rt && regOk rs && uimmOk imm
  | .lui rt imm => regOk rt && uimmOk imm
  | .lw rt imm rs => regOk rt && regOk rs && simmOk imm
  | .sw rt imm rs => regOk rt && regOk rs && simmOk imm
  | .syscall => true
  | .move rd rs => regOk rd && regOk rs
  | .li rt imm => regOk rt && simmOk imm

end Sys2Proof
end

