-- ==== Sys2Proof/Decode.lean ====
section
/-! DEFINITION. Decoding and encoding of T0 (30_encoding.md Part B). The decoder is the opcode map of R81 read row by row;
the encoder is written from the formats of R79. -/

namespace Sys2Proof

/-! ## Fields of an instruction word (R79) -/

def fieldRs (w : Word) : Reg := w.extractLsb' 21 5
def fieldRt (w : Word) : Reg := w.extractLsb' 16 5
def fieldRd (w : Word) : Reg := w.extractLsb' 11 5
def fieldImm (w : Word) : BitVec 16 := w.extractLsb' 0 16
def fieldTarg (w : Word) : BitVec 26 := w.extractLsb' 0 26

/-! ## The opcode map (R81) -/

/-- One row of the opcode map: the word belongs to the row when `word & mask = pattern`, and `build` reads its fields. -/
structure OpRow where
  mnemonic : String
  pattern  : Word
  mask     : Word
  build    : Word → Instr

def buildR (mk : Reg → Reg → Reg → Instr) (w : Word) : Instr := mk (fieldRd w) (fieldRs w) (fieldRt w)
def buildI (mk : Reg → Reg → BitVec 16 → Instr) (w : Word) : Instr := mk (fieldRt w) (fieldRs w) (fieldImm w)
def buildM (mk : Reg → BitVec 16 → Reg → Instr) (w : Word) : Instr := mk (fieldRt w) (fieldImm w) (fieldRs w)

def opRows : List OpRow :=
  [ ⟨"NOP",     0x00000000, 0xFFFFFFFF, fun _ => .nop⟩,
    ⟨"J",       0x04000000, 0xFC000000, fun w => .j (fieldTarg w)⟩,
    ⟨"ADD",     0x20000000, 0xFC0007FF, buildR .add⟩,
    ⟨"SUB",     0x24000000, 0xFC0007FF, buildR .sub⟩,
    ⟨"AND",     0x28000000, 0xFC0007FF, buildR .and⟩,
    ⟨"OR",      0x2C000000, 0xFC0007FF, buildR .or⟩,
    ⟨"XOR",     0x30000000, 0xFC0007FF, buildR .xor⟩,
    ⟨"SLT",     0x34000000, 0xFC0007FF, buildR .slt⟩,
    ⟨"ADDI",    0x40000000, 0xFC000000, buildI .addi⟩,
    ⟨"ORI",     0x44000000, 0xFC000000, buildI .ori⟩,
    ⟨"LUI",     0x48000000, 0xFFE00000, fun w => .lui (fieldRt w) (fieldImm w)⟩,
    ⟨"LW",      0x80000000, 0xFC000000, buildM .lw⟩,
    ⟨"SW",      0xA0000000, 0xFC000000, buildM .sw⟩,
    ⟨"LINK",    0xF8000000, 0xFC000000, fun w => .link (fieldTarg w)⟩,
    ⟨"SYSCALL", 0xFC000000, 0xFFFFFFFF, fun _ => .syscall⟩ ]

def OpRow.covers (r : OpRow) (w : Word) : Bool := w &&& r.mask == r.pattern

/-- `decode(inst)`: the first row that covers the word; `none` is the spec's `ABSENT` (R81, R82). -/
def decodeWord (w : Word) : Option Instr := (opRows.find? (·.covers w)).map (·.build w)

/-! ## Decoding bytes -/

/-- Why bytes are no instruction. -/
inductive DecodeError where
  /-- Fewer than four bytes are left. -/
  | truncated
  /-- The word matches no row of the opcode map (R82). -/
  | absent (w : Word)
  deriving DecidableEq, Repr

/-- The four bytes of a word as the backing store holds them, lowest address first. DESIGN CHOICE (log entry 2): the spec
has no byte order (20_memory.md R49); the low byte comes first. -/
def wordBytes (w : Word) : List Byte :=
  [w.extractLsb' 0 8, w.extractLsb' 8 8, w.extractLsb' 16 8, w.extractLsb' 24 8]

def wordOfBytes (b0 b1 b2 b3 : Byte) : Word := b3 ++ b2 ++ b1 ++ b0

/-- The instruction at the head of a list of bytes and the rest of the list; every instruction has one word (R79). -/
def decodeBytes : List Byte → Except DecodeError (Instr × List Byte)
  | b0 :: b1 :: b2 :: b3 :: rest =>
    match decodeWord (wordOfBytes b0 b1 b2 b3) with
    | some i => .ok (i, rest)
    | none => .error (.absent (wordOfBytes b0 b1 b2 b3))
  | _ => .error .truncated

/-- The word whose low `nbits` bits are `w` and whose other bits are 0. -/
def tableWord (nbits w : Nat) : Word := BitVec.ofNat 32 (w % 2 ^ nbits)

/-- The decoder on an instruction of the opcode table, whose bits are `w`, laid out as the store holds it. -/
def decodeTableWord (nbits w : Nat) : Option Instr :=
  match decodeBytes (wordBytes (tableWord nbits w)) with
  | .ok (i, _) => some i
  | .error _ => none

/-! ## Encoding (R79, R81) -/

def encodeR (op : BitVec 6) (rd rs rt : Reg) : Word := op ++ rs ++ rt ++ rd ++ 0#11
def encodeI (op : BitVec 6) (rt rs : Reg) (imm : BitVec 16) : Word := op ++ rs ++ rt ++ imm
def encodeJ (op : BitVec 6) (low : BitVec 26) : Word := op ++ low

def encode : Instr → Word
  | .nop => encodeJ 0x00 0
  | .j targ => encodeJ 0x01 targ
  | .add rd rs rt => encodeR 0x08 rd rs rt
  | .sub rd rs rt => encodeR 0x09 rd rs rt
  | .and rd rs rt => encodeR 0x0A rd rs rt
  | .or rd rs rt => encodeR 0x0B rd rs rt
  | .xor rd rs rt => encodeR 0x0C rd rs rt
  | .slt rd rs rt => encodeR 0x0D rd rs rt
  | .addi rt rs imm => encodeI 0x10 rt rs imm
  | .ori rt rs imm => encodeI 0x11 rt rs imm
  | .lui rt imm => encodeI 0x12 rt 0 imm
  | .lw rt imm rs => encodeI 0x20 rt rs imm
  | .sw rt imm rs => encodeI 0x28 rt rs imm
  | .link ignored => encodeJ 0x3E ignored
  | .syscall => encodeJ 0x3F 0

/-! ## Assembler (R85) -/

def asmReg (r : Nat) : Reg := BitVec.ofNat 5 r

/-- The instruction a well-formed line at `pc` stands for. -/
def assemble (pc : Word) (a : Asm) : Option Instr :=
  if a.wellFormed pc then
    some <| match a with
    | .nop => .nop
    | .j label => .j (label.extractLsb' 2 26)
    | .add rd rs rt => .add (asmReg rd) (asmReg rs) (asmReg rt)
    | .sub rd rs rt => .sub (asmReg rd) (asmReg rs) (asmReg rt)
    | .and rd rs rt => .and (asmReg rd) (asmReg rs) (asmReg rt)
    | .or rd rs rt => .or (asmReg rd) (asmReg rs) (asmReg rt)
    | .xor rd rs rt => .xor (asmReg rd) (asmReg rs) (asmReg rt)
    | .slt rd rs rt => .slt (asmReg rd) (asmReg rs) (asmReg rt)
    | .addi rt rs imm => .addi (asmReg rt) (asmReg rs) (BitVec.ofInt 16 imm)
    | .ori rt rs imm => .ori (asmReg rt) (asmReg rs) (BitVec.ofInt 16 imm)
    | .lui rt imm => .lui (asmReg rt) (BitVec.ofInt 16 imm)
    | .lw rt imm rs => .lw (asmReg rt) (BitVec.ofInt 16 imm) (asmReg rs)
    | .sw rt imm rs => .sw (asmReg rt) (BitVec.ofInt 16 imm) (asmReg rs)
    | .syscall => .syscall
    | .move rd rs => .add (asmReg rd) (asmReg rs) 0
    | .li rt imm => .addi (asmReg rt) 0 (BitVec.ofInt 16 imm)
  else none

end Sys2Proof
end

