-- ==== Sys2Proof/Machine/Registers.lean ====
section
/-! DEFINITION. The register file's reads and writes (10_state.md R10, R12). -/

namespace Sys2Proof.Machine

variable {D : Sizes}

def readReg (R : RegFile D) (r : D.Reg) : D.Word := R[r]

def writeReg (R : RegFile D) (r : D.Reg) (v : D.Word) : RegFile D := R.set r v

/-- The write of a destination field; `NONE` writes nothing. No write is filtered, not even to index 0 (40_pipeline_engine.md
R104). -/
def writeDst (R : RegFile D) (d : Option D.Reg) (v : D.Word) : RegFile D :=
  match d with
  | none => R
  | some r => writeReg R r v

/-- The register that a field of a T0 word names. -/
def index (r : Reg) : Sizes.t0.Reg := r.toFin

end Sys2Proof.Machine
end

