-- ==== Sys2Proof/Machine/Operands.lean ====
section
/-! DEFINITION. Operands: the Ports of T0 (30_encoding.md R83), immediates (R80) and the jump target (R76). -/

namespace Sys2Proof.Machine

/-! ## T0's Ports (R83) -/

/-- `nz(r)`: a destination field 0 is `NONE`. -/
def nz (r : Reg) : Option Sizes.t0.Reg := if r = 0 then none else some (index r)

def portR (rd rs rt : Reg) : Port .t0 := ⟨some (index rs), some (index rt), none, nz rd, none⟩
def portI (rt rs : Reg) : Port .t0 := ⟨some (index rs), none, none, nz rt, none⟩
def portLui (rt : Reg) : Port .t0 := ⟨none, none, none, nz rt, none⟩
def portLw (rt rs : Reg) : Port .t0 := ⟨none, some (index rs), none, none, nz rt⟩
def portSw (rt rs : Reg) : Port .t0 := ⟨some (index rt), some (index rs), none, none, none⟩

/-! ## T0's immediates (R80) -/

def sextImm (imm : BitVec 16) : Word := imm.signExtend 32
def zextImm (imm : BitVec 16) : Word := imm.zeroExtend 32
def upperImm (imm : BitVec 16) : Word := imm ++ 0#16

/-! ## The jump target (R76) -/

/-- `(PC & SEG_MASK) | (zext(targ) << TARG_SHIFT)`, with the jump's own address. -/
def jumpTarget {D : Sizes} (C : Config D) (pc : D.Addr) (targ : D.Targ) : D.Addr :=
  (pc &&& C.segMask) ||| (targ.zeroExtend D.aw <<< C.targShift)

end Sys2Proof.Machine
end

