-- ==== Sys2Proof/Machine/T0.lean ====
section
/-! DEFINITION. The opcode table T0 and its collaborator (44_fixture_t0.md): for each instruction its record (30_encoding.md
R81, R83, R84) and its `effect`, the value `E` that Execute computes; and the configuration they make. -/

namespace Sys2Proof.Machine

/-! ## The flags of an opcode (R81) -/

def flagsLoad : Flags := ⟨true, false, false, 0⟩
def flagsStore : Flags := ⟨false, true, false, 0⟩
def flagsSyscall : Flags := ⟨false, false, true, 0⟩

/-! ## The records: opcode, functional-unit class, flags, Port -/

def rowNop : Entry .t0 := ⟨.nop, .none, Flags.clear, Port.allNone⟩
def rowJ : Entry .t0 := ⟨.jump, .ialu, Flags.clear, Port.allNone⟩
def rowAdd (rd rs rt : Reg) : Entry .t0 := ⟨.add, .ialu, Flags.clear, portR rd rs rt⟩
def rowSub (rd rs rt : Reg) : Entry .t0 := ⟨.sub, .ialu, Flags.clear, portR rd rs rt⟩
def rowAnd (rd rs rt : Reg) : Entry .t0 := ⟨.and, .ialu, Flags.clear, portR rd rs rt⟩
def rowOr (rd rs rt : Reg) : Entry .t0 := ⟨.or, .ialu, Flags.clear, portR rd rs rt⟩
def rowXor (rd rs rt : Reg) : Entry .t0 := ⟨.xor, .ialu, Flags.clear, portR rd rs rt⟩
def rowSlt (rd rs rt : Reg) : Entry .t0 := ⟨.slt, .ialu, Flags.clear, portR rd rs rt⟩
def rowAddi (rt rs : Reg) : Entry .t0 := ⟨.addi, .ialu, Flags.clear, portI rt rs⟩
def rowOri (rt rs : Reg) : Entry .t0 := ⟨.ori, .ialu, Flags.clear, portI rt rs⟩
def rowLui (rt : Reg) : Entry .t0 := ⟨.lui, .ialu, Flags.clear, portLui rt⟩
def rowLw (rt rs : Reg) : Entry .t0 := ⟨.lw, .rdport, flagsLoad, portLw rt rs⟩
def rowSw (rt rs : Reg) : Entry .t0 := ⟨.sw, .wrport, flagsStore, portSw rt rs⟩
def rowSyscall : Entry .t0 := ⟨.syscall, .none, flagsSyscall, Port.allNone⟩

/-- What the table answers for the word of an instruction (30_encoding.md R81, column "decode result"). -/
def lookupInstr : Instr → Lookup .t0
  | .nop => .op rowNop
  | .j _ => .op rowJ
  | .add rd rs rt => .op (rowAdd rd rs rt)
  | .sub rd rs rt => .op (rowSub rd rs rt)
  | .and rd rs rt => .op (rowAnd rd rs rt)
  | .or rd rs rt => .op (rowOr rd rs rt)
  | .xor rd rs rt => .op (rowXor rd rs rt)
  | .slt rd rs rt => .op (rowSlt rd rs rt)
  | .addi rt rs _ => .op (rowAddi rt rs)
  | .ori rt rs _ => .op (rowOri rt rs)
  | .lui rt _ => .op (rowLui rt)
  | .lw rt _ rs => .op (rowLw rt rs)
  | .sw rt _ rs => .op (rowSw rt rs)
  | .link _ => .link
  | .syscall => .op rowSyscall

/-- `decode(inst)` of T0, with the record of the opcode (30_encoding.md R71, R72). -/
def t0Lookup (w : Word) : Lookup .t0 :=
  match decodeWord w with
  | some i => lookupInstr i
  | none => .absent

/-! ## The effects -/

/-- R192. -/
def effectAdd (a b : Word) : Word := a + b
/-- R193. -/
def effectSub (a b : Word) : Word := a - b
/-- R194. -/
def effectAnd (a b : Word) : Word := a &&& b
/-- R195. -/
def effectOr (a b : Word) : Word := a ||| b
/-- R196. -/
def effectXor (a b : Word) : Word := a ^^^ b
/-- R197: the comparison is two's-complement signed. -/
def effectSlt (a b : Word) : Word := if a.toInt < b.toInt then 1 else 0
/-- R198. -/
def effectAddi (a : Word) (imm : BitVec 16) : Word := a + sextImm imm
/-- R199. -/
def effectOri (a : Word) (imm : BitVec 16) : Word := a ||| zextImm imm
/-- R200. -/
def effectLui (imm : BitVec 16) : Word := upperImm imm
/-- R201, the effective byte address. -/
def effectLw (b : Word) (imm : BitVec 16) : Word := b + sextImm imm
/-- R202, the effective byte address. -/
def effectSw (b : Word) (imm : BitVec 16) : Word := b + sextImm imm

/-- `effect(o, inst, pc, A, B)` (30_encoding.md R72). No instruction of T0 uses its own address, and
no word of T0 has an opcode `other`. -/
def t0Effect (o : Opcode) (inst : Word) (_pc : Word) (a b : Word) : Word :=
  match o with
  | .nop => 0
  | .jump => 0
  | .add => effectAdd a b
  | .sub => effectSub a b
  | .and => effectAnd a b
  | .or => effectOr a b
  | .xor => effectXor a b
  | .slt => effectSlt a b
  | .addi => effectAddi a (fieldImm inst)
  | .ori => effectOri a (fieldImm inst)
  | .lui => effectLui (fieldImm inst)
  | .lw => effectLw b (fieldImm inst)
  | .sw => effectSw b (fieldImm inst)
  | .syscall => 0
  | .other _ => 0

/-! ## The collaborator -/

/-- `Sys_T0(R, BM, inst)` (R205): call number in `R[2]`, argument in `R[4]`. -/
def sysT0 (R : RegFile .t0) (m : Memory) (_inst : Word) : SysResult .t0 :=
  if readReg R 2 = 1 then .exit (readReg R 4) else .cont (writeReg R 2 0) m

/-! ## The configuration of T0 (44_fixture_t0.md, 00_scope.md R6, R7) -/

def t0 : Config .t0 where
  iStep       := 4
  segMask     := 0xF0000000
  targShift   := 2
  nopInst     := 0
  missPenalty := 9
  lookup      := t0Lookup
  effect      := t0Effect
  targ        := fieldTarg
  sys         := sysT0

end Sys2Proof.Machine
end

