-- ==== Sys2Proof/Machine/State.lean ====
section
/-! DEFINITION. The state of the machine as plain data (10_state.md), its reset value (R31, R250), and the reasons a step
can answer no next state. Each type is given for the machine of any sizes; without an argument it is T0's. -/

namespace Sys2Proof.Machine

/-- The IF/ID buffer (10_state.md R16). -/
structure FD (D : Sizes := Sizes.t0) where
  inst : D.Inst
  pc   : D.Addr
  npc  : D.Addr
  deriving DecidableEq, Repr

/-- The ID/EX buffer (10_state.md R17). -/
structure DE (D : Sizes := Sizes.t0) where
  inst  : D.Inst
  pc    : D.Addr
  op    : Opcode
  fu    : FuClass
  flags : Flags
  port  : Port D
  a     : D.Word
  b     : D.Word
  deriving DecidableEq, Repr

/-- The EX/MEM buffer (10_state.md R18). `taken` is the branch-taken flag (R22). -/
structure EM (D : Sizes := Sizes.t0) where
  inst  : D.Inst
  pc    : D.Addr
  op    : Opcode
  fu    : FuClass
  flags : Flags
  port  : Port D
  a     : D.Word
  e     : D.Word
  taken : Bool
  deriving DecidableEq, Repr

/-- The MEM/WB buffer (10_state.md R19). -/
structure MW (D : Sizes := Sizes.t0) where
  inst  : D.Inst
  pc    : D.Addr
  op    : Opcode
  fu    : FuClass
  flags : Flags
  port  : Port D
  e     : D.Word
  m     : D.Word
  deriving DecidableEq, Repr

/-- A cache line (10_state.md R23). -/
structure CacheLine (D : Sizes := Sizes.t0) where
  data  : Vector D.Word D.lineWords
  tag   : D.Tag
  dirty : Bool
  valid : Bool
  deriving DecidableEq, Repr

/-- A cache set: its lines and the fill cursor (10_state.md R24). -/
structure CacheSet (D : Sizes := Sizes.t0) where
  line   : Vector (CacheLine D) D.nways
  cursor : D.Way
  deriving DecidableEq, Repr

/-- The seven counters (10_state.md R26, R27), natural numbers (D7). -/
structure Counters where
  cycleCount        : Nat
  memAccessCount    : Nat
  cacheHitCount     : Nat
  cacheMissCount    : Nat
  cacheReplaceCount : Nat
  cacheWbCount      : Nat
  insnCount         : Nat
  deriving DecidableEq, Repr

/-- The three fatal errors with what their diagnostic records (60_exceptions.md R221 to R223). -/
inductive FatalError (D : Sizes := Sizes.t0) where
  | memoryFault (addr : D.Addr) (cycle : Nat)
  | unknownOpcode (pc : D.Addr) (inst : D.Inst) (cycle : Nat)
  | unsupportedFeature (pc : D.Addr) (inst : D.Inst) (cycle : Nat)
  deriving DecidableEq, Repr

/-- Machine status (10_state.md R30). -/
inductive Status (D : Sizes := Sizes.t0) where
  | running
  | halted (code : D.Word)
  | faulted (error : FatalError D)
  deriving DecidableEq, Repr

/-- Everything the spec gives the machine (10_state.md). `mem` is the backing store `BM` and `unmapped` the complement of
`Mapped` (R28). -/
structure State (D : Sizes := Sizes.t0) where
  regs     : RegFile D
  pc       : D.Addr
  npc      : D.Addr
  fd       : FD D
  de       : DE D
  em       : EM D
  mw       : MW D
  cache    : Vector (CacheSet D) D.nsets
  counters : Counters
  mem      : Memory
  unmapped : List Region
  status   : Status D
  deriving DecidableEq, Repr

/-- Why a step answers no next state: the machine has stopped and "no cycle is taken" from its status (10_state.md R30,
60_exceptions.md R224, R232). The stop itself is a next state, in which `status` holds the code or the diagnostic. -/
inductive Fault (D : Sizes := Sizes.t0) where
  /-- The status is `halted`. Raised by every step from it. Safe: the spec takes no cycle there. -/
  | halted (code : D.Word)
  /-- The status is `faulted`. Raised by every step from it. Safe: the spec takes no cycle there. -/
  | faulted (error : FatalError D)
  deriving DecidableEq, Repr

/-- Why an instruction has no meaning. -/
inductive Refusal where
  /-- Raised by an arm of `exec` whose instruction has no meaning yet; no arm does. Safe: the machine stops. -/
  | notModelled (mnemonic : String)
  deriving DecidableEq, Repr

section
variable {D : Sizes}

/-- A line right after reset: not valid, not dirty, tag 0, data 0. -/
def CacheLine.empty : CacheLine D := ⟨Vector.replicate D.lineWords 0, 0, false, false⟩

def CacheSet.empty : CacheSet D := ⟨Vector.replicate D.nways CacheLine.empty, D.way0⟩

def Counters.zero : Counters := ⟨0, 0, 0, 0, 0, 0, 0⟩

/-- The bubble of each buffer, with the `pc` of the instruction it replaces (10_state.md R21): `NOP_INST` and the class of
`NOP` are the configuration's. -/
def FD.bubble (C : Config D) (pc : D.Addr) : FD D := ⟨C.nopInst, pc, pc⟩
def DE.bubble (C : Config D) (pc : D.Addr) : DE D := ⟨C.nopInst, pc, .nop, C.nopFu, Flags.clear, Port.allNone, 0, 0⟩
def EM.bubble (C : Config D) (pc : D.Addr) : EM D :=
  ⟨C.nopInst, pc, .nop, C.nopFu, Flags.clear, Port.allNone, 0, 0, false⟩
def MW.bubble (C : Config D) (pc : D.Addr) : MW D := ⟨C.nopInst, pc, .nop, C.nopFu, Flags.clear, Port.allNone, 0, 0⟩

/-- The state right after reset of a machine with a configuration on a platform (10_state.md R31,
70_reset_and_hazards.md R250). Register 0 is 0 whatever `initRegs` says; the buffers hold bubbles (R21). -/
def State.resetWith (C : Config D) (p : Platform D) : State D where
  regs     := writeReg p.initRegs D.r0 0
  pc       := p.entry
  npc      := p.entry
  fd       := FD.bubble C p.entry
  de       := DE.bubble C p.entry
  em       := EM.bubble C p.entry
  mw       := MW.bubble C p.entry
  cache    := Vector.replicate D.nsets CacheSet.empty
  counters := Counters.zero
  mem      := p.initMem
  unmapped := p.unmapped
  status   := .running

end

/-- The state right after reset of T0 on the default platform (log entries 3 to 6). -/
def State.reset : State := State.resetWith t0 Platform.default

end Sys2Proof.Machine

namespace Sys2Proof

/-- The state right after reset of the machine of a configuration record. -/
def Parameters.reset (P : Parameters) : Machine.State P.sizes := Machine.State.resetWith P.config P.platform

/-- The record with the spec's defaults (00_scope.md R5 to R7), the fixture T0 and its collaborator, and the default
platform: the machine of `State.reset` and `step`. -/
def Parameters.t0 : Parameters := ⟨.t0, Machine.t0, .default⟩

end Sys2Proof
end

