-- ==== Sys2Proof/Machine/Ops.lean ====
section
/-! DEFINITION. The named operations over backing store, cache and status: how a cycle is stopped
(60_exceptions.md R224, R232), the MemoryBackend ports (20_memory.md R41 to R43) and the data cache (42_cache.md). -/

namespace Sys2Proof.Machine

variable {D : Sizes}

/-! ## Updates of one field -/

def State.setRegs (s : State D) (R : RegFile D) : State D := { s with regs := R }
def State.setPc (s : State D) (a : D.Addr) : State D := { s with pc := a }
def State.setNpc (s : State D) (a : D.Addr) : State D := { s with npc := a }
def State.setFd (s : State D) (b : FD D) : State D := { s with fd := b }
def State.setDe (s : State D) (b : DE D) : State D := { s with de := b }
def State.setEm (s : State D) (b : EM D) : State D := { s with em := b }
def State.setMw (s : State D) (b : MW D) : State D := { s with mw := b }
def State.setCache (s : State D) (c : Vector (CacheSet D) D.nsets) : State D := { s with cache := c }
def State.setCounters (s : State D) (c : Counters) : State D := { s with counters := c }
def State.setMem (s : State D) (m : Memory) : State D := { s with mem := m }
def State.setStatus (s : State D) (st : Status D) : State D := { s with status := st }

/-! ## Counters (10_state.md R26) -/

def Counters.tick (c : Counters) : Counters := { c with cycleCount := c.cycleCount + 1 }
def Counters.countHit (c : Counters) : Counters := { c with cacheHitCount := c.cacheHitCount + 1 }
def Counters.countReplace (c : Counters) : Counters := { c with cacheReplaceCount := c.cacheReplaceCount + 1 }
def Counters.countWb (c : Counters) : Counters := { c with cacheWbCount := c.cacheWbCount + 1 }
def Counters.countInsn (c : Counters) : Counters := { c with insnCount := c.insnCount + 1 }

/-- What every miss counts (42_cache.md R155, R158). -/
def Counters.countMiss (c : Counters) (penalty : Nat) : Counters :=
  { c with cacheMissCount := c.cacheMissCount + 1, memAccessCount := c.memAccessCount + 1,
           cycleCount := c.cycleCount + penalty }

/-! ## Statements that can end a cycle -/

/-- The outcome of a statement of a cycle: a value and the state after it, or the state in which the cycle ended. -/
inductive Run (D : Sizes) (α : Type) where
  | ok (a : α) (s : State D)
  | stop (s : State D)

/-- The next statement, which runs only if the one before did not end the cycle. -/
def Run.bind {α β : Type} (r : Run D α) (f : α → State D → Run D β) : Run D β :=
  match r with
  | .ok a s => f a s
  | .stop s => .stop s

/-- A statement for each element of a list, in its order. -/
def forEach {α : Type} (f : α → State D → Run D Unit) : List α → State D → Run D Unit
  | [], s => .ok () s
  | a :: l, s => (f a s).bind fun _ s => forEach f l s

/-- `raise K(info)` (60_exceptions.md R224): the status becomes `Faulted` and the cycle ends at this statement; nothing
else changes, and what the cycle did before stays done. This is all there is to taking an error (R229). -/
def raise {α : Type} (e : FatalError D) (s : State D) : Run D α := .stop (s.setStatus (.faulted e))

/-- `raise MemoryFault(addr, cycle_count)` (60_exceptions.md R221). -/
def raiseMemoryFault {α : Type} (addr : D.Addr) (s : State D) : Run D α :=
  raise (.memoryFault addr s.counters.cycleCount) s

/-- `halt(code)` (60_exceptions.md R232). -/
def halt {α : Type} (code : D.Word) (s : State D) : Run D α := .stop (s.setStatus (.halted code))

/-- A cycle's answer: the state in which it ended, whichever way it did. -/
def Run.outcome {α : Type} (r : Run D α) : Host.Outcome (State D) (Fault D) Refusal :=
  match r with
  | .ok _ s => .next s
  | .stop s => .next s

/-! ## The backing store (10_state.md R28) -/

/-- What a byte that the list does not hold reads as. DESIGN CHOICE, unsafe (log entry 3). -/
def unlistedByte : Byte := 0

/-- The byte at a byte address. -/
def readByte : Memory → Nat → Byte
  | [], _ => unlistedByte
  | (k, v) :: m, a => if k = a then v else readByte m a

/-- A cell in front of a list, unless it holds what an unlisted byte reads as. -/
def consCell (a : Nat) (v : Byte) (m : Memory) : Memory := if v = unlistedByte then m else (a, v) :: m

/-- The write of one byte, keeping the addresses rising and the list free of unlisted values. -/
def writeByte : Memory → Nat → Byte → Memory
  | [], a, v => consCell a v []
  | (k, w) :: m, a, v =>
    if a < k then consCell a v ((k, w) :: m)
    else if a = k then consCell a v m
    else (k, w) :: writeByte m a v

/-- The canonical form: addresses of bytes of the store, strictly rising, and no cell that holds what an unlisted byte reads as. -/
def Memory.wf (D : Sizes) : Memory → Bool
  | [] => true
  | (k, v) :: m => v != unlistedByte && decide (k < D.memBytes) && m.all (fun c => decide (k < c.1)) && Memory.wf D m

/-- The number that `n` bytes from an address make, the lowest in the low bits. DESIGN CHOICE, safe: no rule can see the
order of the bytes in a word (20_memory.md R49; log entry 2). -/
def readBytes (m : Memory) : Nat → Nat → Nat
  | _, 0 => 0
  | a, n + 1 => (readByte m a).toNat + 2 ^ 8 * readBytes m (a + 1) n

/-- The write of the low `n` bytes of a number. -/
def writeBytes : Memory → Nat → Nat → Nat → Memory
  | m, _, 0, _ => m
  | m, a, n + 1, v => writeBytes (writeByte m a (BitVec.ofNat 8 v)) (a + 1) n (v / 2 ^ 8)

/-- `BM[wa]`. -/
def memWord (m : Memory) (wa : D.WordAddr) : D.Word :=
  BitVec.ofNat D.w (readBytes m (D.wordBytes * wa.toNat) D.wordBytes)

/-- `BM[wa] <- v`. -/
def setMemWord (m : Memory) (wa : D.WordAddr) (v : D.Word) : Memory :=
  writeBytes m (D.wordBytes * wa.toNat) D.wordBytes v.toNat

def regionContains (r : Region) (n : Nat) : Bool := decide (r.lo ≤ n) && decide (n < r.hi)

/-- `Mapped(wa)` (10_state.md R28). -/
def State.mapped (s : State D) (wa : D.WordAddr) : Bool := !s.unmapped.any (regionContains · wa.toNat)

/-- `BackendRead(wa)`, its fault turned into a MemoryFault (20_memory.md R41). -/
def backendRead (wa : D.WordAddr) (s : State D) : Run D D.Word :=
  if s.mapped wa then .ok (memWord s.mem wa) s else raiseMemoryFault (D.byteAddr wa) s

/-- `BackendWrite(wa, v)` (20_memory.md R42). -/
def backendWrite (wa : D.WordAddr) (v : D.Word) (s : State D) : Run D Unit :=
  if s.mapped wa then .ok () (s.setMem (setMemWord s.mem wa v)) else raiseMemoryFault (D.byteAddr wa) s

/-- The number that the words `BM[wa]` to `BM[wa + k - 1]` make, the lowest word address in the low bits. -/
def memWords (m : Memory) (wa : D.WordAddr) : Nat → Nat
  | 0 => 0
  | k + 1 => memWords m wa k + 2 ^ (D.w * k) * (memWord m (wa + BitVec.ofNat D.waw k)).toNat

/-- The instruction whose first word is at a word address (20_memory.md R43). -/
def memInst (m : Memory) (wa : D.WordAddr) : D.Inst := BitVec.ofNat D.ilen (memWords m wa D.instWords)

/-- Every word of the instruction at a word address is mapped. -/
def State.instMapped (s : State D) (wa : D.WordAddr) : Bool :=
  (List.range D.instWords).all fun k => s.mapped (wa + BitVec.ofNat D.waw k)

/-- `IFetch(a)`, its fault turned into a MemoryFault (20_memory.md R43). -/
def iFetch (C : Config D) (a : D.Addr) (s : State D) : Run D D.Inst :=
  if a.toNat % C.iStep.toNat = 0 ∧ s.instMapped (D.wordAddr a) then .ok (memInst s.mem (D.wordAddr a)) s
  else raiseMemoryFault a s

/-! ## Cache: lines and lookup -/

def CacheLine.holds (L : CacheLine D) (t : D.Tag) : Bool := L.valid && L.tag == t

/-- The lowest slot that holds the tag (42_cache.md R152, D38). -/
def CacheSet.slotOf (c : CacheSet D) (t : D.Tag) : Option D.Way :=
  (List.finRange D.nways).find? (fun w => c.line[w].holds t)

/-- `lookup(wa)` (42_cache.md R152). -/
def State.lookup (s : State D) (wa : D.WordAddr) : Option D.Way := s.cache[D.setOf wa].slotOf (D.tagOf wa)

def State.line (s : State D) (i : D.SetIx) (w : D.Way) : CacheLine D := s.cache[i].line[w]

/-- The fill cursor of a set (42_cache.md R163). -/
def State.cursor (s : State D) (i : D.SetIx) : D.Way := s.cache[i].cursor

def State.setLine (s : State D) (i : D.SetIx) (w : D.Way) (L : CacheLine D) : State D :=
  s.setCache (s.cache.set i { s.cache[i] with line := s.cache[i].line.set w L })

def State.setCursor (s : State D) (i : D.SetIx) (w : D.Way) : State D :=
  s.setCache (s.cache.set i { s.cache[i] with cursor := w })

def CacheLine.setData (L : CacheLine D) (k : D.Off) (v : D.Word) : CacheLine D := { L with data := L.data.set k v }

/-- What a write hit makes of its line (42_cache.md R157): one data word and the dirty flag change. -/
def CacheLine.written (L : CacheLine D) (k : D.Off) (v : D.Word) : CacheLine D := { L.setData k v with dirty := true }

/-- `ArchMem(wa)` (20_memory.md R52): what a load of `wa` would return. -/
def State.archMem (s : State D) (wa : D.WordAddr) : D.Word :=
  match s.lookup wa with
  | some w => (s.line (D.setOf wa) w).data[D.offOf wa]
  | none => memWord s.mem wa

/-! ## Cache: line fill (42_cache.md R160 to R163) -/

/-- A statement for each word of a line, the lowest first. -/
def forWords (f : D.Off → State D → Run D Unit) (s : State D) : Run D Unit := forEach f (List.finRange D.lineWords) s

/-- `BackendWrite(base(L.tag, s) + k, L.data[k])` for each word of the line (R162). -/
def writeBackLine (L : CacheLine D) (i : D.SetIx) (s : State D) : Run D Unit :=
  forWords (fun k s => backendWrite (D.lineWord (D.baseOf L.tag i) k) L.data[k] s) s

/-- What a fill does with the victim line before it is reused (R161, R162). -/
def evict (L : CacheLine D) (i : D.SetIx) (s : State D) : Run D Unit :=
  if L.valid then
    if L.dirty then
      (writeBackLine L i (s.setCounters s.counters.countReplace)).bind fun _ s =>
      .ok () (s.setCounters s.counters.countWb)
    else .ok () (s.setCounters s.counters.countReplace)
  else .ok () s

/-- `L.data[k] <- BackendRead(b + k)` for the line in slot `w` of set `i`. -/
def loadLineWord (b : D.WordAddr) (i : D.SetIx) (w : D.Way) (k : D.Off) (s : State D) : Run D Unit :=
  (backendRead (D.lineWord b k) s).bind fun v s => .ok () (s.setLine i w ((s.line i w).setData k v))

/-- `fill(b)` (R160): the cursor's slot is the victim and the cursor advances (R163). -/
def fill (b : D.WordAddr) (s : State D) : Run D Unit :=
  let i := D.setOf b
  let w := s.cursor i
  (evict (s.line i w) i (s.setCursor i (D.nextWay w))).bind fun _ s =>
  forWords (loadLineWord b i w)
    (s.setLine i w { s.line i w with tag := D.tagOf b, dirty := false, valid := true })

/-! ## Cache: `read_word` and `write_word` (42_cache.md R153 to R158) -/

/-- `read_word(wa)`: a hit is R154, a miss R155. -/
def readWord (C : Config D) (wa : D.WordAddr) (s : State D) : Run D D.Word :=
  match s.lookup wa with
  | some w => .ok (s.line (D.setOf wa) w).data[D.offOf wa] (s.setCounters s.counters.countHit)
  | none =>
    (backendRead wa (s.setCounters (s.counters.countMiss C.missPenalty))).bind fun v s =>
    (fill (D.lineBase wa) s).bind fun _ s =>
    .ok v s

/-- `write_word(wa, v)`: a hit is R157, a miss R158. -/
def writeWord (C : Config D) (wa : D.WordAddr) (v : D.Word) (s : State D) : Run D Unit :=
  match s.lookup wa with
  | some w =>
    .ok () ((s.setLine (D.setOf wa) w ((s.line (D.setOf wa) w).written (D.offOf wa) v)).setCounters s.counters.countHit)
  | none =>
    (backendWrite wa v (s.setCounters (s.counters.countMiss C.missPenalty))).bind fun _ s =>
    fill (D.lineBase wa) s

/-! ## The pipeline's data accesses (20_memory.md R45 to R47) -/

/-- `DRead(ea)` (R46). -/
def dRead (C : Config D) (ea : D.Addr) (s : State D) : Run D D.Word :=
  if D.aligned ea then readWord C (D.wordAddr ea) s else raiseMemoryFault ea s

/-- `DWrite(ea, v)` (R47). -/
def dWrite (C : Config D) (ea : D.Addr) (v : D.Word) (s : State D) : Run D Unit :=
  if D.aligned ea then writeWord C (D.wordAddr ea) v s else raiseMemoryFault ea s

end Sys2Proof.Machine
end

