-- ==== Sys2Proof/Machine/Flags.lean ====
section
/-! DEFINITION. The one-bit flags of the machine: what the stages read of the flags of an opcode (30_encoding.md R73) and the
branch-taken flag (10_state.md R22). There is no condition code: no instruction sets a flag by its arithmetic (R22). -/

namespace Sys2Proof.Machine

variable {D : Sizes}

/-- What Execute writes to `EM.taken`: 0 for every opcode (40_pipeline_engine.md R108). -/
def executedTaken (_ : Opcode) : Bool := false

/-- Decode's squash test, on EM' (40_pipeline_engine.md R111). -/
def squashed (s : State D) : Bool := s.em.taken

/-- Writeback counts an entry that is not the no-operation sentinel (40_pipeline_engine.md R105). -/
def retires (b : MW D) : Bool := b.op != .nop

/-- Writeback calls the collaborator for the entry (40_pipeline_engine.md R105). -/
def callsSys (b : MW D) : Bool := retires b && b.flags.syscall

end Sys2Proof.Machine
end

