-- ==== Sys2Proof/Machine/Forwarding.lean ====
section
/-! DEFINITION. The forwarding resolver (41_forwarding.md R140 to R146). It runs in Decode, when `s.em` and `s.mw` are
already this cycle's EM' and MW'. -/

namespace Sys2Proof.Machine

variable {D : Sizes}

/-- The operand in a source field. Case 2 is the eager read, a `read_word` with all its effects (R142). -/
def resolve (C : Config D) (src : Option D.Reg) (s : State D) : Run D D.Word :=
  match src with
  | none => .ok 0 s
  | some r =>
    if s.em.port.dstE = some r then .ok s.em.e s
    else if s.em.port.dstM = some r then dRead C (D.effAddr s.em.e) s
    else if s.mw.port.dstE = some r then .ok s.mw.e s
    else if s.mw.port.dstM = some r then .ok s.mw.m s
    else .ok (readReg s.regs r) s

end Sys2Proof.Machine
end

