-- ==== Sys2Proof/Machine/Stages.lean ====
section
/-! DEFINITION. The five stage operations and the cycle (40_pipeline_engine.md), over any configuration. Each statement of
the pseudocode is one update, in the order written, so that a cycle that ends early leaves what R224 says. -/

namespace Sys2Proof.Machine

variable {D : Sizes}

/-- The first two statements of a cycle: the count and the re-stamp of register 0 (R100). -/
def beginCycle (s : State D) : State D :=
  (s.setCounters s.counters.tick).setRegs (writeReg s.regs D.r0 0)

/-- The register commit of Writeback (R104). -/
def commit (b : MW D) (R : RegFile D) : RegFile D := writeDst (writeDst R b.port.dstE b.e) b.port.dstM b.m

/-- Writeback: the commit, the retirement count and the system call (R103 to R105). -/
def writeback (C : Config D) (s : State D) : Run D Unit :=
  let s := s.setRegs (commit s.mw s.regs)
  if retires s.mw then
    let s := s.setCounters s.counters.countInsn
    if callsSys s.mw then
      match C.sys s.regs s.mem s.mw.inst with
      | .exit code => halt code s
      | .cont R m => .ok () ((s.setRegs R).setMem m)
    else .ok () s
  else .ok () s

/-- What Memory copies from EM to MW; `M` is written last (R106). -/
def copyToMw (b : EM D) (m : D.Word) : MW D := ⟨b.inst, b.pc, b.op, b.fu, b.flags, b.port, b.e, m⟩

def MW.setM (b : MW D) (m : D.Word) : MW D := { b with m := m }

/-- Memory (R106). -/
def memory (C : Config D) (s : State D) : Run D Unit :=
  let s := s.setMw (copyToMw s.em s.mw.m)
  if s.em.flags.store then
    (dWrite C (D.effAddr s.em.e) s.em.a s).bind fun _ s => .ok () (s.setMw (s.mw.setM 0))
  else if s.em.flags.load then
    (dRead C (D.effAddr s.em.e) s).bind fun v s => .ok () (s.setMw (s.mw.setM v))
  else .ok () (s.setMw (s.mw.setM 0))

/-- `E` of the entry in ID/EX: the table's `effect` (R107). -/
def executedE (C : Config D) (b : DE D) : D.Word := C.effect b.op b.inst b.pc b.a b.b

/-- What Execute writes to EX/MEM for the entry in ID/EX (R107, R108). -/
def executed (C : Config D) (b : DE D) : EM D :=
  ⟨b.inst, b.pc, b.op, b.fu, b.flags, b.port, b.a, executedE C b, executedTaken b.op⟩

/-- Execute (R107); it raises nothing. -/
def execute (C : Config D) (s : State D) : State D := s.setEm (executed C s.de)

/-- What Decode copies from IF/ID and the opcode's record to ID/EX; `A` and `B` are written after it (R113). -/
def copyToDe (b : FD D) (e : Entry D) (a0 b0 : D.Word) : DE D := ⟨b.inst, b.pc, e.op, e.fu, e.flags, e.port, a0, b0⟩

def DE.setA (b : DE D) (a : D.Word) : DE D := { b with a := a }
def DE.setB (b : DE D) (v : D.Word) : DE D := { b with b := v }

/-- Filling DE (R113): operand A, then operand B. -/
def fillDe (C : Config D) (e : Entry D) (s : State D) : Run D Unit :=
  (resolve C e.port.srcA (s.setDe (copyToDe s.fd e s.de.a s.de.b))).bind fun a s =>
  (resolve C e.port.srcB (s.setDe (s.de.setA a))).bind fun b s =>
  .ok () (s.setDe (s.de.setB b))

def FD.setNpc (b : FD D) (a : D.Addr) : FD D := { b with npc := a }

/-- Jump resolution (R114). -/
def resolveJump (C : Config D) (s : State D) : State D :=
  let t := jumpTarget C s.fd.pc (C.targ s.fd.inst)
  (s.setNpc t).setFd (s.fd.setNpc t)

/-- Decode, given what the table answers for `FD.inst` (R110 to R114). -/
def decode (C : Config D) (l : Lookup D) (s : State D) : Run D Unit :=
  if squashed s then .ok () (s.setDe (DE.bubble C s.fd.pc))
  else
    match l with
    | .absent => raise (.unknownOpcode s.fd.pc s.fd.inst s.counters.cycleCount) s
    | .link => raise (.unsupportedFeature s.fd.pc s.fd.inst s.counters.cycleCount) s
    | .op e =>
      (fillDe C e s).bind fun _ s => .ok () (if e.op = .jump then resolveJump C s else s)

/-- Fetch (R118). -/
def fetch (C : Config D) (s : State D) : Run D Unit :=
  (iFetch C s.npc (s.setPc s.npc)).bind fun i s =>
  .ok () ((s.setNpc (s.pc + C.iStep)).setFd ⟨i, s.pc, s.pc + C.iStep⟩)

/-- The first three stages of a cycle, which do not look at the instruction in IF/ID (R100). -/
def beforeDecode (C : Config D) (s : State D) : Run D Unit :=
  (writeback C (beginCycle s)).bind fun _ s =>
  (memory C s).bind fun _ s =>
  .ok () (execute C s)

/-- One cycle in which the table answers `l` for the instruction in IF/ID (R100). -/
def cycle (C : Config D) (l : Lookup D) (s : State D) : Run D Unit :=
  (beforeDecode C s).bind fun _ s =>
  (decode C l s).bind fun _ s =>
  fetch C s

/-- A cycle as a step: it is taken while the status is `Running`, and from no other status (R100; 10_state.md R30). -/
def cycleStep (C : Config D) (l : Lookup D) (s : State D) : Host.Outcome (State D) (Fault D) Refusal :=
  match s.status with
  | .running => (cycle C l s).outcome
  | .halted code => .fault (.halted code)
  | .faulted error => .fault (.faulted error)

/-- The step of the core on an admitted opcode table and its collaborator (30_encoding.md R72). On any other there is no
step: a model should refuse it (R75), and this one does, since no proof of `C.Admitted` can be given. -/
def stepWith (C : Config D) (_ : C.Admitted) (s : State D) : Host.Outcome (State D) (Fault D) Refusal :=
  cycleStep C (C.lookup s.fd.inst) s

end Sys2Proof.Machine

namespace Sys2Proof

/-- The step of the machine of a configuration record. -/
def Parameters.step (P : Parameters) (h : P.config.Admitted) (s : Machine.State P.sizes) :
    Host.Outcome (Machine.State P.sizes) (Machine.Fault P.sizes) Machine.Refusal := Machine.stepWith P.config h s

end Sys2Proof
end

