-- ==== Sys2Proof/Machine/Cycle.lean ====
section
/-! DEFINITION. A cycle of T0 with a given instruction in IF/ID: what every meaning is (log entry 7). -/

namespace Sys2Proof.Machine

/-- The state with a word in the IF/ID buffer. -/
def State.inDecode (s : State) (w : Word) : State := s.setFd { s.fd with inst := w }

/-- The cycle in which the word `w`, for which the table answers `l`, is in IF/ID: the shared body of every meaning
(log entry 7). -/
def decodeCycle (l : Lookup .t0) (w : Word) (s : State) : Host.Outcome State Fault Refusal :=
  cycleStep t0 l (s.inDecode w)

/-- The cycle with a word in IF/ID that is no instruction (43_opcode_classes.md R177). -/
def execAbsent (s : State) : Host.Outcome State Fault Refusal := cycleStep t0 .absent s

/-- The instruction in IF/ID, which a step runs; `none` is `ABSENT` (40_pipeline_engine.md R112). -/
def State.instr (s : State) : Option Instr := decodeWord s.fd.inst

end Sys2Proof.Machine
end

