-- ==== Sys2Proof/Machine/Alu.lean ====
section
/-! DEFINITION. Class ALU (43_opcode_classes.md R172): in the cycle of the meaning the instruction is in Decode, its
operands are resolved and its record enters ID/EX; the `effect` of its opcode (Machine/T0.lean) is applied by Execute of
the next cycle, and Writeback commits `R[dstE] <- E` three cycles on (Machine/Stages.lean). -/

namespace Sys2Proof.Machine

/-- 44_fixture_t0.md R192. -/
def execAdd (rd rs rt : Reg) (s : State) : Host.Outcome State Fault Refusal :=
  decodeCycle (.op (rowAdd rd rs rt)) (encode (.add rd rs rt)) s

/-- R193. -/
def execSub (rd rs rt : Reg) (s : State) : Host.Outcome State Fault Refusal :=
  decodeCycle (.op (rowSub rd rs rt)) (encode (.sub rd rs rt)) s

/-- R194. -/
def execAnd (rd rs rt : Reg) (s : State) : Host.Outcome State Fault Refusal :=
  decodeCycle (.op (rowAnd rd rs rt)) (encode (.and rd rs rt)) s

/-- R195. -/
def execOr (rd rs rt : Reg) (s : State) : Host.Outcome State Fault Refusal :=
  decodeCycle (.op (rowOr rd rs rt)) (encode (.or rd rs rt)) s

/-- R196. -/
def execXor (rd rs rt : Reg) (s : State) : Host.Outcome State Fault Refusal :=
  decodeCycle (.op (rowXor rd rs rt)) (encode (.xor rd rs rt)) s

/-- R197. -/
def execSlt (rd rs rt : Reg) (s : State) : Host.Outcome State Fault Refusal :=
  decodeCycle (.op (rowSlt rd rs rt)) (encode (.slt rd rs rt)) s

/-- R198. -/
def execAddi (rt rs : Reg) (imm : BitVec 16) (s : State) : Host.Outcome State Fault Refusal :=
  decodeCycle (.op (rowAddi rt rs)) (encode (.addi rt rs imm)) s

/-- R199. -/
def execOri (rt rs : Reg) (imm : BitVec 16) (s : State) : Host.Outcome State Fault Refusal :=
  decodeCycle (.op (rowOri rt rs)) (encode (.ori rt rs imm)) s

/-- R200. -/
def execLui (rt : Reg) (imm : BitVec 16) (s : State) : Host.Outcome State Fault Refusal :=
  decodeCycle (.op (rowLui rt)) (encode (.lui rt imm)) s

end Sys2Proof.Machine
end

