-- ==== Sys2Proof/Machine/Control.lean ====
section
/-! DEFINITION. Classes NOP, JUMP and LINK (43_opcode_classes.md R170, R171, R176). -/

namespace Sys2Proof.Machine

/-- 44_fixture_t0.md R190. -/
def execNop (s : State) : Host.Outcome State Fault Refusal := decodeCycle (.op rowNop) (encode .nop) s

/-- R191: Decode redirects the fetch of the same cycle to the target. -/
def execJ (targ : BitVec 26) (s : State) : Host.Outcome State Fault Refusal :=
  decodeCycle (.op rowJ) (encode (.j targ)) s

/-- R203: Decode raises UnsupportedFeature. -/
def execLink (ignored : BitVec 26) (s : State) : Host.Outcome State Fault Refusal :=
  decodeCycle .link (encode (.link ignored)) s

end Sys2Proof.Machine
end

