-- ==== Sys2Proof/Machine/LoadStore.lean ====
section
/-! DEFINITION. Classes LOAD and STORE (43_opcode_classes.md R173, R174): Decode resolves the operands in the cycle of the
meaning, Execute of the next cycle computes the effective address, Memory of the one after it does the access through the
cache, and Writeback commits a load's word (Machine/Stages.lean). -/

namespace Sys2Proof.Machine

/-- 44_fixture_t0.md R201. -/
def execLw (rt : Reg) (imm : BitVec 16) (rs : Reg) (s : State) : Host.Outcome State Fault Refusal :=
  decodeCycle (.op (rowLw rt rs)) (encode (.lw rt imm rs)) s

/-- R202. -/
def execSw (rt : Reg) (imm : BitVec 16) (rs : Reg) (s : State) : Host.Outcome State Fault Refusal :=
  decodeCycle (.op (rowSw rt rs)) (encode (.sw rt imm rs)) s

end Sys2Proof.Machine
end

