-- ==== Sys2Proof/Machine/System.lean ====
section
/-! DEFINITION. Class SYSCALL (43_opcode_classes.md R175): in the cycle of the meaning the instruction is in Decode, with no
operand; Writeback calls the collaborator for it three cycles on (Machine/Stages.lean, `writeback`; Machine/T0.lean,
`sysT0`). -/

namespace Sys2Proof.Machine

/-- 44_fixture_t0.md R204. -/
def execSyscall (s : State) : Host.Outcome State Fault Refusal :=
  decodeCycle (.op rowSyscall) (encode .syscall) s

end Sys2Proof.Machine
end

