-- ==== Sys2Proof/Machine/Step.lean ====
section
/-! DEFINITION. One step of the machine is one cycle (40_pipeline_engine.md R100). It runs the instruction in the IF/ID
buffer, which the fetch of the cycle before put there. -/

namespace Sys2Proof.Machine

/-- One cycle: the meaning of the instruction that Decode finds in IF/ID, or the cycle of a word that is none. -/
def step (s : State) : Host.Outcome State Fault Refusal :=
  match s.instr with
  | some i => exec i s
  | none => execAbsent s

/-- The state with an instruction of the opcode table, whose bits are `w`, in the IF/ID buffer, from which the next step
takes the instruction it runs (log entry 8). -/
def State.withFetchWord (s : State) (nbits w : Nat) : State := s.inDecode (tableWord nbits w)

end Sys2Proof.Machine
end

