-- ==== Sys2Proof/Safety.lean ====
section
/-! DEFINITION. What the statements about the machine are said in: when a cycle completes (70_reset_and_hazards.md R254),
the invariants (10_state.md R20, R25), and the sequential meaning of T0 that the pipeline is compared with. -/

namespace Sys2Proof.Machine

/-! ## The opcode map as the spec prints it (30_encoding.md R81) -/

/-- A row of the spec's table: match, mask, decode result (`none` is `LINK`), flags. -/
structure SpecRow where
  pattern : Word
  mask    : Word
  result  : Option Opcode
  flags   : Flags
  deriving DecidableEq, Repr

def specRows : List SpecRow :=
  [ ⟨0x00000000, 0xFFFFFFFF, some .nop, ⟨false, false, false, 0⟩⟩,
    ⟨0x04000000, 0xFC000000, some .jump, ⟨false, false, false, 0⟩⟩,
    ⟨0x20000000, 0xFC0007FF, some .add, ⟨false, false, false, 0⟩⟩,
    ⟨0x24000000, 0xFC0007FF, some .sub, ⟨false, false, false, 0⟩⟩,
    ⟨0x28000000, 0xFC0007FF, some .and, ⟨false, false, false, 0⟩⟩,
    ⟨0x2C000000, 0xFC0007FF, some .or, ⟨false, false, false, 0⟩⟩,
    ⟨0x30000000, 0xFC0007FF, some .xor, ⟨false, false, false, 0⟩⟩,
    ⟨0x34000000, 0xFC0007FF, some .slt, ⟨false, false, false, 0⟩⟩,
    ⟨0x40000000, 0xFC000000, some .addi, ⟨false, false, false, 0⟩⟩,
    ⟨0x44000000, 0xFC000000, some .ori, ⟨false, false, false, 0⟩⟩,
    ⟨0x48000000, 0xFFE00000, some .lui, ⟨false, false, false, 0⟩⟩,
    ⟨0x80000000, 0xFC000000, some .lw, ⟨true, false, false, 0⟩⟩,
    ⟨0xA0000000, 0xFC000000, some .sw, ⟨false, true, false, 0⟩⟩,
    ⟨0xF8000000, 0xFC000000, none, ⟨false, false, false, 0⟩⟩,
    ⟨0xFC000000, 0xFFFFFFFF, some .syscall, ⟨false, false, true, 0⟩⟩ ]

abbrev SpecRow.matches (r : SpecRow) (w : Word) : Prop := w &&& r.mask = r.pattern

/-- The table's answer has the row's decode result and flags. -/
def SpecRow.answers (r : SpecRow) (l : Lookup .t0) : Prop :=
  match r.result with
  | some o => ∃ e, l = .op e ∧ e.op = o ∧ e.flags = r.flags
  | none => l = .link

/-! ## When a cycle completes -/

section
variable {D : Sizes}

/-- The words of the line of a word address are mapped (R254, R268). -/
abbrev lineMapped (s : State D) (wa : D.WordAddr) : Prop := ∀ k, s.mapped (D.lineWord (D.lineBase wa) k) = true

/-- The words of every valid line are mapped, so that an eviction cannot fault (R254). -/
abbrev cacheMapped (s : State D) : Prop :=
  ∀ i w, (s.line i w).valid = true → ∀ k, s.mapped (D.lineWord (D.baseOf (s.line i w).tag i) k) = true

/-- A data access at the address faults neither on alignment nor on its line. -/
abbrev canAccess (s : State D) (ea : D.Addr) : Prop := D.aligned ea = true ∧ lineMapped s (D.wordAddr ea)

/-- The registers after the re-stamp and the commit of the entry in MEM/WB (40_pipeline_engine.md R100, R104). -/
def committedRegs (s : State D) : RegFile D := commit s.mw (writeReg s.regs D.r0 0)

/-- The value of a source field by the priority of 41_forwarding.md R140, read off the state after the cycle, whose `em` and
`mw` are EM' and MW'; the word an eager read returns is the architectural memory's. -/
def operandIn (t : State D) (src : Option D.Reg) : D.Word :=
  match src with
  | none => 0
  | some r =>
    if t.em.port.dstE = some r then t.em.e
    else if t.em.port.dstM = some r then t.archMem (D.wordAddr (D.effAddr t.em.e))
    else if t.mw.port.dstE = some r then t.mw.e
    else if t.mw.port.dstM = some r then t.mw.m
    else readReg t.regs r

/-- The resolver takes case 2, the eager read, for the source field (41_forwarding.md R142): the entry in ID/EX, which
Execute passes on in this cycle, is a load of that register. -/
abbrev eagerRead (s : State D) (src : Option D.Reg) : Prop :=
  src ≠ none ∧ s.de.port.dstE ≠ src ∧ s.de.port.dstM = src

/-- The status is not one that a MemoryFault left. -/
abbrev noMemoryFault (s : State D) : Prop := ∀ a c, s.status ≠ .faulted (.memoryFault a c)

end

/-- A fetch of T0 at the address does not fault (20_memory.md R43, with `ISTEP` = 4 and `ILEN` = `W`). -/
abbrev canFetch (s : State) (a : Word) : Prop := a.toNat % 4 = 0 ∧ s.mapped (Sizes.t0.wordAddr a) = true

/-- Writeback halts the machine: the entry in MEM/WB calls `Sys_T0`, which exits (44_fixture_t0.md R205). -/
def exits (s : State) : Bool := callsSys s.mw && readReg (committedRegs s) 2 == 1

/-- The stages before Decode complete: the machine runs, Writeback does not exit, the access of the entry in EX/MEM, if it
has one, does not fault. -/
abbrev readyToDecode (s : State) : Prop :=
  s.status = .running ∧ exits s = false ∧ cacheMapped s ∧
    (s.em.flags.load = true ∨ s.em.flags.store = true → canAccess s s.em.e)

/-- If the source field needs an eager read, it does not fault. -/
abbrev operandReady (s : State) (src : Option Sizes.t0.Reg) : Prop :=
  eagerRead s src → canAccess s (executedE t0 s.de)

/-- The Port of an instruction (30_encoding.md R83). -/
def portOf (i : Instr) : Port .t0 :=
  match lookupInstr i with
  | .op e => e.port
  | .link => Port.allNone
  | .absent => Port.allNone

/-- The address Fetch reads in the cycle in which the instruction is in Decode (40_pipeline_engine.md R114, R118). -/
def fetchAddr (i : Instr) (s : State) : Word :=
  match i with
  | .j targ => jumpTarget t0 s.fd.pc targ
  | _ => s.npc

/-- The cycle with the instruction in Decode completes with no error and no halt (R254). -/
abbrev canComplete (i : Instr) (s : State) : Prop :=
  readyToDecode s ∧ operandReady s (portOf i).srcA ∧ operandReady s (portOf i).srcB ∧ canFetch s (fetchAddr i s)

/-- The cycle completes with the instruction's record and operands in ID/EX, and the value that Execute will compute from
them is `value` of the two operands (40_pipeline_engine.md R113, R107). -/
def completesWith (i : Instr) (e : Entry .t0) (value : Word → Word → Word) (s : State) : Prop :=
  ∃ t, exec i s = .next t ∧ t.status = .running ∧
    t.de = ⟨encode i, s.fd.pc, e.op, e.fu, e.flags, e.port, operandIn t e.port.srcA, operandIn t e.port.srcB⟩ ∧
    executedE t0 t.de = value (operandIn t e.port.srcA) (operandIn t e.port.srcB)

/-- The register an instruction writes, if any (30_encoding.md R83). -/
def destOf (i : Instr) : Option Sizes.t0.Reg :=
  match (portOf i).dstE with
  | some r => some r
  | none => (portOf i).dstM

/-! ## Invariants -/

section
variable {D : Sizes}

def DE.entry (b : DE D) : Entry D := ⟨b.op, b.fu, b.flags, b.port⟩
def EM.entry (b : EM D) : Entry D := ⟨b.op, b.fu, b.flags, b.port⟩
def MW.entry (b : MW D) : Entry D := ⟨b.op, b.fu, b.flags, b.port⟩

/-- Register 0 is zero, every buffer holds an admitted record, a no-op carries no value, the branch-taken flag is clear
(10_state.md R11, R20, R22; 30_encoding.md R75). -/
structure PipelineInv (s : State D) : Prop where
  reg0    : readReg s.regs D.r0 = 0
  de      : s.de.entry.admitted = true
  em      : s.em.entry.admitted = true
  mw      : s.mw.entry.admitted = true
  emNop   : s.em.op = .nop → s.em.e = 0
  mwNop   : s.mw.op = .nop → s.mw.e = 0 ∧ s.mw.m = 0
  taken   : s.em.taken = false

/-- 10_state.md R25 (a) and (c): in one set no two valid lines have the same tag, and a line that is not valid is not dirty. -/
structure LinesInv (s : State D) : Prop where
  unique : ∀ i w w', (s.line i w).valid = true → (s.line i w').valid = true →
    (s.line i w).tag = (s.line i w').tag → w = w'
  clean  : ∀ i w, (s.line i w).valid = false → (s.line i w).dirty = false

/-- 10_state.md R25 (d): a valid line that is not dirty agrees with the backing store. -/
def CoherentInv (s : State D) : Prop :=
  ∀ i w, (s.line i w).valid = true → (s.line i w).dirty = false →
    ∀ k : D.Off, (s.line i w).data[k] = memWord s.mem (D.lineWord (D.baseOf (s.line i w).tag i) k)

/-- The backing store is in canonical form and the cache invariants of R25 hold. -/
structure MemoryInv (s : State D) : Prop where
  wf       : Memory.wf D s.mem = true
  lines    : LinesInv s
  coherent : CoherentInv s

/-- Every address the machine fetches from is a multiple of `ISTEP` (10_state.md R14). -/
structure PcInv (C : Config D) (s : State D) : Prop where
  pc  : s.pc.toNat % C.iStep.toNat = 0
  npc : s.npc.toNat % C.iStep.toNat = 0
  fd  : s.fd.pc.toNat % C.iStep.toNat = 0

end

/-! ## The sequential meaning of T0 -/

/-- Registers and memory as a program sees them. -/
structure Arch where
  regs : RegFile .t0
  mem  : Sizes.t0.WordAddr → Word

/-- A write of a destination register of T0: register 0 discards (30_encoding.md R83). -/
def Arch.put (A : Arch) (r : Sizes.t0.Reg) (v : Word) : Arch :=
  { A with regs := if r = 0 then A.regs else writeReg A.regs r v }

def Arch.get (A : Arch) (r : Sizes.t0.Reg) : Word := readReg A.regs r

/-- The value of a register field, and the write of a destination field. -/
def Arch.read (A : Arch) (r : Reg) : Word := A.get (index r)
def Arch.write (A : Arch) (r : Reg) (v : Word) : Arch := A.put (index r) v

/-- One instruction executed alone on registers and memory (44_fixture_t0.md R190 to R204). A system call has no register
operand (30_encoding.md WF9): what the collaborator does comes at its Writeback. -/
def Arch.run (A : Arch) : Instr → Arch
  | .nop => A
  | .j _ => A
  | .add rd rs rt => A.write rd (A.read rs + A.read rt)
  | .sub rd rs rt => A.write rd (A.read rs - A.read rt)
  | .and rd rs rt => A.write rd (A.read rs &&& A.read rt)
  | .or rd rs rt => A.write rd (A.read rs ||| A.read rt)
  | .xor rd rs rt => A.write rd (A.read rs ^^^ A.read rt)
  | .slt rd rs rt => A.write rd (if (A.read rs).toInt < (A.read rt).toInt then 1 else 0)
  | .addi rt rs imm => A.write rt (A.read rs + imm.signExtend 32)
  | .ori rt rs imm => A.write rt (A.read rs ||| imm.zeroExtend 32)
  | .lui rt imm => A.write rt (imm ++ 0#16)
  | .lw rt imm rs => A.write rt (A.mem (Sizes.t0.wordAddr (A.read rs + imm.signExtend 32)))
  | .sw rt imm rs =>
    { A with
      mem := fun wa => if wa = Sizes.t0.wordAddr (A.read rs + imm.signExtend 32) then A.read rt else A.mem wa }
  | .link _ => A
  | .syscall => A

/-- The registers after the Writeback of a running cycle: the commit, and `R[2] <- 0` if `Sys_T0` continues (44_fixture_t0.md
R205). -/
def writtenBack (s : State) : RegFile .t0 :=
  if callsSys s.mw then writeReg (committedRegs s) 2 0 else committedRegs s

/-- Registers and memory after the entry in EX/MEM has finished on top of `A`. -/
def EM.finish (b : EM) (A : Arch) : Arch where
  regs := writeDst (writeDst A.regs b.port.dstE b.e) b.port.dstM (A.mem (Sizes.t0.wordAddr b.e))
  mem  := fun wa => if b.flags.store = true ∧ wa = Sizes.t0.wordAddr b.e then b.a else A.mem wa

/-- Registers and memory when the instructions in MEM/WB, EX/MEM and ID/EX have finished, which are all that stand before
the one in IF/ID in program order. -/
def pending (s : State) : Arch :=
  (executed t0 s.de).finish (s.em.finish ⟨writtenBack s, s.archMem⟩)

/-! ## Time -/

section
variable {D : Sizes}

/-- A diagnostic without the cycle number it records. -/
def FatalError.forgetCycle : FatalError D → FatalError D
  | .memoryFault addr _ => .memoryFault addr 0
  | .unknownOpcode pc inst _ => .unknownOpcode pc inst 0
  | .unsupportedFeature pc inst _ => .unsupportedFeature pc inst 0

def Status.forgetCycle : Status D → Status D
  | .running => .running
  | .halted code => .halted code
  | .faulted e => .faulted e.forgetCycle

/-- The state without its counters and its diagnostic's cycle number: what a program can depend on (70_reset_and_hazards.md
R270). -/
def State.forgetTime (s : State D) : State D :=
  { s with counters := Counters.zero, status := s.status.forgetCycle }

end

end Sys2Proof.Machine
end

