-- ==== Sys2Proof/Certificates/Slice0/Obligations.lean ====
section
/-! DEFINITION. The statements for the provers. Unless it says otherwise a statement is about every state, reached or not,
and about every instruction, since what a cycle does in Writeback, Memory and Execute does not depend on the instruction in
Decode. -/

open Sys2Proof Sys2Proof.Machine

/-! ## Encoding -/

/-- Encoding then decoding gives the instruction back, as a word, as bytes with any bytes after them, and as the host numbers
the bits. -/
def Obligations.DecodeEncode : Prop :=
  ∀ (i : Instr) (rest : List Byte),
    decodeWord (encode i) = some i ∧
    decodeBytes (wordBytes (encode i) ++ rest) = .ok (i, rest) ∧
    decodeTableWord 32 (encode i).toNat = some i

/-- Every word, and every head of a list of bytes, that decodes is the encoding of what it decodes to: no encoding but one
for each instruction. -/
def Obligations.EncodeDecode : Prop :=
  (∀ (w : Word) (i : Instr), decodeWord w = some i → encode i = w) ∧
  (∀ (bytes rest : List Byte) (i : Instr), decodeBytes bytes = .ok (i, rest) → bytes = wordBytes (encode i) ++ rest)

/-- 30_encoding.md R81: the first row that matches gives the answer, a word that matches none is ABSENT, and no two rows
match one word. -/
def Obligations.OpcodeMap : Prop :=
  (∀ (w : Word) (r : SpecRow), r ∈ specRows → r.matches w → r.answers (t0Lookup w)) ∧
  (∀ w : Word, (∀ r ∈ specRows, ¬ r.matches w) → t0Lookup w = .absent) ∧
  specRows.Pairwise (fun r r' => ∀ w, ¬ (r.matches w ∧ r'.matches w))

/-- 30_encoding.md R82. -/
def Obligations.ReservedEncodings : Prop :=
  ∀ w : Word, t0Lookup w = .absent ↔
    (let op := (w.extractLsb' 26 6).toNat
     (0x02 ≤ op ∧ op ≤ 0x07) ∨ op = 0x0E ∨ op = 0x0F ∨ (0x13 ≤ op ∧ op ≤ 0x1F) ∨ (0x21 ≤ op ∧ op ≤ 0x27) ∨
     (0x29 ≤ op ∧ op ≤ 0x3D) ∨
     (op = 0x00 ∧ w.extractLsb' 0 26 ≠ 0) ∨
     (0x08 ≤ op ∧ op ≤ 0x0D ∧ w.extractLsb' 0 11 ≠ 0) ∨
     (op = 0x12 ∧ w.extractLsb' 21 5 ≠ 0) ∨
     (op = 0x3F ∧ w.extractLsb' 0 26 ≠ 0))

/-- Words of 95_test_vectors.md and 44_fixture_t0.md and the instructions they stand for. -/
def Obligations.SampleWords : Prop :=
  decodeWord 0x00000000 = some .nop ∧
  decodeWord 0x04100004 = some (.j 0x0100004) ∧
  decodeWord 0x20A53000 = some (.add 6 5 5) ∧
  decodeWord 0x24C53800 = some (.sub 7 6 5) ∧
  decodeWord 0x34A64000 = some (.slt 8 5 6) ∧
  decodeWord 0x4005FFFF = some (.addi 5 0 0xFFFF) ∧
  decodeWord 0x4421FFFF = some (.ori 1 1 0xFFFF) ∧
  decodeWord 0x48011000 = some (.lui 1 0x1000) ∧
  decodeWord 0x80230000 = some (.lw 3 0 1) ∧
  decodeWord 0xA0240004 = some (.sw 4 4 1) ∧
  decodeWord 0xF8000000 = some (.link 0) ∧
  decodeWord 0xFC000000 = some .syscall

/-- The Ports of T0: no destination is register 0, a source field 0 stays register 0. -/
def Obligations.Ports : Prop :=
  ∀ (rd rs rt : Reg) (imm : BitVec 16) (targ : BitVec 26),
    let nz : Reg → Option Sizes.t0.Reg := fun r => if r = 0 then none else some (index r)
    (∀ i ∈ [Instr.add rd rs rt, .sub rd rs rt, .and rd rs rt, .or rd rs rt, .xor rd rs rt, .slt rd rs rt],
      portOf i = ⟨some (index rs), some (index rt), none, nz rd, none⟩) ∧
    (∀ i ∈ [Instr.addi rt rs imm, .ori rt rs imm], portOf i = ⟨some (index rs), none, none, nz rt, none⟩) ∧
    portOf (.lui rt imm) = ⟨none, none, none, nz rt, none⟩ ∧
    portOf (.lw rt imm rs) = ⟨none, some (index rs), none, none, nz rt⟩ ∧
    portOf (.sw rt imm rs) = ⟨some (index rt), some (index rs), none, none, none⟩ ∧
    (∀ i ∈ [Instr.nop, .j targ, .syscall], portOf i = ⟨none, none, none, none, none⟩)

/-- The assembler's ranges: a label in range is where its jump goes, and an immediate in range is the one the instruction
uses. -/
def Obligations.AssemblerOperands : Prop :=
  (∀ pc label : Word, (Asm.j label).wellFormed pc = true →
    ∃ targ, assemble pc (.j label) = some (.j targ) ∧ jumpTarget t0 pc targ = label) ∧
  (∀ (pc : Word) (rt rs : Nat) (imm : Int), (Asm.addi rt rs imm).wellFormed pc = true →
    ∃ v, assemble pc (.addi rt rs imm) = some (.addi (BitVec.ofNat 5 rt) (BitVec.ofNat 5 rs) v) ∧
      (sextImm v).toInt = imm) ∧
  (∀ (pc : Word) (rt rs : Nat) (imm : Int), (Asm.ori rt rs imm).wellFormed pc = true →
    ∃ v, assemble pc (.ori rt rs imm) = some (.ori (BitVec.ofNat 5 rt) (BitVec.ofNat 5 rs) v) ∧
      ((zextImm v).toNat : Int) = imm) ∧
  (∀ (pc : Word) (rt : Nat) (imm : Int), (Asm.lui rt imm).wellFormed pc = true →
    ∃ v, assemble pc (.lui rt imm) = some (.lui (BitVec.ofNat 5 rt) v) ∧
      ((upperImm v).toNat : Int) = imm * 65536) ∧
  (∀ (pc : Word) (rt rs : Nat) (imm : Int), (Asm.lw rt imm rs).wellFormed pc = true →
    ∃ v, assemble pc (.lw rt imm rs) = some (.lw (BitVec.ofNat 5 rt) v (BitVec.ofNat 5 rs)) ∧
      assemble pc (.sw rt imm rs) = some (.sw (BitVec.ofNat 5 rt) v (BitVec.ofNat 5 rs)) ∧
      (sextImm v).toInt = imm)

/-- A jump reaches exactly the word-aligned addresses that have its own address's top four bits. -/
def Obligations.JumpReach : Prop :=
  ∀ pc a : Word, (∃ targ, jumpTarget t0 pc targ = a) ↔
    (a.extractLsb' 28 4 = pc.extractLsb' 28 4 ∧ a.toNat % 4 = 0)

/-- T0 with its collaborator is an admitted opcode table. -/
def Obligations.TableAdmitted : Prop := t0.Admitted

/-! ## Reset -/

/-- The state after reset of a machine of any sizes with any configuration, on any platform; and that the machine of the
model is T0's on the default one. -/
def Obligations.ResetValues : Prop :=
  (∀ (D : Sizes) (C : Config D) (p : Platform D),
    let s := State.resetWith C p
    s.pc = p.entry ∧ s.npc = p.entry ∧ s.fd = ⟨C.nopInst, p.entry, p.entry⟩ ∧
    s.de = ⟨C.nopInst, p.entry, .nop, C.nopFu, Flags.clear, Port.allNone, 0, 0⟩ ∧
    s.em = ⟨C.nopInst, p.entry, .nop, C.nopFu, Flags.clear, Port.allNone, 0, 0, false⟩ ∧
    s.mw = ⟨C.nopInst, p.entry, .nop, C.nopFu, Flags.clear, Port.allNone, 0, 0⟩ ∧
    (∀ i w, s.line i w = ⟨Vector.replicate D.lineWords 0, 0, false, false⟩ ∧ (s.cursor i).val = 0) ∧
    s.counters = ⟨0, 0, 0, 0, 0, 0, 0⟩ ∧
    readReg s.regs D.r0 = 0 ∧ (∀ r, r ≠ D.r0 → readReg s.regs r = readReg p.initRegs r) ∧
    s.mem = p.initMem ∧ s.unmapped = p.unmapped ∧ s.status = .running) ∧
  State.reset = State.resetWith t0 Platform.default ∧ t0.nopInst = 0 ∧ t0.nopFu = .none

/-- The invariants hold after reset of any machine on any platform whose memory is canonical and whose entry is a multiple
of `ISTEP`; `State.reset` is such a one. -/
def Obligations.ResetInvariants : Prop :=
  (∀ (D : Sizes) (C : Config D) (p : Platform D),
    PipelineInv (State.resetWith C p) ∧
    (Memory.wf D p.initMem = true → MemoryInv (State.resetWith C p)) ∧
    (p.entry.toNat % C.iStep.toNat = 0 → PcInv C (State.resetWith C p))) ∧
  PipelineInv State.reset ∧ MemoryInv State.reset ∧ PcInv t0 State.reset

/-- The first cycle, of any admitted machine, fetches the instruction at `ENTRY` and changes nothing else but the cycle
count; and so for the step of T0. -/
def Obligations.FirstCycle : Prop :=
  (∀ (D : Sizes) (C : Config D) (h : C.Admitted) (p : Platform D), p.entry.toNat % C.iStep.toNat = 0 →
    (State.resetWith C p).instMapped (D.wordAddr p.entry) = true →
    stepWith C h (State.resetWith C p) = .next { State.resetWith C p with
      npc := p.entry + C.iStep
      fd := ⟨memInst p.initMem (D.wordAddr p.entry), p.entry, p.entry + C.iStep⟩
      counters := ⟨1, 0, 0, 0, 0, 0, 0⟩ }) ∧
  (∀ p : Platform .t0, p.entry.toNat % 4 = 0 →
    (State.resetWith t0 p).mapped (Sizes.t0.wordAddr p.entry) = true →
    step (State.resetWith t0 p) = .next { State.resetWith t0 p with
      npc := p.entry + 4
      fd := ⟨memWord p.initMem (Sizes.t0.wordAddr p.entry), p.entry, p.entry + 4⟩
      counters := ⟨1, 0, 0, 0, 0, 0, 0⟩ })

/-! ## The step -/

/-- No cycle is taken from a machine that has stopped. -/
def Obligations.StoppedTakesNoCycle : Prop :=
  ∀ (s : State) (i : Instr),
    (∀ code, s.status = .halted code → step s = .fault (.halted code) ∧ exec i s = .fault (.halted code)) ∧
    (∀ e, s.status = .faulted e → step s = .fault (.faulted e) ∧ exec i s = .fault (.faulted e))

/-- A step runs the instruction that the bytes in IF/ID decode to. -/
def Obligations.StepRunsDecoded : Prop :=
  (∀ (s : State) (i : Instr), decodeBytes (wordBytes s.fd.inst) = .ok (i, []) → step s = exec i s) ∧
  (∀ (s : State) (i : Instr), step (s.withFetchWord 32 (encode i).toNat) = exec i s)

/-- T0 is admitted, so it has a step of the engine, and the machine's step is that one: the cycle on the opcode table T0, the
instruction in IF/ID looked up as a word. -/
def Obligations.StepIsEngine : Prop := ∃ h : t0.Admitted, ∀ s : State, step s = stepWith t0 h s

/-- Every cycle adds 1 to the cycle count and 9 for each miss, a miss is one memory access, a write-back is part of a
replacement, a replacement of a miss, and a cycle makes at most three data accesses. -/
def Obligations.CycleAccounting : Prop :=
  ∀ (i : Instr) (s t : State), exec i s = .next t →
    t.counters.cycleCount + 9 * s.counters.cacheMissCount =
      s.counters.cycleCount + 1 + 9 * t.counters.cacheMissCount ∧
    t.counters.memAccessCount + s.counters.cacheMissCount =
      s.counters.memAccessCount + t.counters.cacheMissCount ∧
    s.counters.cacheWbCount ≤ t.counters.cacheWbCount ∧
    t.counters.cacheWbCount + s.counters.cacheReplaceCount ≤
      s.counters.cacheWbCount + t.counters.cacheReplaceCount ∧
    t.counters.cacheReplaceCount + s.counters.cacheMissCount ≤
      s.counters.cacheReplaceCount + t.counters.cacheMissCount ∧
    s.counters.cacheHitCount ≤ t.counters.cacheHitCount ∧
    t.counters.cacheHitCount + t.counters.cacheMissCount ≤
      s.counters.cacheHitCount + s.counters.cacheMissCount + 3

/-- What time it is changes nothing but the counters and a diagnostic's cycle number. -/
def Obligations.TimeIsNotObserved : Prop :=
  ∀ s s' : State, s.status = .running → s.forgetTime = s'.forgetTime →
    ∃ t t', step s = .next t ∧ step s' = .next t' ∧ t.forgetTime = t'.forgetTime

/-! ## Writeback -/

/-- 40_pipeline_engine.md R105 on any admitted table and collaborator; the commit of R104 comes first. A cycle that Writeback stops
runs no other stage. -/
def Obligations.WritebackOnAnyTable : Prop :=
  ∀ (D : Sizes) (C : Config D) (s : State D), C.Admitted →
    let R := commit s.mw s.regs
    (s.mw.op = .nop → writeback C s = .ok () { s with regs := R }) ∧
    (s.mw.op ≠ .nop → s.mw.flags.syscall = false →
      writeback C s = .ok () { s with regs := R, counters := s.counters.countInsn }) ∧
    (∀ code, s.mw.op ≠ .nop → s.mw.flags.syscall = true → C.sys R s.mem s.mw.inst = .exit code →
      writeback C s =
        .stop { s with regs := R, counters := s.counters.countInsn, status := .halted code }) ∧
    (∀ R2 m2, s.mw.op ≠ .nop → s.mw.flags.syscall = true → C.sys R s.mem s.mw.inst = .cont R2 m2 →
      writeback C s = .ok () { s with regs := R2, mem := m2, counters := s.counters.countInsn }) ∧
    (∀ l t, writeback C (beginCycle s) = .stop t → cycle C l s = .stop t)

/-- The register frame of every instruction: whichever instruction is in Decode and however the cycle ends, a register
changes only by the commit of the entry in MEM/WB, the re-stamp of register 0 and `R[2] <- 0` of a system call that goes on.
That E goes to `dstE` and M to `dstM` is an inference the spec marks as its own ("follows from forwarding cases 3 and 4"); the
collaborator is the model's choice (log entry 12). -/
def Obligations.RegisterFrame : Prop :=
  ∀ (i : Instr) (s t : State), exec i s = .next t →
    t.unmapped = s.unmapped ∧
    t.counters.insnCount = s.counters.insnCount + (if s.mw.op = .nop then 0 else 1) ∧
    ∀ r, readReg t.regs r =
      if callsSys s.mw = true ∧ exits s = false ∧ r = 2 then 0
      else if s.mw.port.dstM = some r then s.mw.m
      else if s.mw.port.dstE = some r then s.mw.e
      else if r = 0 then 0
      else readReg s.regs r

/-- 60_exceptions.md R232 with T0's collaborator: a cycle halts exactly when Writeback exits; then nothing after it runs,
whatever the later stages would have done, and no cycle is taken from there. -/
def Obligations.ExitHalts : Prop :=
  ∀ (i : Instr) (s : State), s.status = .running →
    (exits s = true →
      exec i s = .next ({ s.inDecode (encode i) with
        regs := committedRegs s, counters := s.counters.tick.countInsn,
        status := .halted (readReg (committedRegs s) 4) }) ∧
      ∀ t, exec i s = .next t → step t = .fault (.halted (readReg (committedRegs s) 4))) ∧
    (∀ t code, exec i s = .next t → t.status = .halted code → exits s = true)

/-! ## Memory and Execute -/

/-- What Memory writes to MEM/WB (40_pipeline_engine.md R106); a load's word is the architectural memory's. -/
def Obligations.MemoryWritesMw : Prop :=
  ∀ (i : Instr) (s t : State), exec i s = .next t → t.status = .running →
    t.mw = ⟨s.em.inst, s.em.pc, s.em.op, s.em.fu, s.em.flags, s.em.port, s.em.e,
      if s.em.flags.store = true then 0
      else if s.em.flags.load = true then s.archMem (Sizes.t0.wordAddr s.em.e)
      else 0⟩

/-- 40_pipeline_engine.md R108, with the rest of R107: what Execute writes to EX/MEM and that it writes nothing else, on any admitted
table, and that a cycle of T0 that completes leaves it there. -/
def Obligations.ExecuteWritesEm : Prop :=
  (∀ (D : Sizes) (C : Config D) (s : State D), C.Admitted →
    execute C s = { s with em := ⟨s.de.inst, s.de.pc, s.de.op, s.de.fu, s.de.flags, s.de.port, s.de.a,
      C.effect s.de.op s.de.inst s.de.pc s.de.a s.de.b, false⟩ } ∧
    (s.de.op = .nop → (execute C s).em.e = 0)) ∧
  (∀ (i : Instr) (s t : State), exec i s = .next t → t.status = .running →
    t.em = ⟨s.de.inst, s.de.pc, s.de.op, s.de.fu, s.de.flags, s.de.port, s.de.a,
      t0.effect s.de.op s.de.inst s.de.pc s.de.a s.de.b, false⟩ ∧
    (s.de.op = .nop → t.em.e = 0))

/-! ## Every instruction completes -/

/-- ADD, SUB, AND, OR, XOR, SLT complete: both operands are resolved and the result is as the spec gives it. -/
def Obligations.RegisterOperationsComplete : Prop :=
  ∀ (rd rs rt : Reg) (s : State), canComplete (.add rd rs rt) s →
    let port : Port .t0 := ⟨some (index rs), some (index rt), none, if rd = 0 then none else some (index rd), none⟩
    let entry : Opcode → Entry .t0 := fun o => ⟨o, .ialu, Flags.clear, port⟩
    completesWith (.add rd rs rt) (entry .add) (fun a b => a + b) s ∧
    completesWith (.sub rd rs rt) (entry .sub) (fun a b => a - b) s ∧
    completesWith (.and rd rs rt) (entry .and) (fun a b => a &&& b) s ∧
    completesWith (.or rd rs rt) (entry .or) (fun a b => a ||| b) s ∧
    completesWith (.xor rd rs rt) (entry .xor) (fun a b => a ^^^ b) s ∧
    completesWith (.slt rd rs rt) (entry .slt) (fun a b => if a.toInt < b.toInt then 1 else 0) s

/-- ADDI, ORI, LUI complete. -/
def Obligations.ImmediateOperationsComplete : Prop :=
  ∀ (rt rs : Reg) (imm : BitVec 16) (s : State),
    let dst : Option Sizes.t0.Reg := if rt = 0 then none else some (index rt)
    (canComplete (.addi rt rs imm) s →
      completesWith (.addi rt rs imm) ⟨.addi, .ialu, Flags.clear, ⟨some (index rs), none, none, dst, none⟩⟩
        (fun a _ => a + imm.signExtend 32) s ∧
      completesWith (.ori rt rs imm) ⟨.ori, .ialu, Flags.clear, ⟨some (index rs), none, none, dst, none⟩⟩
        (fun a _ => a ||| imm.zeroExtend 32) s) ∧
    (canComplete (.lui rt imm) s →
      completesWith (.lui rt imm) ⟨.lui, .ialu, Flags.clear, ⟨none, none, none, dst, none⟩⟩
        (fun _ _ => imm ++ 0#16) s)

/-- LW and SW complete their cycle in Decode: base, store data and flags enter ID/EX and the effective address is base plus
sign-extended immediate. The access itself is two cycles on. -/
def Obligations.LoadStoreComplete : Prop :=
  ∀ (rt rs : Reg) (imm : BitVec 16) (s : State),
    (canComplete (.lw rt imm rs) s →
      completesWith (.lw rt imm rs)
        ⟨.lw, .rdport, ⟨true, false, false, 0⟩,
          ⟨none, some (index rs), none, none, if rt = 0 then none else some (index rt)⟩⟩
        (fun _ b => b + imm.signExtend 32) s) ∧
    (canComplete (.sw rt imm rs) s →
      completesWith (.sw rt imm rs)
        ⟨.sw, .wrport, ⟨false, true, false, 0⟩, ⟨some (index rt), some (index rs), none, none, none⟩⟩
        (fun _ b => b + imm.signExtend 32) s)

/-- NOP and SYSCALL complete: an entry with no operand and no result, and the flag that makes Writeback call. -/
def Obligations.NopAndSyscallComplete : Prop :=
  ∀ s : State, canComplete .nop s →
    completesWith .nop ⟨.nop, .none, Flags.clear, Port.allNone⟩ (fun _ _ => 0) s ∧
    completesWith .syscall ⟨.syscall, .none, ⟨false, false, true, 0⟩, Port.allNone⟩ (fun _ _ => 0) s

/-- J completes: the same cycle's fetch reads the target, formed from the jump's own address, with no instruction between. -/
def Obligations.JumpCompletes : Prop :=
  ∀ (targ : BitVec 26) (s : State), canComplete (.j targ) s →
    completesWith (.j targ) ⟨.jump, .ialu, Flags.clear, Port.allNone⟩ (fun _ _ => 0) s ∧
    ∃ t, exec (.j targ) s = .next t ∧ t.status = .running ∧
      t.pc = (s.fd.pc &&& 0xF0000000) ||| (targ.zeroExtend 32 <<< 2) ∧ t.npc = t.pc + 4 ∧
      t.fd = ⟨memWord t.mem (Sizes.t0.wordAddr t.pc), t.pc, t.pc + 4⟩

/-- 60_exceptions.md R223: LINK reaching Decode raises UnsupportedFeature, which is its effect, and nothing else raises
it. -/
def Obligations.LinkRaises : Prop :=
  (∀ (x : BitVec 26) (s : State), readyToDecode s →
    ∃ t, exec (.link x) s = .next t ∧
      t.status = .faulted (.unsupportedFeature s.fd.pc (encode (.link x)) t.counters.cycleCount) ∧
      t.de = s.de ∧ t.fd.pc = s.fd.pc ∧ t.pc = s.pc ∧ t.npc = s.npc) ∧
  (∀ (s t : State) pc inst c, step s = .next t → t.status = .faulted (.unsupportedFeature pc inst c) →
    (∃ x, s.instr = some (.link x)) ∧ pc = s.fd.pc ∧ inst = s.fd.inst ∧ c = t.counters.cycleCount)

/-- 60_exceptions.md R222: a word that is no instruction, reaching Decode, raises UnknownOpcode, and nothing else raises
it. -/
def Obligations.AbsentRaises : Prop :=
  (∀ s : State, readyToDecode s → s.instr = none →
    ∃ t, step s = .next t ∧
      t.status = .faulted (.unknownOpcode s.fd.pc s.fd.inst t.counters.cycleCount) ∧
      t.de = s.de ∧ t.fd = s.fd ∧ t.pc = s.pc ∧ t.npc = s.npc) ∧
  (∀ (s t : State) pc inst c, step s = .next t → t.status = .faulted (.unknownOpcode pc inst c) →
    s.instr = none ∧ pc = s.fd.pc ∧ inst = s.fd.inst ∧ c = t.counters.cycleCount)

/-! ## Fetch -/

/-- A cycle that completes has fetched: from `npc`, or from the target if the instruction is a jump, past the cache. -/
def Obligations.FetchAdvances : Prop :=
  ∀ (i : Instr) (s t : State), exec i s = .next t → t.status = .running →
    canFetch s (fetchAddr i s) ∧ t.pc = fetchAddr i s ∧ t.npc = t.pc + 4 ∧
    t.fd = ⟨memWord t.mem (Sizes.t0.wordAddr t.pc), t.pc, t.pc + 4⟩

/-! ## MemoryFault -/

/-- 20_memory.md R45: on a machine of any sizes a misaligned data access of either kind raises MemoryFault with its address
and changes nothing else, hit or miss. -/
def Obligations.MisalignedAccess : Prop :=
  ∀ (D : Sizes) (C : Config D) (ea : D.Addr) (v : D.Word) (s : State D), ea.extractLsb' 0 D.ol ≠ 0 →
    dRead C ea s = .stop { s with status := .faulted (.memoryFault ea s.counters.cycleCount) } ∧
    dWrite C ea v s = .stop { s with status := .faulted (.memoryFault ea s.counters.cycleCount) }

/-- When a data access completes: it is aligned and, unless it hits, the words of its line are mapped. -/
def Obligations.AccessCompletes : Prop :=
  ∀ (D : Sizes) (C : Config D) (ea : D.Addr) (v : D.Word) (s : State D), cacheMapped s →
    ((∃ x t, dRead C ea s = .ok x t) ↔
      D.aligned ea = true ∧ (s.lookup (D.wordAddr ea) = none → lineMapped s (D.wordAddr ea))) ∧
    ((∃ t, dWrite C ea v s = .ok () t) ↔
      D.aligned ea = true ∧ (s.lookup (D.wordAddr ea) = none → lineMapped s (D.wordAddr ea)))

/-- The access of the entry in EX/MEM, misaligned or missing at an unmapped word, stops the cycle in Memory with its own
address, whatever is in Decode; Writeback of the cycle stays done. -/
def Obligations.MemoryStageFaults : Prop :=
  ∀ (i : Instr) (s : State), s.status = .running → exits s = false →
    (s.em.flags.load = true ∨ s.em.flags.store = true) →
    (Sizes.t0.aligned s.em.e = false ∨
      (s.lookup (Sizes.t0.wordAddr s.em.e) = none ∧ s.mapped (Sizes.t0.wordAddr s.em.e) = false)) →
    ∃ t, exec i s = .next t ∧ t.status = .faulted (.memoryFault s.em.e t.counters.cycleCount) ∧
      t.cache = s.cache ∧ t.mem = s.mem ∧ t.regs = writtenBack s ∧
      t.em = s.em ∧ t.de = s.de ∧ t.fd.pc = s.fd.pc ∧ t.pc = s.pc ∧ t.npc = s.npc

/-- An eager read at a misaligned address stops the cycle in Decode with that address, one cycle before the load's own
access. -/
def Obligations.EagerReadFaults : Prop :=
  ∀ (i : Instr) (s : State), readyToDecode s → (eagerRead s (portOf i).srcA ∨ eagerRead s (portOf i).srcB) →
    Sizes.t0.aligned (executedE t0 s.de) = false →
    ∃ t, exec i s = .next t ∧ t.status = .faulted (.memoryFault (executedE t0 s.de) t.counters.cycleCount) ∧
      t.pc = s.pc ∧ t.npc = s.npc

/-- A fetch that cannot be made stops the cycle in Fetch with the address, after everything else of the cycle. -/
def Obligations.FetchFaults : Prop :=
  ∀ (i : Instr) (s : State), (∀ x, i ≠ .link x) → readyToDecode s → operandReady s (portOf i).srcA →
    operandReady s (portOf i).srcB → ¬ canFetch s (fetchAddr i s) →
    ∃ t, exec i s = .next t ∧ t.status = .faulted (.memoryFault (fetchAddr i s) t.counters.cycleCount) ∧
      t.pc = fetchAddr i s ∧ t.npc = fetchAddr i s ∧ t.de.inst = encode i ∧ t.de.pc = s.fd.pc

/-- A machine that stops with a MemoryFault was running, its Writeback did not exit, and the cycle recorded is the count
then. -/
def Obligations.MemoryFaultRecords : Prop :=
  ∀ (s t : State) (a : Word) (c : Nat), step s = .next t → t.status = .faulted (.memoryFault a c) →
    s.status = .running ∧ exits s = false ∧ c = t.counters.cycleCount ∧ t.regs = writtenBack s ∧
    step t = .fault (.faulted (.memoryFault a c))

/-! ## The backing store -/

/-- 20_memory.md R41 and R42, on a machine of any sizes: a read of a mapped word has no effect, a write changes its word and
no other byte, and either at a word that is not mapped raises MemoryFault with `wa << OL`. -/
def Obligations.BackendPorts : Prop :=
  ∀ (D : Sizes) (wa : D.WordAddr) (v : D.Word) (s : State D), Memory.wf D s.mem = true →
    (s.mapped wa = true →
      backendRead wa s = .ok (memWord s.mem wa) s ∧
      ∃ m, backendWrite wa v s = .ok () { s with mem := m } ∧ Memory.wf D m = true ∧ memWord m wa = v ∧
        ∀ b : Nat, (b < D.wordBytes * wa.toNat ∨ D.wordBytes * wa.toNat + D.wordBytes ≤ b) →
          readByte m b = readByte s.mem b) ∧
    (s.mapped wa = false →
      backendRead wa s =
        .stop { s with status := .faulted (.memoryFault (wa.setWidth D.aw <<< D.ol) s.counters.cycleCount) } ∧
      backendWrite wa v s =
        .stop { s with status := .faulted (.memoryFault (wa.setWidth D.aw <<< D.ol) s.counters.cycleCount) })

/-- The fetch port on a machine of any sizes: a fetch at an address that is no multiple of `ISTEP`, or of which a word is
not mapped, raises MemoryFault with the address; any other answers the words from `a >> OL` on, the lowest word address in
the low bits, one word for T0; on an admitted table an address with one of its low `OL` bits set is no multiple of `ISTEP`.
That word addresses of an instruction of several words wrap at the top of memory is the model's reading (log entry 18), and
so is what an admitted table asks of `ISTEP` (log entry 13). -/
def Obligations.InstructionFetch : Prop :=
  (∀ (D : Sizes) (C : Config D) (a : D.Addr) (s : State D),
    ((a.toNat % C.iStep.toNat ≠ 0 ∨ ∃ k < D.instWords, s.mapped (D.wordAddr a + BitVec.ofNat D.waw k) = false) →
      iFetch C a s = .stop { s with status := .faulted (.memoryFault a s.counters.cycleCount) }) ∧
    (a.toNat % C.iStep.toNat = 0 → (∀ k < D.instWords, s.mapped (D.wordAddr a + BitVec.ofNat D.waw k) = true) →
      ∃ inst : D.Inst, iFetch C a s = .ok inst s ∧
        ∀ k < D.instWords, inst.extractLsb' (D.w * k) D.w = memWord s.mem (D.wordAddr a + BitVec.ofNat D.waw k)) ∧
    (C.Admitted → a.extractLsb' 0 D.ol ≠ 0 → a.toNat % C.iStep.toNat ≠ 0)) ∧
  (∀ (a : Word) (s : State), canFetch s a →
    iFetch t0 a s = .ok (memWord s.mem (Sizes.t0.wordAddr a)) s)

/-! ## The cache -/

/-- 20_memory.md R61, on a machine of any sizes: (tag, set) give back the word address with its offset bits cleared, and with
the offset the word address; with T0's sizes the offset bits are two. -/
def Obligations.AddressRoundTrip : Prop :=
  (∀ (D : Sizes) (wa : D.WordAddr),
    (D.baseOf (D.tagOf wa) (D.setOf wa)).toNat = wa.toNat / 2 ^ D.offw * 2 ^ D.offw ∧
    D.baseOf (D.tagOf wa) (D.setOf wa) + BitVec.ofNat D.waw (D.offOf wa).val = wa) ∧
  (∀ wa : Sizes.t0.WordAddr, Sizes.t0.baseOf (Sizes.t0.tagOf wa) (Sizes.t0.setOf wa) = wa &&& ~~~3#30)

/-- 42_cache.md R154. -/
def Obligations.ReadHit : Prop :=
  ∀ (D : Sizes) (C : Config D) (wa : D.WordAddr) (w : D.Way) (s : State D), s.lookup wa = some w →
    readWord C wa s = .ok (s.line (D.setOf wa) w).data[D.offOf wa]
      { s with counters := { s.counters with cacheHitCount := s.counters.cacheHitCount + 1 } }

/-- 42_cache.md R155: a read miss at a word that is not mapped faults after the counts and before the fill, with 9 cycles
for T0; one that completes returns the backing store's word, counts it, and has filled the cursor's line. -/
def Obligations.ReadMiss : Prop :=
  ∀ (D : Sizes) (C : Config D) (wa : D.WordAddr) (s : State D), s.lookup wa = none →
    let victim := s.line (D.setOf wa) (s.cursor (D.setOf wa))
    t0.missPenalty = 9 ∧
    (s.mapped wa = false →
      readWord C wa s = .stop { s with
        counters := { s.counters with
          cacheMissCount := s.counters.cacheMissCount + 1
          memAccessCount := s.counters.memAccessCount + 1
          cycleCount := s.counters.cycleCount + C.missPenalty }
        status := .faulted (.memoryFault (wa.setWidth D.aw <<< D.ol) (s.counters.cycleCount + C.missPenalty)) }) ∧
    ∀ (t : State D) (v : D.Word), readWord C wa s = .ok v t →
      v = memWord s.mem wa ∧
      t.counters.cacheMissCount = s.counters.cacheMissCount + 1 ∧
      t.counters.memAccessCount = s.counters.memAccessCount + 1 ∧
      t.counters.cycleCount = s.counters.cycleCount + C.missPenalty ∧
      t.counters.cacheHitCount = s.counters.cacheHitCount ∧
      t.counters.cacheReplaceCount = s.counters.cacheReplaceCount + (if victim.valid = true then 1 else 0) ∧
      t.counters.cacheWbCount =
        s.counters.cacheWbCount + (if victim.valid = true ∧ victim.dirty = true then 1 else 0) ∧
      (t.cursor (D.setOf wa)).val = ((s.cursor (D.setOf wa)).val + 1) % D.nways ∧
      t.lookup wa = some (s.cursor (D.setOf wa)) ∧
      (let L := t.line (D.setOf wa) (s.cursor (D.setOf wa))
       L.valid = true ∧ L.dirty = false ∧ L.tag = D.tagOf wa ∧ L.data[D.offOf wa] = v ∧
       ∀ k : D.Off, L.data[k] = memWord t.mem (D.lineWord (D.baseOf (D.tagOf wa) (D.setOf wa)) k)) ∧
      (∀ i w, ¬ (i = D.setOf wa ∧ w = s.cursor (D.setOf wa)) → t.line i w = s.line i w) ∧
      (∀ i, i ≠ D.setOf wa → t.cursor i = s.cursor i)

/-- 42_cache.md R157. -/
def Obligations.WriteHit : Prop :=
  ∀ (D : Sizes) (C : Config D) (wa : D.WordAddr) (w : D.Way) (v : D.Word) (s : State D), s.lookup wa = some w →
    ∃ t, writeWord C wa v s = .ok () t ∧
      (t.line (D.setOf wa) w).data[D.offOf wa] = v ∧ (t.line (D.setOf wa) w).dirty = true ∧
      t.counters = { s.counters with cacheHitCount := s.counters.cacheHitCount + 1 } ∧
      t.mem = s.mem ∧
      (t.line (D.setOf wa) w).tag = (s.line (D.setOf wa) w).tag ∧
      (t.line (D.setOf wa) w).valid = (s.line (D.setOf wa) w).valid ∧
      (∀ k, k ≠ D.offOf wa → (t.line (D.setOf wa) w).data[k] = (s.line (D.setOf wa) w).data[k]) ∧
      (∀ j x, ¬ (j = D.setOf wa ∧ x = w) → t.line j x = s.line j x) ∧
      (∀ j, t.cursor j = s.cursor j)

/-- 42_cache.md R158: a write miss at a word that is not mapped faults after the counts and before the fill, with 9 cycles
for T0; one that completes has written the word through, counted, and filled a clean line that holds it. -/
def Obligations.WriteMiss : Prop :=
  ∀ (D : Sizes) (C : Config D) (wa : D.WordAddr) (v : D.Word) (s : State D), s.lookup wa = none →
    t0.missPenalty = 9 ∧
    (s.mapped wa = false →
      writeWord C wa v s = .stop { s with
        counters := { s.counters with
          cacheMissCount := s.counters.cacheMissCount + 1
          memAccessCount := s.counters.memAccessCount + 1
          cycleCount := s.counters.cycleCount + C.missPenalty }
        status := .faulted (.memoryFault (wa.setWidth D.aw <<< D.ol) (s.counters.cycleCount + C.missPenalty)) }) ∧
    ∀ t : State D, Memory.wf D s.mem = true → writeWord C wa v s = .ok () t →
      (let L := t.line (D.setOf wa) (s.cursor (D.setOf wa))
       L.valid = true ∧ L.dirty = false ∧ L.tag = D.tagOf wa ∧ L.data[D.offOf wa] = v ∧
       ∀ k : D.Off, L.data[k] = memWord t.mem (D.lineWord (D.baseOf (D.tagOf wa) (D.setOf wa)) k)) ∧
      memWord t.mem wa = v ∧
      t.counters.cacheMissCount = s.counters.cacheMissCount + 1 ∧
      t.counters.memAccessCount = s.counters.memAccessCount + 1 ∧
      t.counters.cycleCount = s.counters.cycleCount + C.missPenalty ∧
      t.counters.cacheHitCount = s.counters.cacheHitCount ∧
      (t.cursor (D.setOf wa)).val = ((s.cursor (D.setOf wa)).val + 1) % D.nways ∧
      (∀ i w, ¬ (i = D.setOf wa ∧ w = s.cursor (D.setOf wa)) → t.line i w = s.line i w) ∧
      (∀ i, i ≠ D.setOf wa → t.cursor i = s.cursor i)

/-- 42_cache.md R161 and R162: a dirty victim's words, and no other byte, are written at its reconstructed address and
counted once; a valid victim counts one replacement; a victim that is not dirty writes nothing; the victim is the cursor's line
and no other. -/
def Obligations.Eviction : Prop :=
  ∀ (D : Sizes) (b : D.WordAddr) (s t : State D), Memory.wf D s.mem = true → fill b s = .ok () t →
    let L := s.line (D.setOf b) (s.cursor (D.setOf b))
    (L.valid = true → L.dirty = true →
      (∀ k : D.Off, memWord t.mem (D.lineWord (D.baseOf L.tag (D.setOf b)) k) = L.data[k]) ∧
      (∀ a : Nat, a < D.wordBytes * (D.baseOf L.tag (D.setOf b)).toNat ∨
          D.wordBytes * ((D.baseOf L.tag (D.setOf b)).toNat + D.lineWords) ≤ a →
        readByte t.mem a = readByte s.mem a) ∧
      t.counters.cacheWbCount = s.counters.cacheWbCount + 1 ∧
      t.counters.cacheReplaceCount = s.counters.cacheReplaceCount + 1) ∧
    (L.valid = true → L.dirty = false →
      t.mem = s.mem ∧ t.counters.cacheWbCount = s.counters.cacheWbCount ∧
      t.counters.cacheReplaceCount = s.counters.cacheReplaceCount + 1) ∧
    (L.valid = false → t.mem = s.mem ∧ t.counters = s.counters) ∧
    ((t.cursor (D.setOf b)).val = ((s.cursor (D.setOf b)).val + 1) % D.nways ∧
      ∀ j w, ¬ (j = D.setOf b ∧ w = s.cursor (D.setOf b)) → t.line j w = s.line j w)

/-- A repeated read returns the same value, counts a hit and changes nothing else. -/
def Obligations.RepeatedRead : Prop :=
  ∀ (D : Sizes) (C : Config D) (wa : D.WordAddr) (s t : State D) (v : D.Word), readWord C wa s = .ok v t →
    readWord C wa t =
      .ok v { t with counters := { t.counters with cacheHitCount := t.counters.cacheHitCount + 1 } }

/-- Round robin, with any number of ways: after `n` fills of one set the cursor has moved by `n`, each of the last `NWAYS`
fills has its line in the slot that the cursor had then, and a fill after the first `NWAYS` replaces a valid line. -/
def Obligations.RoundRobin : Prop :=
  ∀ (D : Sizes) (b : Nat → D.WordAddr) (s : Nat → State D) (n : Nat),
    (∀ k < n, D.setOf (b k) = D.setOf (b 0)) → (∀ k < n, fill (b k) (s k) = .ok () (s (k + 1))) →
    let i := D.setOf (b 0)
    let c := ((s 0).cursor i).val
    ((s n).cursor i).val = (c + n) % D.nways ∧
    (∀ k < n, n ≤ k + D.nways → ∀ w : D.Way, w.val = (c + k) % D.nways →
      ((s n).line i w).valid = true ∧ ((s n).line i w).tag = D.tagOf (b k)) ∧
    (D.nways < n → (s n).counters.cacheReplaceCount = (s (n - 1)).counters.cacheReplaceCount + 1)

/-! ## The memory frame -/

/-- The memory a program sees changes in one place only, the word the store in EX/MEM writes, whichever instruction is in
Decode and whatever lines its operands' eager reads move. -/
def Obligations.ArchMemFrame : Prop :=
  ∀ (i : Instr) (s t : State), MemoryInv s → exec i s = .next t → noMemoryFault t →
    ∀ wa, t.archMem wa =
      if exits s = false ∧ s.em.flags.store = true ∧ wa = Sizes.t0.wordAddr s.em.e then s.em.a else s.archMem wa

/-- Every byte of the backing store is unchanged but for the word that the store in EX/MEM writes and the lines that were
dirty. -/
def Obligations.BackingStoreFrame : Prop :=
  ∀ (i : Instr) (s t : State), MemoryInv s → exec i s = .next t → noMemoryFault t →
    ∀ a : Nat,
      ¬ (s.em.flags.store = true ∧ a / 4 = (Sizes.t0.wordAddr s.em.e).toNat) →
      (∀ j w, (s.line j w).valid = true → (s.line j w).dirty = true →
        ∀ k, a / 4 ≠ (Sizes.t0.lineWord (Sizes.t0.baseOf (s.line j w).tag j) k).toNat) →
      readByte t.mem a = readByte s.mem a

/-! ## Invariants that every step keeps -/

/-- The backing store stays in canonical form, however the step ends. -/
def Obligations.CanonicalMemoryKept : Prop :=
  ∀ s t : State, Memory.wf .t0 s.mem = true → step s = .next t → Memory.wf .t0 t.mem = true

/-- Register 0 stays zero, every buffer keeps an admitted record and no-ops carry no value, on every admitted table and on
T0. -/
def Obligations.PipelineInvKept : Prop :=
  (∀ (D : Sizes) (C : Config D) (h : C.Admitted) (s t : State D), PipelineInv s → stepWith C h s = .next t →
    PipelineInv t) ∧
  (∀ s t : State, PipelineInv s → step s = .next t → PipelineInv t)

/-- In one set no two valid lines have the same tag, and no invalid line is dirty, however the step ends, on every admitted
table and on T0; and all of the cache invariants with the canonical form, unless a MemoryFault stopped the machine in the
middle of a fill, on T0 and wherever the collaborator leaves the backing store alone. -/
def Obligations.MemoryInvKept : Prop :=
  (∀ (D : Sizes) (C : Config D) (h : C.Admitted) (s t : State D), stepWith C h s = .next t →
    (LinesInv s → LinesInv t) ∧
    ((∀ R m w R' m', C.sys R m w = .cont R' m' → m' = m) → MemoryInv s → noMemoryFault t → MemoryInv t)) ∧
  (∀ s t : State, step s = .next t →
    (LinesInv s → LinesInv t) ∧ (MemoryInv s → noMemoryFault t → MemoryInv t))

/-- The addresses the machine fetches from stay multiples of 4. -/
def Obligations.PcInvKept : Prop :=
  ∀ s t : State, PcInv t0 s → step s = .next t → PcInv t0 t

/-! ## No-ops and the squash -/

/-- On any admitted table a no-op in MEM/WB commits and counts nothing, one in EX/MEM touches no memory and no counter, one
in ID/EX stays one with value 0, one in IF/ID becomes one. -/
def Obligations.NoOpsDoNothing : Prop :=
  ∀ (D : Sizes) (C : Config D) (s : State D), C.Admitted → PipelineInv s →
    (s.mw.op = .nop → writeback C s = .ok () s) ∧
    (s.em.op = .nop → memory C s = .ok () { s with
      mw := ⟨s.em.inst, s.em.pc, .nop, s.em.fu, Flags.clear, Port.allNone, 0, 0⟩ }) ∧
    (s.de.op = .nop → executed C s.de =
      ⟨s.de.inst, s.de.pc, .nop, s.de.fu, Flags.clear, Port.allNone, s.de.a, 0, false⟩) ∧
    (decode C (C.lookup C.nopInst) s =
      .ok () { s with de := ⟨s.fd.inst, s.fd.pc, .nop, C.nopFu, Flags.clear, Port.allNone, 0, 0⟩ })

/-- 40_pipeline_engine.md R111: a set branch-taken flag makes Decode write a bubble whatever the table answers; and Decode
of a cycle never finds it set. -/
def Obligations.Squash : Prop :=
  ∀ (D : Sizes) (C : Config D), C.Admitted →
    (∀ (l : Lookup D) (s : State D), s.em.taken = true →
      decode C l s =
        .ok () { s with de := ⟨C.nopInst, s.fd.pc, .nop, C.nopFu, Flags.clear, Port.allNone, 0, 0⟩ }) ∧
    (∀ s x : State D, beforeDecode C s = .ok () x → x.em.taken = false)

/-! ## The pipeline against the sequential machine -/

/-- The word an eager read returns is the word the load itself reads in the next cycle, and that read hits. -/
def Obligations.EagerReadIsTheLoad : Prop :=
  ∀ (i : Instr) (s t u : State), PipelineInv s → exec i s = .next t → step t = .next u → u.status = .running →
    (eagerRead s (portOf i).srcA → u.mw.m = t.de.a) ∧
    (eagerRead s (portOf i).srcB → u.mw.m = t.de.b) ∧
    (eagerRead s (portOf i).srcA ∨ eagerRead s (portOf i).srcB →
      t.counters.cacheHitCount + 1 ≤ u.counters.cacheHitCount)

/-- Forwarding is exact: the operands that enter ID/EX are the values the registers have when everything before the
instruction in program order has finished, with no no-op between. -/
def Obligations.OperandsAreSequential : Prop :=
  ∀ (i : Instr) (s t : State), PipelineInv s → MemoryInv s → exec i s = .next t → t.status = .running →
    (∀ r, (portOf i).srcA = some r → t.de.a = (pending s).get r) ∧
    (∀ r, (portOf i).srcB = some r → t.de.b = (pending s).get r)

/-- The pipeline refines the sequential machine: if the instruction in EX/MEM is no system call, a cycle adds to the
registers and the memory that are pending exactly what the instruction in Decode does alone; and every instruction but LINK
does so under conditions on the state alone. -/
def Obligations.PipelineRefinesSequential : Prop :=
  ∀ (i : Instr) (s : State), PipelineInv s → MemoryInv s → s.em.flags.syscall = false →
    (∀ t, exec i s = .next t → t.status = .running → pending t = (pending s).run i) ∧
    ((∀ x, i ≠ .link x) → canComplete i s →
      ∃ t, exec i s = .next t ∧ t.status = .running ∧ pending t = (pending s).run i)

/-- An instruction that is decoded retires three cycles later with the result it has alone: its register is committed, its
store is in memory the cycle before, and it is counted unless it is a no-op. -/
def Obligations.InstructionRetires : Prop :=
  ∀ (i : Instr) (s t1 t2 t3 t4 : State), PipelineInv s → MemoryInv s →
    exec i s = .next t1 → step t1 = .next t2 → step t2 = .next t3 → step t3 = .next t4 →
    (∀ d, destOf i = some d → readReg t4.regs d = ((pending s).run i).get d) ∧
    (∀ wa, t3.archMem wa = ((pending s).run i).mem wa) ∧
    t4.counters.insnCount = t3.counters.insnCount + (if i = .nop then 0 else 1)

/-- A system call that is decoded takes effect three cycles later on the registers that everything before it leaves: with
1 in register 2 the machine halts with the code in register 4, else register 2 becomes 0. -/
def Obligations.SystemCallRetires : Prop :=
  ∀ (s t1 t2 t3 : State), PipelineInv s → MemoryInv s → s.em.flags.syscall = false → s.de.flags.syscall = false →
    exec .syscall s = .next t1 → step t1 = .next t2 → step t2 = .next t3 → t3.status = .running →
    ((pending s).get 2 = 1 →
      ∃ t4, step t3 = .next t4 ∧ t4.status = .halted ((pending s).get 4) ∧ t4.regs = (pending s).regs) ∧
    ((pending s).get 2 ≠ 1 →
      ∃ t4, step t3 = .next t4 ∧ t4.regs = writeReg (pending s).regs 2 0)

/-- What a system call writes arrives late: the two instructions behind it, in Decode while the call is in ID/EX or EX/MEM,
read register 2 as it was; the third, in Decode while the call is in MEM/WB, reads the 0 that the call has written. -/
def Obligations.SystemCallResultIsLate : Prop :=
  ∀ (rd rt : Reg) (s t : State), PipelineInv s → exec (.add rd 2 rt) s = .next t → t.status = .running →
    s.em.port.dstE ≠ some 2 → s.em.port.dstM ≠ some 2 → s.de.port.dstE ≠ some 2 → s.de.port.dstM ≠ some 2 →
    (s.em.flags.syscall = true ∨ s.de.flags.syscall = true → s.mw.flags.syscall = false →
      t.de.a = readReg (committedRegs s) 2) ∧
    (s.mw.flags.syscall = true → t.de.a = 0)
end

