-- ==== Sys2Proof/Laws/Address.lean ====
section
/-! SUPPORT. Address arithmetic: each address operation as a number, and that the cache's decomposition loses nothing
(42_cache.md R150, R151). -/

namespace Sys2Proof

variable {D : Sizes}

/-! ## Word and effective addresses (20_memory.md R40) -/

theorem pow_aw (D : Sizes) : 2 ^ D.aw = 2 ^ D.ol * 2 ^ D.waw := by
  rw [← D.waw_eq, Nat.pow_add, Nat.mul_comm]

theorem wordAddr_toNat (ea : D.Addr) : (D.wordAddr ea).toNat = ea.toNat / 2 ^ D.ol := by
  have h : ea.toNat < 2 ^ D.ol * 2 ^ D.waw := pow_aw D ▸ ea.isLt
  rw [Sizes.wordAddr, BitVec.extractLsb'_toNat, Nat.shiftRight_eq_div_pow, Nat.mod_eq_of_lt (Nat.div_lt_of_lt_mul h)]

theorem byteAddr_toNat (wa : D.WordAddr) : (D.byteAddr wa).toNat = 2 ^ D.ol * wa.toNat := by
  have h : 2 ^ D.ol * wa.toNat < 2 ^ D.aw := pow_aw D ▸ Nat.mul_lt_mul_of_pos_left wa.isLt (Nat.two_pow_pos _)
  have h' : wa.toNat < 2 ^ D.aw := Nat.lt_of_le_of_lt (Nat.le_mul_of_pos_left _ (Nat.two_pow_pos _)) h
  rw [Sizes.byteAddr, BitVec.toNat_shiftLeft, BitVec.toNat_setWidth, Nat.mod_eq_of_lt h', Nat.shiftLeft_eq,
    Nat.mul_comm, Nat.mod_eq_of_lt h]

theorem aligned_iff (ea : D.Addr) : D.aligned ea = true ↔ ea.toNat % 2 ^ D.ol = 0 := by
  simp [Sizes.aligned, ← BitVec.toNat_inj, BitVec.extractLsb'_toNat]

/-- With `AW` = `W` an effective address is the value computed. -/
@[simp] theorem effAddr_t0 (e : Word) : Sizes.t0.effAddr e = e := BitVec.setWidth_eq e

/-! ## Cache addresses (42_cache.md R150, R151) -/

theorem pow_waw (D : Sizes) : 2 ^ D.waw = D.lineWords * D.nsets * 2 ^ D.tagw := by
  rw [← D.slices, D.lineWords_eq, D.nsets_eq, Nat.pow_add, Nat.pow_add]
  ring

theorem offOf_val (wa : D.WordAddr) : (D.offOf wa).val = wa.toNat % D.lineWords := by
  simp [Sizes.offOf, BitVec.extractLsb'_toNat, D.lineWords_eq]

theorem setOf_val (wa : D.WordAddr) : (D.setOf wa).val = wa.toNat / D.lineWords % D.nsets := by
  simp [Sizes.setOf, BitVec.extractLsb'_toNat, Nat.shiftRight_eq_div_pow, D.lineWords_eq, D.nsets_eq]

theorem tagOf_toNat (wa : D.WordAddr) : (D.tagOf wa).toNat = wa.toNat / (D.lineWords * D.nsets) := by
  have h : wa.toNat < D.lineWords * D.nsets * 2 ^ D.tagw := pow_waw D ▸ wa.isLt
  rw [Sizes.tagOf, BitVec.extractLsb'_toNat, Nat.shiftRight_eq_div_pow, Nat.pow_add, ← D.lineWords_eq, ← D.nsets_eq,
    Nat.mod_eq_of_lt (Nat.div_lt_of_lt_mul h)]

theorem lineBase_toNat (wa : D.WordAddr) : (D.lineBase wa).toNat = wa.toNat / D.lineWords * D.lineWords := by
  have h := Nat.lt_of_le_of_lt (Nat.div_mul_le_self wa.toNat D.lineWords) wa.isLt
  rw [Sizes.lineBase, BitVec.toNat_shiftLeft, BitVec.toNat_ushiftRight, Nat.shiftRight_eq_div_pow, Nat.shiftLeft_eq,
    ← D.lineWords_eq, Nat.mod_eq_of_lt h]

/-- A word of a line lies inside the line's set and tag. -/
theorem line_lt (i : D.SetIx) (k : D.Off) : i.val * D.lineWords + k.val < D.lineWords * D.nsets := by
  have h : (i.val + 1) * D.lineWords ≤ D.nsets * D.lineWords := Nat.mul_le_mul_right _ i.isLt
  rw [Nat.add_mul, Nat.one_mul, Nat.mul_comm D.nsets] at h
  have := k.isLt
  omega

theorem tag_lt (t : D.Tag) {n : Nat} (hn : n < D.lineWords * D.nsets) :
    t.toNat * (D.lineWords * D.nsets) + n < 2 ^ D.waw := by
  have h : (t.toNat + 1) * (D.lineWords * D.nsets) ≤ 2 ^ D.tagw * (D.lineWords * D.nsets) :=
    Nat.mul_le_mul_right _ t.isLt
  rw [Nat.add_mul, Nat.one_mul, Nat.mul_comm (2 ^ D.tagw), ← pow_waw] at h
  omega

theorem baseOf_toNat (t : D.Tag) (i : D.SetIx) :
    (D.baseOf t i).toNat = t.toNat * (D.lineWords * D.nsets) + i.val * D.lineWords := by
  have hi : i.val * D.lineWords < D.lineWords * D.nsets := by
    rw [Nat.mul_comm]
    exact Nat.mul_lt_mul_of_pos_left i.isLt D.lineWords_pos
  have hs := tag_lt t hi
  have hp : 2 ^ (D.offw + D.setw) = D.lineWords * D.nsets := by rw [Nat.pow_add, D.lineWords_eq, D.nsets_eq]
  have h1 : t.toNat ≤ t.toNat * (D.lineWords * D.nsets) :=
    Nat.le_mul_of_pos_right _ (Nat.mul_pos D.lineWords_pos D.nsets_pos)
  have h2 : i.val ≤ i.val * D.lineWords := Nat.le_mul_of_pos_right _ D.lineWords_pos
  rw [Sizes.baseOf, BitVec.toNat_or, BitVec.toNat_shiftLeft, BitVec.toNat_shiftLeft, BitVec.toNat_setWidth,
    BitVec.toNat_ofNat, Nat.shiftLeft_eq, Nat.shiftLeft_eq, Nat.mod_eq_of_lt (a := t.toNat) (by omega),
    Nat.mod_eq_of_lt (a := i.val) (by omega), hp, ← D.lineWords_eq, Nat.mod_eq_of_lt (by omega),
    Nat.mod_eq_of_lt (by omega), Nat.mul_comm t.toNat, ← hp, Nat.two_pow_add_eq_or_of_lt (by rw [hp]; exact hi)]

theorem lineWord_toNat (t : D.Tag) (i : D.SetIx) (k : D.Off) :
    (D.lineWord (D.baseOf t i) k).toNat = t.toNat * (D.lineWords * D.nsets) + (i.val * D.lineWords + k.val) := by
  have hs := tag_lt t (line_lt i k)
  rw [Sizes.lineWord, BitVec.toNat_add, baseOf_toNat, BitVec.toNat_ofNat, Nat.mod_eq_of_lt (a := k.val) (by omega),
    Nat.add_assoc, Nat.mod_eq_of_lt hs]

theorem lineBase_eq (wa : D.WordAddr) : D.lineBase wa = D.baseOf (D.tagOf wa) (D.setOf wa) := by
  apply BitVec.eq_of_toNat_eq
  rw [lineBase_toNat, baseOf_toNat, tagOf_toNat, setOf_val, ← Nat.div_div_eq_div_mul]
  conv_lhs => rw [← Nat.div_add_mod (wa.toNat / D.lineWords) D.nsets]
  ring

@[simp] theorem tagOf_lineWord (t : D.Tag) (i : D.SetIx) (k : D.Off) : D.tagOf (D.lineWord (D.baseOf t i) k) = t := by
  apply BitVec.eq_of_toNat_eq
  rw [tagOf_toNat, lineWord_toNat, Nat.mul_comm, Nat.mul_add_div (Nat.mul_pos D.lineWords_pos D.nsets_pos),
    Nat.div_eq_of_lt (line_lt i k), Nat.add_zero]

theorem lineWord_toNat' (t : D.Tag) (i : D.SetIx) (k : D.Off) :
    (D.lineWord (D.baseOf t i) k).toNat = D.lineWords * (D.nsets * t.toNat + i.val) + k.val := by
  rw [lineWord_toNat]
  ring

@[simp] theorem setOf_lineWord (t : D.Tag) (i : D.SetIx) (k : D.Off) : D.setOf (D.lineWord (D.baseOf t i) k) = i := by
  apply Fin.ext
  rw [setOf_val, lineWord_toNat', Nat.mul_add_div D.lineWords_pos, Nat.div_eq_of_lt k.isLt, Nat.add_zero,
    Nat.mul_add_mod, Nat.mod_eq_of_lt i.isLt]

@[simp] theorem offOf_lineWord (t : D.Tag) (i : D.SetIx) (k : D.Off) : D.offOf (D.lineWord (D.baseOf t i) k) = k := by
  apply Fin.ext
  rw [offOf_val, lineWord_toNat', Nat.mul_add_mod, Nat.mod_eq_of_lt k.isLt]

@[simp] theorem lineWord_self (wa : D.WordAddr) :
    D.lineWord (D.baseOf (D.tagOf wa) (D.setOf wa)) (D.offOf wa) = wa := by
  apply BitVec.eq_of_toNat_eq
  rw [lineWord_toNat', tagOf_toNat, setOf_val, offOf_val, ← Nat.div_div_eq_div_mul, Nat.div_add_mod, Nat.div_add_mod]

theorem lineWord_inj {t t' : D.Tag} {i i' : D.SetIx} {k k' : D.Off}
    (h : D.lineWord (D.baseOf t i) k = D.lineWord (D.baseOf t' i') k') : t = t' ∧ i = i' ∧ k = k' :=
  ⟨by simpa using congrArg D.tagOf h, by simpa using congrArg D.setOf h, by simpa using congrArg D.offOf h⟩

theorem exists_off_zero (D : Sizes) : ∃ z : D.Off, z.val = 0 := ⟨⟨0, D.lineWords_pos⟩, rfl⟩

@[simp] theorem setOf_baseOf (t : D.Tag) (i : D.SetIx) : D.setOf (D.baseOf t i) = i := by
  obtain ⟨z, hz⟩ := exists_off_zero D
  have := setOf_lineWord t i z
  simpa [Sizes.lineWord, hz] using this

@[simp] theorem tagOf_baseOf (t : D.Tag) (i : D.SetIx) : D.tagOf (D.baseOf t i) = t := by
  obtain ⟨z, hz⟩ := exists_off_zero D
  have := tagOf_lineWord t i z
  simpa [Sizes.lineWord, hz] using this

@[simp] theorem setOf_lineBase (wa : D.WordAddr) : D.setOf (D.lineBase wa) = D.setOf wa := by simp [lineBase_eq]
@[simp] theorem tagOf_lineBase (wa : D.WordAddr) : D.tagOf (D.lineBase wa) = D.tagOf wa := by simp [lineBase_eq]

end Sys2Proof
end

