-- ==== Sys2Proof/Laws/State.lean ====
section
/-! SUPPORT. What each named update of the state leaves in each field, so that no proof unfolds a record update. -/

namespace Sys2Proof.Machine

variable {D : Sizes}

section setRegs
variable (s : State D) (x : RegFile D)
@[simp] theorem setRegs_regs : (s.setRegs x).regs = x := rfl
@[simp] theorem setRegs_pc : (s.setRegs x).pc = s.pc := rfl
@[simp] theorem setRegs_npc : (s.setRegs x).npc = s.npc := rfl
@[simp] theorem setRegs_fd : (s.setRegs x).fd = s.fd := rfl
@[simp] theorem setRegs_de : (s.setRegs x).de = s.de := rfl
@[simp] theorem setRegs_em : (s.setRegs x).em = s.em := rfl
@[simp] theorem setRegs_mw : (s.setRegs x).mw = s.mw := rfl
@[simp] theorem setRegs_cache : (s.setRegs x).cache = s.cache := rfl
@[simp] theorem setRegs_counters : (s.setRegs x).counters = s.counters := rfl
@[simp] theorem setRegs_mem : (s.setRegs x).mem = s.mem := rfl
@[simp] theorem setRegs_unmapped : (s.setRegs x).unmapped = s.unmapped := rfl
@[simp] theorem setRegs_status : (s.setRegs x).status = s.status := rfl
@[simp] theorem setRegs_mapped (wa : D.WordAddr) : (s.setRegs x).mapped wa = s.mapped wa := rfl
@[simp] theorem setRegs_instMapped (wa : D.WordAddr) : (s.setRegs x).instMapped wa = s.instMapped wa := rfl
@[simp] theorem setRegs_line (i : D.SetIx) (w : D.Way) : (s.setRegs x).line i w = s.line i w := rfl
@[simp] theorem setRegs_lookup (wa : D.WordAddr) : (s.setRegs x).lookup wa = s.lookup wa := rfl
@[simp] theorem setRegs_archMem (wa : D.WordAddr) : (s.setRegs x).archMem wa = s.archMem wa := rfl
end setRegs

section setPc
variable (s : State D) (x : D.Addr)
@[simp] theorem setPc_regs : (s.setPc x).regs = s.regs := rfl
@[simp] theorem setPc_pc : (s.setPc x).pc = x := rfl
@[simp] theorem setPc_npc : (s.setPc x).npc = s.npc := rfl
@[simp] theorem setPc_fd : (s.setPc x).fd = s.fd := rfl
@[simp] theorem setPc_de : (s.setPc x).de = s.de := rfl
@[simp] theorem setPc_em : (s.setPc x).em = s.em := rfl
@[simp] theorem setPc_mw : (s.setPc x).mw = s.mw := rfl
@[simp] theorem setPc_cache : (s.setPc x).cache = s.cache := rfl
@[simp] theorem setPc_counters : (s.setPc x).counters = s.counters := rfl
@[simp] theorem setPc_mem : (s.setPc x).mem = s.mem := rfl
@[simp] theorem setPc_unmapped : (s.setPc x).unmapped = s.unmapped := rfl
@[simp] theorem setPc_status : (s.setPc x).status = s.status := rfl
@[simp] theorem setPc_mapped (wa : D.WordAddr) : (s.setPc x).mapped wa = s.mapped wa := rfl
@[simp] theorem setPc_instMapped (wa : D.WordAddr) : (s.setPc x).instMapped wa = s.instMapped wa := rfl
@[simp] theorem setPc_line (i : D.SetIx) (w : D.Way) : (s.setPc x).line i w = s.line i w := rfl
@[simp] theorem setPc_lookup (wa : D.WordAddr) : (s.setPc x).lookup wa = s.lookup wa := rfl
@[simp] theorem setPc_archMem (wa : D.WordAddr) : (s.setPc x).archMem wa = s.archMem wa := rfl
end setPc

section setNpc
variable (s : State D) (x : D.Addr)
@[simp] theorem setNpc_regs : (s.setNpc x).regs = s.regs := rfl
@[simp] theorem setNpc_pc : (s.setNpc x).pc = s.pc := rfl
@[simp] theorem setNpc_npc : (s.setNpc x).npc = x := rfl
@[simp] theorem setNpc_fd : (s.setNpc x).fd = s.fd := rfl
@[simp] theorem setNpc_de : (s.setNpc x).de = s.de := rfl
@[simp] theorem setNpc_em : (s.setNpc x).em = s.em := rfl
@[simp] theorem setNpc_mw : (s.setNpc x).mw = s.mw := rfl
@[simp] theorem setNpc_cache : (s.setNpc x).cache = s.cache := rfl
@[simp] theorem setNpc_counters : (s.setNpc x).counters = s.counters := rfl
@[simp] theorem setNpc_mem : (s.setNpc x).mem = s.mem := rfl
@[simp] theorem setNpc_unmapped : (s.setNpc x).unmapped = s.unmapped := rfl
@[simp] theorem setNpc_status : (s.setNpc x).status = s.status := rfl
@[simp] theorem setNpc_mapped (wa : D.WordAddr) : (s.setNpc x).mapped wa = s.mapped wa := rfl
@[simp] theorem setNpc_instMapped (wa : D.WordAddr) : (s.setNpc x).instMapped wa = s.instMapped wa := rfl
@[simp] theorem setNpc_line (i : D.SetIx) (w : D.Way) : (s.setNpc x).line i w = s.line i w := rfl
@[simp] theorem setNpc_lookup (wa : D.WordAddr) : (s.setNpc x).lookup wa = s.lookup wa := rfl
@[simp] theorem setNpc_archMem (wa : D.WordAddr) : (s.setNpc x).archMem wa = s.archMem wa := rfl
end setNpc

section setFd
variable (s : State D) (x : FD D)
@[simp] theorem setFd_regs : (s.setFd x).regs = s.regs := rfl
@[simp] theorem setFd_pc : (s.setFd x).pc = s.pc := rfl
@[simp] theorem setFd_npc : (s.setFd x).npc = s.npc := rfl
@[simp] theorem setFd_fd : (s.setFd x).fd = x := rfl
@[simp] theorem setFd_de : (s.setFd x).de = s.de := rfl
@[simp] theorem setFd_em : (s.setFd x).em = s.em := rfl
@[simp] theorem setFd_mw : (s.setFd x).mw = s.mw := rfl
@[simp] theorem setFd_cache : (s.setFd x).cache = s.cache := rfl
@[simp] theorem setFd_counters : (s.setFd x).counters = s.counters := rfl
@[simp] theorem setFd_mem : (s.setFd x).mem = s.mem := rfl
@[simp] theorem setFd_unmapped : (s.setFd x).unmapped = s.unmapped := rfl
@[simp] theorem setFd_status : (s.setFd x).status = s.status := rfl
@[simp] theorem setFd_mapped (wa : D.WordAddr) : (s.setFd x).mapped wa = s.mapped wa := rfl
@[simp] theorem setFd_instMapped (wa : D.WordAddr) : (s.setFd x).instMapped wa = s.instMapped wa := rfl
@[simp] theorem setFd_line (i : D.SetIx) (w : D.Way) : (s.setFd x).line i w = s.line i w := rfl
@[simp] theorem setFd_lookup (wa : D.WordAddr) : (s.setFd x).lookup wa = s.lookup wa := rfl
@[simp] theorem setFd_archMem (wa : D.WordAddr) : (s.setFd x).archMem wa = s.archMem wa := rfl
end setFd

section setDe
variable (s : State D) (x : DE D)
@[simp] theorem setDe_regs : (s.setDe x).regs = s.regs := rfl
@[simp] theorem setDe_pc : (s.setDe x).pc = s.pc := rfl
@[simp] theorem setDe_npc : (s.setDe x).npc = s.npc := rfl
@[simp] theorem setDe_fd : (s.setDe x).fd = s.fd := rfl
@[simp] theorem setDe_de : (s.setDe x).de = x := rfl
@[simp] theorem setDe_em : (s.setDe x).em = s.em := rfl
@[simp] theorem setDe_mw : (s.setDe x).mw = s.mw := rfl
@[simp] theorem setDe_cache : (s.setDe x).cache = s.cache := rfl
@[simp] theorem setDe_counters : (s.setDe x).counters = s.counters := rfl
@[simp] theorem setDe_mem : (s.setDe x).mem = s.mem := rfl
@[simp] theorem setDe_unmapped : (s.setDe x).unmapped = s.unmapped := rfl
@[simp] theorem setDe_status : (s.setDe x).status = s.status := rfl
@[simp] theorem setDe_mapped (wa : D.WordAddr) : (s.setDe x).mapped wa = s.mapped wa := rfl
@[simp] theorem setDe_instMapped (wa : D.WordAddr) : (s.setDe x).instMapped wa = s.instMapped wa := rfl
@[simp] theorem setDe_line (i : D.SetIx) (w : D.Way) : (s.setDe x).line i w = s.line i w := rfl
@[simp] theorem setDe_lookup (wa : D.WordAddr) : (s.setDe x).lookup wa = s.lookup wa := rfl
@[simp] theorem setDe_archMem (wa : D.WordAddr) : (s.setDe x).archMem wa = s.archMem wa := rfl
end setDe

section setEm
variable (s : State D) (x : EM D)
@[simp] theorem setEm_regs : (s.setEm x).regs = s.regs := rfl
@[simp] theorem setEm_pc : (s.setEm x).pc = s.pc := rfl
@[simp] theorem setEm_npc : (s.setEm x).npc = s.npc := rfl
@[simp] theorem setEm_fd : (s.setEm x).fd = s.fd := rfl
@[simp] theorem setEm_de : (s.setEm x).de = s.de := rfl
@[simp] theorem setEm_em : (s.setEm x).em = x := rfl
@[simp] theorem setEm_mw : (s.setEm x).mw = s.mw := rfl
@[simp] theorem setEm_cache : (s.setEm x).cache = s.cache := rfl
@[simp] theorem setEm_counters : (s.setEm x).counters = s.counters := rfl
@[simp] theorem setEm_mem : (s.setEm x).mem = s.mem := rfl
@[simp] theorem setEm_unmapped : (s.setEm x).unmapped = s.unmapped := rfl
@[simp] theorem setEm_status : (s.setEm x).status = s.status := rfl
@[simp] theorem setEm_mapped (wa : D.WordAddr) : (s.setEm x).mapped wa = s.mapped wa := rfl
@[simp] theorem setEm_instMapped (wa : D.WordAddr) : (s.setEm x).instMapped wa = s.instMapped wa := rfl
@[simp] theorem setEm_line (i : D.SetIx) (w : D.Way) : (s.setEm x).line i w = s.line i w := rfl
@[simp] theorem setEm_lookup (wa : D.WordAddr) : (s.setEm x).lookup wa = s.lookup wa := rfl
@[simp] theorem setEm_archMem (wa : D.WordAddr) : (s.setEm x).archMem wa = s.archMem wa := rfl
end setEm

section setMw
variable (s : State D) (x : MW D)
@[simp] theorem setMw_regs : (s.setMw x).regs = s.regs := rfl
@[simp] theorem setMw_pc : (s.setMw x).pc = s.pc := rfl
@[simp] theorem setMw_npc : (s.setMw x).npc = s.npc := rfl
@[simp] theorem setMw_fd : (s.setMw x).fd = s.fd := rfl
@[simp] theorem setMw_de : (s.setMw x).de = s.de := rfl
@[simp] theorem setMw_em : (s.setMw x).em = s.em := rfl
@[simp] theorem setMw_mw : (s.setMw x).mw = x := rfl
@[simp] theorem setMw_cache : (s.setMw x).cache = s.cache := rfl
@[simp] theorem setMw_counters : (s.setMw x).counters = s.counters := rfl
@[simp] theorem setMw_mem : (s.setMw x).mem = s.mem := rfl
@[simp] theorem setMw_unmapped : (s.setMw x).unmapped = s.unmapped := rfl
@[simp] theorem setMw_status : (s.setMw x).status = s.status := rfl
@[simp] theorem setMw_mapped (wa : D.WordAddr) : (s.setMw x).mapped wa = s.mapped wa := rfl
@[simp] theorem setMw_instMapped (wa : D.WordAddr) : (s.setMw x).instMapped wa = s.instMapped wa := rfl
@[simp] theorem setMw_line (i : D.SetIx) (w : D.Way) : (s.setMw x).line i w = s.line i w := rfl
@[simp] theorem setMw_lookup (wa : D.WordAddr) : (s.setMw x).lookup wa = s.lookup wa := rfl
@[simp] theorem setMw_archMem (wa : D.WordAddr) : (s.setMw x).archMem wa = s.archMem wa := rfl
end setMw

section setCache
variable (s : State D) (x : Vector (CacheSet D) D.nsets)
@[simp] theorem setCache_regs : (s.setCache x).regs = s.regs := rfl
@[simp] theorem setCache_pc : (s.setCache x).pc = s.pc := rfl
@[simp] theorem setCache_npc : (s.setCache x).npc = s.npc := rfl
@[simp] theorem setCache_fd : (s.setCache x).fd = s.fd := rfl
@[simp] theorem setCache_de : (s.setCache x).de = s.de := rfl
@[simp] theorem setCache_em : (s.setCache x).em = s.em := rfl
@[simp] theorem setCache_mw : (s.setCache x).mw = s.mw := rfl
@[simp] theorem setCache_cache : (s.setCache x).cache = x := rfl
@[simp] theorem setCache_counters : (s.setCache x).counters = s.counters := rfl
@[simp] theorem setCache_mem : (s.setCache x).mem = s.mem := rfl
@[simp] theorem setCache_unmapped : (s.setCache x).unmapped = s.unmapped := rfl
@[simp] theorem setCache_status : (s.setCache x).status = s.status := rfl
@[simp] theorem setCache_mapped (wa : D.WordAddr) : (s.setCache x).mapped wa = s.mapped wa := rfl
@[simp] theorem setCache_instMapped (wa : D.WordAddr) : (s.setCache x).instMapped wa = s.instMapped wa := rfl
end setCache

section setCounters
variable (s : State D) (x : Counters)
@[simp] theorem setCounters_regs : (s.setCounters x).regs = s.regs := rfl
@[simp] theorem setCounters_pc : (s.setCounters x).pc = s.pc := rfl
@[simp] theorem setCounters_npc : (s.setCounters x).npc = s.npc := rfl
@[simp] theorem setCounters_fd : (s.setCounters x).fd = s.fd := rfl
@[simp] theorem setCounters_de : (s.setCounters x).de = s.de := rfl
@[simp] theorem setCounters_em : (s.setCounters x).em = s.em := rfl
@[simp] theorem setCounters_mw : (s.setCounters x).mw = s.mw := rfl
@[simp] theorem setCounters_cache : (s.setCounters x).cache = s.cache := rfl
@[simp] theorem setCounters_counters : (s.setCounters x).counters = x := rfl
@[simp] theorem setCounters_mem : (s.setCounters x).mem = s.mem := rfl
@[simp] theorem setCounters_unmapped : (s.setCounters x).unmapped = s.unmapped := rfl
@[simp] theorem setCounters_status : (s.setCounters x).status = s.status := rfl
@[simp] theorem setCounters_mapped (wa : D.WordAddr) : (s.setCounters x).mapped wa = s.mapped wa := rfl
@[simp] theorem setCounters_instMapped (wa : D.WordAddr) : (s.setCounters x).instMapped wa = s.instMapped wa := rfl
@[simp] theorem setCounters_line (i : D.SetIx) (w : D.Way) : (s.setCounters x).line i w = s.line i w := rfl
@[simp] theorem setCounters_cursor (i : D.SetIx) : (s.setCounters x).cursor i = s.cursor i := rfl
@[simp] theorem setCounters_lookup (wa : D.WordAddr) : (s.setCounters x).lookup wa = s.lookup wa := rfl
@[simp] theorem setCounters_archMem (wa : D.WordAddr) : (s.setCounters x).archMem wa = s.archMem wa := rfl
end setCounters

section setMem
variable (s : State D) (x : Memory)
@[simp] theorem setMem_regs : (s.setMem x).regs = s.regs := rfl
@[simp] theorem setMem_pc : (s.setMem x).pc = s.pc := rfl
@[simp] theorem setMem_npc : (s.setMem x).npc = s.npc := rfl
@[simp] theorem setMem_fd : (s.setMem x).fd = s.fd := rfl
@[simp] theorem setMem_de : (s.setMem x).de = s.de := rfl
@[simp] theorem setMem_em : (s.setMem x).em = s.em := rfl
@[simp] theorem setMem_mw : (s.setMem x).mw = s.mw := rfl
@[simp] theorem setMem_cache : (s.setMem x).cache = s.cache := rfl
@[simp] theorem setMem_counters : (s.setMem x).counters = s.counters := rfl
@[simp] theorem setMem_mem : (s.setMem x).mem = x := rfl
@[simp] theorem setMem_unmapped : (s.setMem x).unmapped = s.unmapped := rfl
@[simp] theorem setMem_status : (s.setMem x).status = s.status := rfl
@[simp] theorem setMem_mapped (wa : D.WordAddr) : (s.setMem x).mapped wa = s.mapped wa := rfl
@[simp] theorem setMem_instMapped (wa : D.WordAddr) : (s.setMem x).instMapped wa = s.instMapped wa := rfl
@[simp] theorem setMem_line (i : D.SetIx) (w : D.Way) : (s.setMem x).line i w = s.line i w := rfl
@[simp] theorem setMem_cursor (i : D.SetIx) : (s.setMem x).cursor i = s.cursor i := rfl
@[simp] theorem setMem_lookup (wa : D.WordAddr) : (s.setMem x).lookup wa = s.lookup wa := rfl
end setMem

section setStatus
variable (s : State D) (x : Status D)
@[simp] theorem setStatus_regs : (s.setStatus x).regs = s.regs := rfl
@[simp] theorem setStatus_pc : (s.setStatus x).pc = s.pc := rfl
@[simp] theorem setStatus_npc : (s.setStatus x).npc = s.npc := rfl
@[simp] theorem setStatus_fd : (s.setStatus x).fd = s.fd := rfl
@[simp] theorem setStatus_de : (s.setStatus x).de = s.de := rfl
@[simp] theorem setStatus_em : (s.setStatus x).em = s.em := rfl
@[simp] theorem setStatus_mw : (s.setStatus x).mw = s.mw := rfl
@[simp] theorem setStatus_cache : (s.setStatus x).cache = s.cache := rfl
@[simp] theorem setStatus_counters : (s.setStatus x).counters = s.counters := rfl
@[simp] theorem setStatus_mem : (s.setStatus x).mem = s.mem := rfl
@[simp] theorem setStatus_unmapped : (s.setStatus x).unmapped = s.unmapped := rfl
@[simp] theorem setStatus_status : (s.setStatus x).status = x := rfl
@[simp] theorem setStatus_mapped (wa : D.WordAddr) : (s.setStatus x).mapped wa = s.mapped wa := rfl
@[simp] theorem setStatus_instMapped (wa : D.WordAddr) : (s.setStatus x).instMapped wa = s.instMapped wa := rfl
@[simp] theorem setStatus_line (i : D.SetIx) (w : D.Way) : (s.setStatus x).line i w = s.line i w := rfl
@[simp] theorem setStatus_lookup (wa : D.WordAddr) : (s.setStatus x).lookup wa = s.lookup wa := rfl
@[simp] theorem setStatus_archMem (wa : D.WordAddr) : (s.setStatus x).archMem wa = s.archMem wa := rfl
end setStatus

section counters
variable (c : Counters)
@[simp] theorem tick_cycleCount : (c.tick).cycleCount = c.cycleCount + 1 := rfl
@[simp] theorem tick_memAccessCount : (c.tick).memAccessCount = c.memAccessCount := rfl
@[simp] theorem tick_cacheHitCount : (c.tick).cacheHitCount = c.cacheHitCount := rfl
@[simp] theorem tick_cacheMissCount : (c.tick).cacheMissCount = c.cacheMissCount := rfl
@[simp] theorem tick_cacheReplaceCount : (c.tick).cacheReplaceCount = c.cacheReplaceCount := rfl
@[simp] theorem tick_cacheWbCount : (c.tick).cacheWbCount = c.cacheWbCount := rfl
@[simp] theorem tick_insnCount : (c.tick).insnCount = c.insnCount := rfl
@[simp] theorem countHit_cycleCount : (c.countHit).cycleCount = c.cycleCount := rfl
@[simp] theorem countHit_memAccessCount : (c.countHit).memAccessCount = c.memAccessCount := rfl
@[simp] theorem countHit_cacheHitCount : (c.countHit).cacheHitCount = c.cacheHitCount + 1 := rfl
@[simp] theorem countHit_cacheMissCount : (c.countHit).cacheMissCount = c.cacheMissCount := rfl
@[simp] theorem countHit_cacheReplaceCount : (c.countHit).cacheReplaceCount = c.cacheReplaceCount := rfl
@[simp] theorem countHit_cacheWbCount : (c.countHit).cacheWbCount = c.cacheWbCount := rfl
@[simp] theorem countHit_insnCount : (c.countHit).insnCount = c.insnCount := rfl
@[simp] theorem countReplace_cycleCount : (c.countReplace).cycleCount = c.cycleCount := rfl
@[simp] theorem countReplace_memAccessCount : (c.countReplace).memAccessCount = c.memAccessCount := rfl
@[simp] theorem countReplace_cacheHitCount : (c.countReplace).cacheHitCount = c.cacheHitCount := rfl
@[simp] theorem countReplace_cacheMissCount : (c.countReplace).cacheMissCount = c.cacheMissCount := rfl
@[simp] theorem countReplace_cacheReplaceCount : (c.countReplace).cacheReplaceCount = c.cacheReplaceCount + 1 := rfl
@[simp] theorem countReplace_cacheWbCount : (c.countReplace).cacheWbCount = c.cacheWbCount := rfl
@[simp] theorem countReplace_insnCount : (c.countReplace).insnCount = c.insnCount := rfl
@[simp] theorem countWb_cycleCount : (c.countWb).cycleCount = c.cycleCount := rfl
@[simp] theorem countWb_memAccessCount : (c.countWb).memAccessCount = c.memAccessCount := rfl
@[simp] theorem countWb_cacheHitCount : (c.countWb).cacheHitCount = c.cacheHitCount := rfl
@[simp] theorem countWb_cacheMissCount : (c.countWb).cacheMissCount = c.cacheMissCount := rfl
@[simp] theorem countWb_cacheReplaceCount : (c.countWb).cacheReplaceCount = c.cacheReplaceCount := rfl
@[simp] theorem countWb_cacheWbCount : (c.countWb).cacheWbCount = c.cacheWbCount + 1 := rfl
@[simp] theorem countWb_insnCount : (c.countWb).insnCount = c.insnCount := rfl
@[simp] theorem countInsn_cycleCount : (c.countInsn).cycleCount = c.cycleCount := rfl
@[simp] theorem countInsn_memAccessCount : (c.countInsn).memAccessCount = c.memAccessCount := rfl
@[simp] theorem countInsn_cacheHitCount : (c.countInsn).cacheHitCount = c.cacheHitCount := rfl
@[simp] theorem countInsn_cacheMissCount : (c.countInsn).cacheMissCount = c.cacheMissCount := rfl
@[simp] theorem countInsn_cacheReplaceCount : (c.countInsn).cacheReplaceCount = c.cacheReplaceCount := rfl
@[simp] theorem countInsn_cacheWbCount : (c.countInsn).cacheWbCount = c.cacheWbCount := rfl
@[simp] theorem countInsn_insnCount : (c.countInsn).insnCount = c.insnCount + 1 := rfl
@[simp] theorem countMiss_cycleCount (n : Nat) : ((c.countMiss n)).cycleCount = c.cycleCount + n := rfl
@[simp] theorem countMiss_memAccessCount (n : Nat) : ((c.countMiss n)).memAccessCount = c.memAccessCount + 1 := rfl
@[simp] theorem countMiss_cacheHitCount (n : Nat) : ((c.countMiss n)).cacheHitCount = c.cacheHitCount := rfl
@[simp] theorem countMiss_cacheMissCount (n : Nat) : ((c.countMiss n)).cacheMissCount = c.cacheMissCount + 1 := rfl
@[simp] theorem countMiss_cacheReplaceCount (n : Nat) : ((c.countMiss n)).cacheReplaceCount = c.cacheReplaceCount := rfl
@[simp] theorem countMiss_cacheWbCount (n : Nat) : ((c.countMiss n)).cacheWbCount = c.cacheWbCount := rfl
@[simp] theorem countMiss_insnCount (n : Nat) : ((c.countMiss n)).insnCount = c.insnCount := rfl
end counters

end Sys2Proof.Machine
end

