-- ==== Sys2Proof/Laws/Run.lean ====
section
/-! SUPPORT. Statements that can end a cycle: how `bind` composes, and the one lemma by which a property of states is carried
through a chain of statements. -/

namespace Sys2Proof.Machine

variable {D : Sizes} {α β : Type}

/-- The state a run ends in, whichever way it does. -/
def Run.final (r : Run D α) : State D :=
  match r with
  | .ok _ s => s
  | .stop s => s

@[simp] theorem final_ok (a : α) (s : State D) : (Run.ok a s).final = s := rfl
@[simp] theorem final_stop (s : State D) : (Run.stop s : Run D α).final = s := rfl
@[simp] theorem final_raise (e : FatalError D) (s : State D) :
    (raise e s : Run D α).final = s.setStatus (.faulted e) := rfl
@[simp] theorem final_raiseMemoryFault (a : D.Addr) (s : State D) :
    (raiseMemoryFault a s : Run D α).final = s.setStatus (.faulted (.memoryFault a s.counters.cycleCount)) := rfl
@[simp] theorem final_halt (c : D.Word) (s : State D) : (halt c s : Run D α).final = s.setStatus (.halted c) := rfl

@[simp] theorem bind_ok (a : α) (s : State D) (f : α → State D → Run D β) : (Run.ok a s).bind f = f a s := rfl
@[simp] theorem bind_stop (s : State D) (f : α → State D → Run D β) : (Run.stop s).bind f = .stop s := rfl
@[simp] theorem bind_raise (e : FatalError D) (s : State D) (f : α → State D → Run D β) : (raise e s).bind f = raise e s := rfl
@[simp] theorem bind_raiseMemoryFault (a : D.Addr) (s : State D) (f : α → State D → Run D β) :
    (raiseMemoryFault a s).bind f = raiseMemoryFault a s := rfl

@[simp] theorem raise_ne_ok (e : FatalError D) (s : State D) (a : α) (t : State D) : (raise e s : Run D α) ≠ .ok a t := by
  simp [raise]
@[simp] theorem raiseMemoryFault_ne_ok (e : D.Addr) (s : State D) (a : α) (t : State D) :
    (raiseMemoryFault e s : Run D α) ≠ .ok a t := by
  simp [raiseMemoryFault]
@[simp] theorem halt_ne_ok (c : D.Word) (s : State D) (a : α) (t : State D) : (halt c s : Run D α) ≠ .ok a t := by
  simp [halt]

theorem outcome_eq_next (r : Run D α) : r.outcome = .next r.final := by cases r <;> rfl

/-- A chain completes exactly when both parts do. -/
theorem bind_eq_ok {r : Run D α} {f : α → State D → Run D β} {b : β} {t : State D} :
    r.bind f = .ok b t ↔ ∃ a s, r = .ok a s ∧ f a s = .ok b t := by
  cases r with
  | ok a s => simp
  | stop s => simp

/-- A property of the final state of a chain: it holds after the first part, and, where that completes, the second part
carries it on. -/
theorem bind_final {P : State D → Prop} {r : Run D α} {f : α → State D → Run D β} (hr : P r.final)
    (hf : ∀ a s, r = .ok a s → P s → P (f a s).final) : P (r.bind f).final := by
  cases r with
  | ok a s => exact hf a s rfl hr
  | stop s => exact hr

/-- A property that each statement for the elements of a list carries on. -/
theorem forEach_final {P : State D → Prop} {f : α → State D → Run D Unit} (hf : ∀ a s, P s → P (f a s).final)
    (l : List α) (s : State D) (hs : P s) : P (forEach f l s).final := by
  induction l generalizing s with
  | nil => exact hs
  | cons a l ih => exact bind_final (P := P) (hf a s hs) fun _ t _ ht => ih t ht

/-- A run neither changes the status and completes, nor leaves it at `running` and stops. -/
def Run.Honest (s : State D) (r : Run D α) : Prop :=
  match r with
  | .ok _ t => t.status = s.status
  | .stop t => t.status ≠ .running

@[simp] theorem honest_ok (s t : State D) (a : α) : (Run.ok a t).Honest s ↔ t.status = s.status := Iff.rfl
@[simp] theorem honest_raise (s t : State D) (e : FatalError D) : (raise e t : Run D α).Honest s := by
  simp [raise, Run.Honest]
@[simp] theorem honest_raiseMemoryFault (s t : State D) (a : D.Addr) : (raiseMemoryFault a t : Run D α).Honest s := by
  simp [raiseMemoryFault]
@[simp] theorem honest_halt (s t : State D) (c : D.Word) : (halt c t : Run D α).Honest s := by
  simp [halt, Run.Honest]

theorem bind_honest {s : State D} {r : Run D α} {f : α → State D → Run D β} (hr : r.Honest s)
    (hf : ∀ a t, r = .ok a t → (f a t).Honest t) : (r.bind f).Honest s := by
  cases r with
  | ok a t =>
    have h := hf a t rfl
    have hr' : t.status = s.status := hr
    simp only [bind_ok]
    cases h' : f a t with
    | ok b u => rw [h'] at h; exact Eq.trans h hr'
    | stop u => rw [h'] at h; exact h
  | stop t => exact hr

/-- The end of an honest run from a running state tells whether it completed. -/
theorem honest_running {s : State D} {r : Run D α} (h : r.Honest s) (hf : r.final.status = .running) :
    ∃ a, r = .ok a r.final := by
  cases r with
  | ok a t => exact ⟨a, rfl⟩
  | stop t => exact absurd hf h

end Sys2Proof.Machine
end

