-- ==== Sys2Proof/Laws/Memory.lean ====
section
/-! SUPPORT. The backing store: read after write, and that every write keeps the canonical form. -/

namespace Sys2Proof.Machine

variable {D : Sizes}

theorem readByte_of_lt {m : Memory} {a : Nat} (h : m.all (fun c => decide (a < c.1)) = true) :
    readByte m a = unlistedByte := by
  induction m with
  | nil => rfl
  | cons c m ih =>
    obtain ⟨k, v⟩ := c
    simp only [List.all_cons, Bool.and_eq_true, decide_eq_true_eq] at h
    simp only [readByte]
    rw [if_neg (by omega), ih h.2]

theorem all_lt_mono {m : Memory} {a b : Nat} (hab : a ≤ b) (h : m.all (fun c => decide (b < c.1)) = true) :
    m.all (fun c => decide (a < c.1)) = true := by
  simp only [List.all_eq_true, decide_eq_true_eq] at *
  intro c hc
  have := h c hc
  omega

theorem readByte_consCell {m : Memory} {a : Nat} {v : Byte} (b : Nat)
    (h : m.all (fun c => decide (a < c.1)) = true) :
    readByte (consCell a v m) b = if b = a then v else readByte m b := by
  unfold consCell
  split
  · next hv =>
    split
    · next hb => rw [hb, readByte_of_lt h, hv]
    · rfl
  · simp only [readByte, eq_comm]

theorem wf_cons {k : Nat} {v : Byte} {m : Memory} : Memory.wf D ((k, v) :: m) = true ↔
    v ≠ unlistedByte ∧ k < D.memBytes ∧ m.all (fun c => decide (k < c.1)) = true ∧ Memory.wf D m = true := by
  simp [Memory.wf, and_assoc]

/-- A byte other than the one written, in any list. -/
theorem readByte_writeByte_ne (m : Memory) {a b : Nat} (v : Byte) (hab : b ≠ a) :
    readByte (writeByte m a v) b = readByte m b := by
  have hc : ∀ m', readByte (consCell a v m') b = readByte m' b := by
    intro m'
    unfold consCell
    split
    · rfl
    · simp only [readByte, if_neg (Ne.symm hab)]
  induction m with
  | nil => exact hc []
  | cons c m ih =>
    obtain ⟨k, w⟩ := c
    simp only [writeByte]
    split
    · exact hc _
    · split
      · next hk => rw [hc, readByte, if_neg (by omega)]
      · simp only [readByte, ih]

/-- A byte read after a byte written. -/
theorem readByte_writeByte {m : Memory} (h : Memory.wf D m = true) (a b : Nat) (v : Byte) :
    readByte (writeByte m a v) b = if b = a then v else readByte m b := by
  induction m with
  | nil => exact readByte_consCell b rfl
  | cons c m ih =>
    obtain ⟨k, w⟩ := c
    obtain ⟨-, -, hlt, hm⟩ := wf_cons.1 h
    simp only [writeByte]
    split
    · next hak =>
      refine readByte_consCell b ?_
      simp only [List.all_cons, Bool.and_eq_true, decide_eq_true_eq]
      exact ⟨hak, all_lt_mono (by omega) hlt⟩
    · next hak =>
      split
      · next hk =>
        rw [readByte_consCell b (all_lt_mono (by omega) hlt)]
        simp only [readByte]
        split
        · rfl
        · rw [if_neg (by omega)]
      · next hk =>
        simp only [readByte, ih hm]
        by_cases hkb : k = b
        · rw [if_pos hkb, if_pos hkb, if_neg (by omega)]
        · rw [if_neg hkb, if_neg hkb]

theorem all_lt_writeByte {m : Memory} {k a : Nat} {v : Byte} (hka : k < a)
    (h : m.all (fun c => decide (k < c.1)) = true) :
    (writeByte m a v).all (fun c => decide (k < c.1)) = true := by
  induction m with
  | nil => simp only [writeByte, consCell]; split <;> simp [hka]
  | cons c m ih =>
    obtain ⟨j, w⟩ := c
    simp only [List.all_cons, Bool.and_eq_true, decide_eq_true_eq] at h
    simp only [writeByte, consCell]
    repeat' split
    all_goals simp only [List.all_cons, h.1, h.2, ih h.2, hka, decide_true, Bool.and_self]

theorem wf_consCell {m : Memory} {a : Nat} {v : Byte} (ha : a < D.memBytes) (hm : Memory.wf D m = true)
    (h : m.all (fun c => decide (a < c.1)) = true) : Memory.wf D (consCell a v m) = true := by
  unfold consCell
  split
  · exact hm
  · next hv => exact wf_cons.2 ⟨hv, ha, h, hm⟩

/-- A byte write keeps the canonical form. -/
theorem writeByte_wf {m : Memory} {a : Nat} {v : Byte} (ha : a < D.memBytes) (h : Memory.wf D m = true) :
    Memory.wf D (writeByte m a v) = true := by
  induction m with
  | nil => exact wf_consCell ha rfl rfl
  | cons c m ih =>
    obtain ⟨k, w⟩ := c
    obtain ⟨hw, hk, hlt, hm⟩ := wf_cons.1 h
    simp only [writeByte]
    split
    · next hak =>
      refine wf_consCell ha h ?_
      simp only [List.all_cons, Bool.and_eq_true, decide_eq_true_eq]
      exact ⟨hak, all_lt_mono (by omega) hlt⟩
    · split
      · exact wf_consCell ha hm (all_lt_mono (by omega) hlt)
      · exact wf_cons.2 ⟨hw, hk, all_lt_writeByte (by omega) hlt, ih hm⟩

/-! ## Runs of bytes -/

/-- A run of bytes written keeps the canonical form. -/
theorem writeBytes_wf {m : Memory} {a n : Nat} (v : Nat) (hb : a + n ≤ D.memBytes) (h : Memory.wf D m = true) :
    Memory.wf D (writeBytes m a n v) = true := by
  induction n generalizing m a v with
  | zero => exact h
  | succ n ih => exact ih _ (by omega) (writeByte_wf (by omega) h)

/-- A byte outside the run written, in any list. -/
theorem readByte_writeBytes_ne (m : Memory) {a n b : Nat} (v : Nat) (h : b < a ∨ a + n ≤ b) :
    readByte (writeBytes m a n v) b = readByte m b := by
  induction n generalizing m a v with
  | zero => rfl
  | succ n ih => rw [writeBytes, ih _ _ (by omega), readByte_writeByte_ne _ _ (by omega)]

theorem readBytes_congr {m m' : Memory} {a n : Nat} (h : ∀ i < n, readByte m' (a + i) = readByte m (a + i)) :
    readBytes m' a n = readBytes m a n := by
  induction n generalizing a with
  | zero => rfl
  | succ n ih =>
    rw [readBytes, readBytes, ih fun i hi => by rw [Nat.add_right_comm]; exact h (i + 1) (by omega)]
    rw [show readByte m' a = readByte m a from h 0 (by omega)]

/-- A run of bytes read after it is written. -/
theorem readBytes_writeBytes {m : Memory} {a n : Nat} (v : Nat) (hb : a + n ≤ D.memBytes) (h : Memory.wf D m = true) :
    readBytes (writeBytes m a n v) a n = v % 2 ^ (8 * n) := by
  induction n generalizing m a v with
  | zero => simp [readBytes, Nat.mod_one]
  | succ n ih =>
    rw [readBytes, writeBytes, ih _ (by omega) (writeByte_wf (by omega) h), readByte_writeBytes_ne _ _ (by omega),
      readByte_writeByte h, if_pos rfl, BitVec.toNat_ofNat, show 8 * (n + 1) = 8 + 8 * n by omega, Nat.pow_add,
      Nat.mod_mul]

/-! ## Words -/

theorem wordBytes_bits (D : Sizes) : D.w ≤ 8 * D.wordBytes := by
  unfold Sizes.wordBytes
  omega

theorem word_bound (wa : D.WordAddr) : D.wordBytes * wa.toNat + D.wordBytes ≤ D.memBytes := by
  have h : wa.toNat + 1 ≤ 2 ^ D.waw := wa.isLt
  rw [show D.wordBytes * wa.toNat + D.wordBytes = D.wordBytes * (wa.toNat + 1) from (Nat.mul_succ _ _).symm]
  exact Nat.mul_le_mul_left _ h

/-- The bytes of two words lie apart. -/
theorem words_apart {wa wb : D.WordAddr} (h : wb ≠ wa) : D.wordBytes * wb.toNat + D.wordBytes ≤ D.wordBytes * wa.toNat ∨
    D.wordBytes * wa.toNat + D.wordBytes ≤ D.wordBytes * wb.toNat := by
  rw [← Nat.mul_succ, ← Nat.mul_succ]
  rcases Nat.lt_or_gt_of_ne (fun e => h (BitVec.eq_of_toNat_eq e) : wb.toNat ≠ wa.toNat) with h | h
  · exact .inl (Nat.mul_le_mul_left _ h)
  · exact .inr (Nat.mul_le_mul_left _ h)

/-- A word write keeps the canonical form. -/
theorem setMemWord_wf {m : Memory} (wa : D.WordAddr) (v : D.Word) (h : Memory.wf D m = true) :
    Memory.wf D (setMemWord m wa v) = true := writeBytes_wf _ (word_bound wa) h

/-- A byte outside the word written, in any list. -/
theorem readByte_setMemWord_ne (m : Memory) (wa : D.WordAddr) (v : D.Word) {b : Nat}
    (h : b < D.wordBytes * wa.toNat ∨ D.wordBytes * wa.toNat + D.wordBytes ≤ b) :
    readByte (setMemWord m wa v) b = readByte m b := readByte_writeBytes_ne m _ h

/-- A word other than the one written, in any list. -/
theorem memWord_setMemWord_ne (m : Memory) {wa wb : D.WordAddr} (v : D.Word) (h : wb ≠ wa) :
    memWord (setMemWord m wa v) wb = memWord m wb := by
  have := words_apart h
  unfold memWord
  rw [readBytes_congr fun i hi => readByte_setMemWord_ne m wa v (by omega)]

/-- A word read after a word written (20_memory.md R41, R42). -/
theorem memWord_setMemWord {m : Memory} (h : Memory.wf D m = true) (wa wb : D.WordAddr) (v : D.Word) :
    memWord (setMemWord m wa v) wb = if wb = wa then v else memWord m wb := by
  by_cases hw : wb = wa
  · subst hw
    have hv : v.toNat < 2 ^ (8 * D.wordBytes) :=
      Nat.lt_of_lt_of_le v.isLt (Nat.pow_le_pow_right (by decide) (wordBytes_bits D))
    rw [if_pos rfl, memWord, setMemWord, readBytes_writeBytes _ (word_bound wb) h, Nat.mod_eq_of_lt hv,
      BitVec.ofNat_toNat, BitVec.setWidth_eq]
  · rw [if_neg hw, memWord_setMemWord_ne m v hw]

/-- A list of words written keeps the canonical form. -/
theorem foldl_setMemWord_wf {ι : Type} (addr : ι → D.WordAddr) (val : ι → D.Word) (l : List ι) {m : Memory}
    (h : Memory.wf D m = true) : Memory.wf D (l.foldl (fun m k => setMemWord m (addr k) (val k)) m) = true := by
  induction l generalizing m with
  | nil => exact h
  | cons k l ih => exact ih (setMemWord_wf _ _ h)

/-- A word other than those of a list of words written, in any list. -/
theorem memWord_foldl_ne {ι : Type} (addr : ι → D.WordAddr) (val : ι → D.Word) (l : List ι) (m : Memory)
    {wb : D.WordAddr} (h : ∀ k ∈ l, wb ≠ addr k) :
    memWord (l.foldl (fun m k => setMemWord m (addr k) (val k)) m) wb = memWord m wb := by
  induction l generalizing m with
  | nil => rfl
  | cons k l ih =>
    rw [List.foldl_cons, ih _ fun j hj => h j (List.mem_cons_of_mem _ hj),
      memWord_setMemWord_ne _ _ (h k List.mem_cons_self)]

/-- A word of a list of words written at different addresses. -/
theorem memWord_foldl_mem {ι : Type} {addr : ι → D.WordAddr} (val : ι → D.Word) {l : List ι} {m : Memory}
    (hm : Memory.wf D m = true) (hi : Function.Injective addr) (hl : l.Nodup) {k : ι} (hk : k ∈ l) :
    memWord (l.foldl (fun m k => setMemWord m (addr k) (val k)) m) (addr k) = val k := by
  induction l generalizing m with
  | nil => cases hk
  | cons j l ih =>
    obtain ⟨hj, hl⟩ := List.nodup_cons.1 hl
    rw [List.foldl_cons]
    rcases List.mem_cons.1 hk with rfl | hk
    · rw [memWord_foldl_ne _ _ _ _ fun i hi' e => hj (by rw [hi e]; exact hi'), memWord_setMemWord hm, if_pos rfl]
    · exact ih (setMemWord_wf _ _ hm) hl hk

/-- A byte outside a list of words written, in any list. -/
theorem readByte_foldl_ne {ι : Type} (addr : ι → D.WordAddr) (val : ι → D.Word) (l : List ι) (m : Memory) {b : Nat}
    (h : ∀ k ∈ l, b < D.wordBytes * (addr k).toNat ∨ D.wordBytes * (addr k).toNat + D.wordBytes ≤ b) :
    readByte (l.foldl (fun m k => setMemWord m (addr k) (val k)) m) b = readByte m b := by
  induction l generalizing m with
  | nil => rfl
  | cons k l ih =>
    rw [List.foldl_cons, ih _ fun j hj => h j (List.mem_cons_of_mem _ hj),
      readByte_setMemWord_ne _ _ _ (h k List.mem_cons_self)]

/-! ## Instructions (20_memory.md R43) -/

theorem memWords_lt (m : Memory) (wa : D.WordAddr) (k : Nat) : memWords m wa k < 2 ^ (D.w * k) := by
  induction k with
  | zero => simp [memWords]
  | succ k ih =>
    have h : (memWord m (wa + BitVec.ofNat D.waw k)).toNat + 1 ≤ 2 ^ D.w := BitVec.isLt _
    rw [memWords, Nat.mul_succ, Nat.pow_add]
    have := Nat.mul_le_mul_left (2 ^ (D.w * k)) h
    rw [Nat.mul_succ] at this
    omega

/-- Word `k` of the instruction at a word address is the word `k` above it. -/
theorem memWords_word (m : Memory) (wa : D.WordAddr) {n k : Nat} (h : k < n) :
    memWords m wa n / 2 ^ (D.w * k) % 2 ^ D.w = (memWord m (wa + BitVec.ofNat D.waw k)).toNat := by
  induction n with
  | zero => omega
  | succ n ih =>
    rw [memWords]
    rcases Nat.lt_or_eq_of_le (Nat.lt_succ_iff.1 h) with h | rfl
    · have e : D.w * n = D.w * k + (D.w + D.w * (n - k - 1)) := by
        obtain ⟨j, rfl⟩ := Nat.exists_eq_add_of_lt h
        rw [show k + j + 1 - k - 1 = j by omega]
        ring
      rw [e, Nat.pow_add, Nat.mul_assoc, Nat.add_mul_div_left _ _ (Nat.two_pow_pos _), Nat.pow_add, Nat.mul_assoc,
        Nat.add_mul_mod_self_left, ih h]
    · rw [Nat.add_mul_div_left _ _ (Nat.two_pow_pos _), Nat.div_eq_of_lt (memWords_lt m wa k), Nat.zero_add,
        Nat.mod_eq_of_lt (BitVec.isLt _)]

/-- An instruction of one word is the word. -/
theorem memInst_t0 (m : Memory) (wa : Sizes.t0.WordAddr) : memInst m wa = memWord m wa := by
  apply BitVec.eq_of_toNat_eq
  have h := (memWord m wa).isLt
  simp only [memInst, memWords, BitVec.toNat_ofNat, BitVec.add_zero, Nat.mul_zero, Nat.pow_zero,
    Nat.one_mul, Nat.zero_add]
  exact Nat.mod_eq_of_lt h

theorem instMapped_t0 (s : State) (wa : Sizes.t0.WordAddr) : s.instMapped wa = s.mapped wa := by
  simp [State.instMapped]

end Sys2Proof.Machine
end

