-- ==== Sys2Proof/Laws/Cache.lean ====
section
/-! SUPPORT. The data cache: what its operations leave alone, how they can end, and the closed form of a
line fill. -/

namespace Sys2Proof.Machine

variable {D : Sizes} {α : Type}

/-! ## Lines and lookup -/

theorem setLine_line (s : State D) (i j : D.SetIx) (w v : D.Way) (L : CacheLine D) :
    (s.setLine i w L).line j v = if j = i ∧ v = w then L else s.line j v := by
  unfold State.setLine State.line
  simp only [setCache_cache, Fin.getElem_fin, Vector.getElem_set, Fin.val_inj]
  by_cases hj : i = j
  · subst hj
    simp [Vector.getElem_set, Fin.val_inj, eq_comm]
  · simp [hj, Ne.symm hj]

@[simp] theorem setLine_cursor (s : State D) (i j : D.SetIx) (w : D.Way) (L : CacheLine D) :
    (s.setLine i w L).cursor j = s.cursor j := by
  unfold State.setLine State.cursor
  simp only [setCache_cache, Fin.getElem_fin, Vector.getElem_set, Fin.val_inj]
  split
  · next h => subst h; rfl
  · rfl

@[simp] theorem setCursor_line (s : State D) (i j : D.SetIx) (w v : D.Way) :
    (s.setCursor i w).line j v = s.line j v := by
  unfold State.setCursor State.line
  simp only [setCache_cache, Fin.getElem_fin, Vector.getElem_set, Fin.val_inj]
  split
  · next h => subst h; rfl
  · rfl

@[simp] theorem setCursor_cursor (s : State D) (i j : D.SetIx) (w : D.Way) :
    (s.setCursor i w).cursor j = if j = i then w else s.cursor j := by
  unfold State.setCursor State.cursor
  simp only [setCache_cache, Fin.getElem_fin, Vector.getElem_set, Fin.val_inj, eq_comm]
  split <;> rfl

@[simp] theorem written_valid (L : CacheLine D) (i : D.Off) (v : D.Word) : (L.written i v).valid = L.valid := rfl
@[simp] theorem written_tag (L : CacheLine D) (i : D.Off) (v : D.Word) : (L.written i v).tag = L.tag := rfl
@[simp] theorem written_dirty (L : CacheLine D) (i : D.Off) (v : D.Word) : (L.written i v).dirty = true := rfl
theorem written_data (L : CacheLine D) (i k : D.Off) (v : D.Word) :
    (L.written i v).data[k] = if i = k then v else L.data[k] := by
  simp only [CacheLine.written, CacheLine.setData, Fin.getElem_fin, Vector.getElem_set, Fin.val_inj]

theorem slotOf_eq_some {c : CacheSet D} {t : D.Tag} {w : D.Way} (h : c.slotOf t = some w) : c.line[w].holds t = true := by
  simpa using List.find?_some h

theorem slotOf_eq_none {c : CacheSet D} {t : D.Tag} : c.slotOf t = none ↔ ∀ w : D.Way, c.line[w].holds t = false := by
  simp only [CacheSet.slotOf, List.find?_eq_none]
  constructor
  · intro h w
    have := h w (List.mem_finRange w)
    simpa using this
  · intro h w _
    show ¬ (c.line[w].holds t = true)
    rw [h w]
    simp

theorem holds_iff {L : CacheLine D} {t : D.Tag} : L.holds t = true ↔ L.valid = true ∧ L.tag = t := by
  simp [CacheLine.holds]

/-- A hit: the slot found holds the tag. -/
theorem lookup_eq_some {s : State D} {wa : D.WordAddr} {w : D.Way} (h : s.lookup wa = some w) :
    (s.line (D.setOf wa) w).valid = true ∧ (s.line (D.setOf wa) w).tag = D.tagOf wa :=
  holds_iff.1 (slotOf_eq_some h)

/-- A miss: no slot of the set holds the tag. -/
theorem lookup_eq_none {s : State D} {wa : D.WordAddr} :
    s.lookup wa = none ↔ ∀ w, (s.line (D.setOf wa) w).valid = true → (s.line (D.setOf wa) w).tag ≠ D.tagOf wa := by
  unfold State.lookup
  rw [slotOf_eq_none]
  refine forall_congr' fun w => ?_
  rw [← Bool.not_eq_true, holds_iff, not_and]
  rfl

/-- Two states with the same lines find the same slots. -/
theorem lookup_congr {s t : State D} {wa wb : D.WordAddr} (hset : D.setOf wb = D.setOf wa) (htag : D.tagOf wb = D.tagOf wa)
    (h : ∀ w, t.line (D.setOf wa) w = s.line (D.setOf wa) w) : t.lookup wb = s.lookup wa := by
  unfold State.lookup CacheSet.slotOf
  simp only [hset, htag]
  have h' : ∀ w : D.Way, t.cache[D.setOf wa].line[w] = s.cache[D.setOf wa].line[w] := h
  simp only [h']

/-! ## What a data access leaves alone -/

/-- Everything but the cache, the backing store, the status and the counters other than `insn_count`. -/
structure DataFrame (s t : State D) : Prop where
  regs     : t.regs = s.regs
  pc       : t.pc = s.pc
  npc      : t.npc = s.npc
  fd       : t.fd = s.fd
  de       : t.de = s.de
  em       : t.em = s.em
  mw       : t.mw = s.mw
  unmapped : t.unmapped = s.unmapped
  insn     : t.counters.insnCount = s.counters.insnCount

theorem DataFrame.refl (s : State D) : DataFrame s s := ⟨rfl, rfl, rfl, rfl, rfl, rfl, rfl, rfl, rfl⟩

theorem DataFrame.trans {s t u : State D} (h : DataFrame s t) (k : DataFrame t u) : DataFrame s u :=
  ⟨k.regs.trans h.regs, k.pc.trans h.pc, k.npc.trans h.npc, k.fd.trans h.fd, k.de.trans h.de, k.em.trans h.em,
    k.mw.trans h.mw, k.unmapped.trans h.unmapped, k.insn.trans h.insn⟩

theorem DataFrame.mapped {s t : State D} (h : DataFrame s t) (wa : D.WordAddr) : t.mapped wa = s.mapped wa := by
  simp only [State.mapped, h.unmapped]

theorem DataFrame.setStatus (s : State D) (x : Status D) : DataFrame s (s.setStatus x) :=
  ⟨rfl, rfl, rfl, rfl, rfl, rfl, rfl, rfl, rfl⟩
theorem DataFrame.setMem (s : State D) (x : Memory) : DataFrame s (s.setMem x) :=
  ⟨rfl, rfl, rfl, rfl, rfl, rfl, rfl, rfl, rfl⟩
theorem DataFrame.setCache (s : State D) (x : Vector (CacheSet D) D.nsets) : DataFrame s (s.setCache x) :=
  ⟨rfl, rfl, rfl, rfl, rfl, rfl, rfl, rfl, rfl⟩
theorem DataFrame.setCounters (s : State D) (x : Counters) (h : x.insnCount = s.counters.insnCount) :
    DataFrame s (s.setCounters x) := ⟨rfl, rfl, rfl, rfl, rfl, rfl, rfl, rfl, h⟩

/-- The state of a run that a MemoryFault stopped: the diagnostic has the cycle count of that moment. -/
def MemoryStopped (x : State D) : Prop := ∃ a, x.status = .faulted (.memoryFault a x.counters.cycleCount)

/-- A run with the frame of a data access, which keeps the status if it completes and is stopped by a MemoryFault if not. -/
structure DataRun (s : State D) (r : Run D α) : Prop where
  frame  : DataFrame s r.final
  honest : r.Honest s
  cause  : ∀ x, r = .stop x → MemoryStopped x

theorem DataRun.ok {s t : State D} (a : α) (h : DataFrame s t) (hs : t.status = s.status) : DataRun s (Run.ok a t) :=
  ⟨h, hs, fun _ e => by cases e⟩

theorem DataRun.fault {s t : State D} (h : DataFrame s t) (a : D.Addr) : DataRun s (raiseMemoryFault a t : Run D α) :=
  ⟨h.trans (DataFrame.setStatus _ _), by simp, fun _ e => by cases e; exact ⟨a, rfl⟩⟩

theorem DataRun.of_frame {s t : State D} {r : Run D α} (hr : DataRun t r) (h : DataFrame s t) (hs : t.status = s.status) :
    DataRun s r := by
  refine ⟨h.trans hr.frame, ?_, hr.cause⟩
  have := hr.honest
  cases r with
  | ok a u => exact Eq.trans this hs
  | stop u => exact this

theorem DataRun.bind {β : Type} {s : State D} {r : Run D α} {f : α → State D → Run D β} (hr : DataRun s r)
    (hf : ∀ a t, DataRun t (f a t)) : DataRun s (r.bind f) := by
  cases r with
  | ok a t => exact (hf a t).of_frame hr.frame hr.honest
  | stop t => exact ⟨hr.frame, hr.honest, fun x e => hr.cause x (by cases e; rfl)⟩

theorem backendRead_run (wa : D.WordAddr) (s : State D) : DataRun s (backendRead wa s) := by
  unfold backendRead
  split
  · exact .ok _ (.refl s) rfl
  · exact .fault (.refl s) _

theorem backendWrite_run (wa : D.WordAddr) (v : D.Word) (s : State D) : DataRun s (backendWrite wa v s) := by
  unfold backendWrite
  split
  · exact .ok _ (.setMem s _) rfl
  · exact .fault (.refl s) _

theorem DataRun.forEach {f : α → State D → Run D Unit} (hf : ∀ a t, DataRun t (f a t)) (l : List α) (s : State D) :
    DataRun s (forEach f l s) := by
  induction l generalizing s with
  | nil => exact .ok _ (.refl s) rfl
  | cons a l ih => exact (hf a s).bind fun _ t => ih t

theorem writeBackLine_run (L : CacheLine D) (i : D.SetIx) (s : State D) : DataRun s (writeBackLine L i s) :=
  DataRun.forEach (fun _ t => backendWrite_run _ _ t) _ s

theorem evict_run (L : CacheLine D) (i : D.SetIx) (s : State D) : DataRun s (evict L i s) := by
  unfold evict
  split
  · split
    · refine DataRun.of_frame ((writeBackLine_run L i _).bind fun _ t => ?_) (DataFrame.setCounters s _ rfl) rfl
      exact .ok _ (DataFrame.setCounters t _ rfl) rfl
    · exact .ok _ (DataFrame.setCounters s _ rfl) rfl
  · exact .ok _ (.refl s) rfl

theorem loadLineWord_run (b : D.WordAddr) (i : D.SetIx) (w : D.Way) (k : D.Off) (s : State D) : DataRun s (loadLineWord b i w k s) :=
  (backendRead_run _ s).bind fun _ t => .ok _ (DataFrame.setCache t _) rfl

theorem fill_run (b : D.WordAddr) (s : State D) : DataRun s (fill b s) := by
  refine DataRun.of_frame ((evict_run _ _ _).bind fun _ t => ?_) (DataFrame.setCache s _) rfl
  exact (DataRun.forEach (fun k u => loadLineWord_run b _ _ k u) _ _).of_frame (DataFrame.setCache t _) rfl

theorem readWord_run (C : Config D) (wa : D.WordAddr) (s : State D) : DataRun s (readWord C wa s) := by
  unfold readWord
  split
  · exact .ok _ (DataFrame.setCounters s _ rfl) rfl
  · refine DataRun.of_frame ((backendRead_run _ _).bind fun v t => ?_) (DataFrame.setCounters s _ rfl) rfl
    exact (fill_run _ t).bind fun _ u => .ok _ (.refl u) rfl

theorem writeWord_run (C : Config D) (wa : D.WordAddr) (v : D.Word) (s : State D) : DataRun s (writeWord C wa v s) := by
  unfold writeWord
  split
  · exact .ok _ ((DataFrame.setCache s _).trans (DataFrame.setCounters _ _ rfl)) rfl
  · refine DataRun.of_frame ((backendWrite_run _ _ _).bind fun _ t => ?_) (DataFrame.setCounters s _ rfl) rfl
    exact fill_run _ t

theorem dRead_run (C : Config D) (ea : D.Addr) (s : State D) : DataRun s (dRead C ea s) := by
  unfold dRead
  split
  · exact readWord_run C _ s
  · exact .fault (.refl s) _

theorem dWrite_run (C : Config D) (ea : D.Addr) (v : D.Word) (s : State D) : DataRun s (dWrite C ea v s) := by
  unfold dWrite
  split
  · exact writeWord_run C _ v s
  · exact .fault (.refl s) _

/-! ## The closed form of a line fill (42_cache.md R160 to R163) -/

/-- The backing store after the words of a line are written back. -/
def writeBackMem (m : Memory) (L : CacheLine D) (i : D.SetIx) : Memory :=
  (List.finRange D.lineWords).foldl (fun m k => setMemWord m (D.lineWord (D.baseOf L.tag i) k) L.data[k]) m

/-- The backing store after the victim line is evicted. -/
def evictMem (m : Memory) (L : CacheLine D) (i : D.SetIx) : Memory :=
  if L.valid = true ∧ L.dirty = true then writeBackMem m L i else m

/-- The counters after the victim line is evicted. -/
def evictCounters (c : Counters) (L : CacheLine D) : Counters :=
  if L.valid then if L.dirty then c.countReplace.countWb else c.countReplace else c

/-- The line a fill installs, with the words of the backing store. -/
def filledLine (m : Memory) (b : D.WordAddr) : CacheLine D :=
  ⟨Vector.ofFn fun k => memWord m (D.lineWord b k), D.tagOf b, false, true⟩

/-- The state after a fill that completes. -/
def State.filled (s : State D) (b : D.WordAddr) : State D :=
  let i := D.setOf b
  let w := s.cursor i
  let m := evictMem s.mem (s.line i w) i
  (((s.setCursor i (D.nextWay w)).setMem m).setCounters (evictCounters s.counters (s.line i w))).setLine i w (filledLine m b)

theorem backendRead_eq_ok {wa : D.WordAddr} {s t : State D} {v : D.Word} :
    backendRead wa s = .ok v t ↔ s.mapped wa = true ∧ v = memWord s.mem wa ∧ t = s := by
  unfold backendRead
  split
  · next h => simp [h, eq_comm]
  · next h => simp [h]

theorem backendWrite_eq_ok {wa : D.WordAddr} {v : D.Word} {s t : State D} {u : Unit} :
    backendWrite wa v s = .ok u t ↔ s.mapped wa = true ∧ t = s.setMem (setMemWord s.mem wa v) := by
  unfold backendWrite
  split
  · next h => simp [h, eq_comm]
  · next h => simp [h]

theorem setMem_setMem (s : State D) (m m' : Memory) : (s.setMem m).setMem m' = s.setMem m' := rfl

/-- A list of writes completes exactly when every word is mapped. -/
theorem forEach_write_eq_ok {ι : Type} {addr : ι → D.WordAddr} {val : ι → D.Word} {l : List ι} {s t : State D}
    {u : Unit} : forEach (fun k s => backendWrite (addr k) (val k) s) l s = .ok u t ↔
      (∀ k ∈ l, s.mapped (addr k) = true) ∧
        t = s.setMem (l.foldl (fun m k => setMemWord m (addr k) (val k)) s.mem) := by
  induction l generalizing s with
  | nil =>
    constructor
    · intro e
      cases e
      exact ⟨by simp, rfl⟩
    · rintro ⟨-, rfl⟩
      rfl
  | cons k l ih =>
    rw [forEach, bind_eq_ok]
    simp only [backendWrite_eq_ok, ih, List.forall_mem_cons, List.foldl_cons]
    constructor
    · rintro ⟨_, _, ⟨h, rfl⟩, hl, rfl⟩
      exact ⟨⟨h, hl⟩, rfl⟩
    · rintro ⟨⟨h, hl⟩, rfl⟩
      exact ⟨(), _, ⟨h, rfl⟩, hl, rfl⟩

theorem writeBackLine_eq_ok {L : CacheLine D} {i : D.SetIx} {s t : State D} {u : Unit} :
    writeBackLine L i s = .ok u t ↔
      (∀ k, s.mapped (D.lineWord (D.baseOf L.tag i) k) = true) ∧ t = s.setMem (writeBackMem s.mem L i) := by
  unfold writeBackLine forWords writeBackMem
  rw [forEach_write_eq_ok]
  simp only [List.mem_finRange, true_implies]

theorem evict_eq_ok {L : CacheLine D} {i : D.SetIx} {s t : State D} {u : Unit} :
    evict L i s = .ok u t ↔
      (L.valid = true → L.dirty = true → ∀ k, s.mapped (D.lineWord (D.baseOf L.tag i) k) = true) ∧
        t = (s.setMem (evictMem s.mem L i)).setCounters (evictCounters s.counters L) := by
  unfold evict evictMem evictCounters
  by_cases hv : L.valid = true
  · by_cases hd : L.dirty = true
    · simp only [hv, hd, if_true, true_implies, and_self, bind_eq_ok, writeBackLine_eq_ok]
      constructor
      · rintro ⟨_, _, ⟨h, rfl⟩, e⟩
        cases e
        exact ⟨h, rfl⟩
      · rintro ⟨h, rfl⟩
        exact ⟨(), _, ⟨h, rfl⟩, rfl⟩
    · simp only [hv, hd, if_true, false_implies, and_false, if_false, Bool.false_eq_true, implies_true, true_and]
      constructor
      · intro e
        cases e
        rfl
      · rintro rfl
        rfl
  · simp only [hv, if_false, false_implies, false_and, Bool.false_eq_true, true_and]
    constructor
    · intro e
      cases e
      rfl
    · rintro rfl
      rfl

theorem loadLineWord_eq_ok {b : D.WordAddr} {i : D.SetIx} {w : D.Way} {k : D.Off} {s t : State D} {u : Unit} :
    loadLineWord b i w k s = .ok u t ↔
      s.mapped (D.lineWord b k) = true ∧ t = s.setLine i w ((s.line i w).setData k (memWord s.mem (D.lineWord b k))) := by
  unfold loadLineWord
  simp only [bind_eq_ok, backendRead_eq_ok]
  constructor
  · rintro ⟨_, _, ⟨h, rfl, rfl⟩, e⟩
    cases e
    exact ⟨h, rfl⟩
  · rintro ⟨h, rfl⟩
    exact ⟨_, _, ⟨h, rfl, rfl⟩, rfl⟩

@[simp] theorem setLine_counters (s : State D) (i : D.SetIx) (w : D.Way) (L : CacheLine D) :
    (s.setLine i w L).counters = s.counters := rfl
@[simp] theorem setLine_mem (s : State D) (i : D.SetIx) (w : D.Way) (L : CacheLine D) : (s.setLine i w L).mem = s.mem := rfl
@[simp] theorem setLine_mapped (s : State D) (i : D.SetIx) (w : D.Way) (L : CacheLine D) (wa : D.WordAddr) :
    (s.setLine i w L).mapped wa = s.mapped wa := rfl
@[simp] theorem setCursor_mem (s : State D) (i : D.SetIx) (w : D.Way) : (s.setCursor i w).mem = s.mem := rfl
@[simp] theorem setCursor_counters (s : State D) (i : D.SetIx) (w : D.Way) : (s.setCursor i w).counters = s.counters := rfl
@[simp] theorem setCursor_mapped (s : State D) (i : D.SetIx) (w : D.Way) (wa : D.WordAddr) :
    (s.setCursor i w).mapped wa = s.mapped wa := rfl
@[simp] theorem setLine_line_self (s : State D) (i : D.SetIx) (w : D.Way) (L : CacheLine D) :
    (s.setLine i w L).line i w = L := by
  simp [setLine_line]

@[simp] theorem setLine_setLine (s : State D) (i : D.SetIx) (w : D.Way) (L L' : CacheLine D) :
    (s.setLine i w L).setLine i w L' = s.setLine i w L' := by
  simp [State.setLine, State.setCache]

theorem setLine_self (s : State D) (i : D.SetIx) (w : D.Way) : s.setLine i w (s.line i w) = s := by
  have h : s.cache.set i { s.cache[i] with line := s.cache[i].line.set w (s.line i w) } = s.cache := by
    simp only [State.line, Fin.getElem_fin, Vector.set_getElem_self]
    exact Vector.set_getElem_self _
  exact congrArg s.setCache h

/-- The data of a line after the words of a list are loaded. -/
def loadData (m : Memory) (b : D.WordAddr) (l : List D.Off) (d : Vector D.Word D.lineWords) :
    Vector D.Word D.lineWords :=
  l.foldl (fun d (k : D.Off) => d.set k.val (memWord m (D.lineWord b k))) d

theorem loadData_get (m : Memory) (b : D.WordAddr) (l : List D.Off) (d : Vector D.Word D.lineWords) (j : D.Off) :
    (loadData m b l d)[j] = if j ∈ l then memWord m (D.lineWord b j) else d[j] := by
  induction l generalizing d with
  | nil => rfl
  | cons k l ih =>
    have h := ih (d.set k.val (memWord m (D.lineWord b k)))
    rw [show loadData m b (k :: l) d = loadData m b l (d.set k.val (memWord m (D.lineWord b k))) from rfl, h]
    simp only [Fin.getElem_fin, Vector.getElem_set, Fin.val_inj, List.mem_cons]
    by_cases hl : j ∈ l
    · simp [hl]
    · by_cases hk : k = j
      · subst hk
        simp
      · simp [hl, hk, Ne.symm hk]

theorem loadData_all (m : Memory) (b : D.WordAddr) (d : Vector D.Word D.lineWords) :
    loadData m b (List.finRange D.lineWords) d = (filledLine m b).data := by
  apply Vector.ext
  intro j hj
  have := loadData_get m b (List.finRange D.lineWords) d ⟨j, hj⟩
  rw [if_pos (List.mem_finRange _)] at this
  simpa [filledLine] using this

theorem forEach_load_eq_ok {b : D.WordAddr} {i : D.SetIx} {w : D.Way} {l : List D.Off} {s t : State D} {u : Unit} :
    forEach (loadLineWord b i w) l s = .ok u t ↔ (∀ k ∈ l, s.mapped (D.lineWord b k) = true) ∧
      t = s.setLine i w { s.line i w with data := loadData s.mem b l (s.line i w).data } := by
  induction l generalizing s with
  | nil =>
    have h : s.setLine i w { s.line i w with data := loadData s.mem b [] (s.line i w).data } = s := setLine_self s i w
    rw [h]
    constructor
    · intro e
      cases e
      exact ⟨by simp, rfl⟩
    · rintro ⟨-, rfl⟩
      rfl
  | cons k l ih =>
    rw [forEach, bind_eq_ok]
    simp only [loadLineWord_eq_ok, ih, List.forall_mem_cons]
    constructor
    · rintro ⟨_, _, ⟨h, rfl⟩, hl, rfl⟩
      refine ⟨⟨h, hl⟩, ?_⟩
      rw [setLine_setLine, setLine_line_self, setLine_mem]
      rfl
    · rintro ⟨⟨h, hl⟩, rfl⟩
      refine ⟨(), _, ⟨h, rfl⟩, hl, ?_⟩
      rw [setLine_setLine, setLine_line_self, setLine_mem]
      rfl

/-- The loads of a fill. -/
theorem loadLine_eq_ok {b : D.WordAddr} {i : D.SetIx} {w : D.Way} {s t : State D} {u : Unit} :
    forWords (loadLineWord b i w) s = .ok u t ↔ (∀ k, s.mapped (D.lineWord b k) = true) ∧
      t = s.setLine i w { s.line i w with data := (filledLine s.mem b).data } := by
  unfold forWords
  rw [forEach_load_eq_ok, loadData_all]
  simp only [List.mem_finRange, true_implies]

/-- A fill completes exactly when the victim's words, if it must be written back, and the new line's words are mapped. -/
theorem fill_eq_ok {b : D.WordAddr} {s t : State D} {u : Unit} :
    fill b s = .ok u t ↔
      ((s.line (D.setOf b) (s.cursor (D.setOf b))).valid = true →
        (s.line (D.setOf b) (s.cursor (D.setOf b))).dirty = true →
        ∀ k, s.mapped (D.lineWord (D.baseOf (s.line (D.setOf b) (s.cursor (D.setOf b))).tag (D.setOf b)) k) = true) ∧
      (∀ k, s.mapped (D.lineWord b k) = true) ∧ t = s.filled b := by
  unfold fill
  simp only []
  rw [bind_eq_ok]
  simp only [evict_eq_ok, loadLine_eq_ok, setLine_line_self, setLine_setLine, setLine_mem, setLine_mapped,
    setCursor_mapped, setCursor_mem, setCursor_counters]
  constructor
  · rintro ⟨_, _, ⟨he, rfl⟩, h, rfl⟩
    simp only [setCounters_mapped, setMem_mapped, setCursor_mapped] at h
    exact ⟨he, h, rfl⟩
  · rintro ⟨he, h, rfl⟩
    refine ⟨(), _, ⟨he, rfl⟩, ?_, rfl⟩
    simpa only [setCounters_mapped, setMem_mapped, setCursor_mapped] using h

end Sys2Proof.Machine
end

