-- ==== Sys2Proof/Laws/ArchMem.lean ====
section
/-! SUPPORT. What `read_word` and `write_word` do to the memory a program sees (20_memory.md R52), and that they keep the
cache invariants (10_state.md R25). -/

namespace Sys2Proof.Machine

variable {D : Sizes}

/-! ## The two operations, case by case -/

/-- The victim of the next fill of the set of `b`, if it must be written back, lies in mapped words. -/
abbrev victimMapped (s : State D) (b : D.WordAddr) : Prop :=
  (s.line (D.setOf b) (s.cursor (D.setOf b))).valid = true →
    (s.line (D.setOf b) (s.cursor (D.setOf b))).dirty = true →
    ∀ k, s.mapped (D.lineWord (D.baseOf (s.line (D.setOf b) (s.cursor (D.setOf b))).tag (D.setOf b)) k) = true

/-- `read_word` completes in one of two ways: a hit (42_cache.md R154) or a miss (R155). -/
theorem readWord_eq_ok {C : Config D} {wa : D.WordAddr} {s t : State D} {v : D.Word} :
    readWord C wa s = .ok v t ↔
      (∃ w, s.lookup wa = some w ∧ v = (s.line (D.setOf wa) w).data[D.offOf wa] ∧ t = s.setCounters s.counters.countHit) ∨
      (s.lookup wa = none ∧ s.mapped wa = true ∧ victimMapped s (D.lineBase wa) ∧ lineMapped s wa ∧
        v = memWord s.mem wa ∧ t = (s.setCounters (s.counters.countMiss C.missPenalty)).filled (D.lineBase wa)) := by
  unfold readWord
  cases h : s.lookup wa with
  | some w =>
    constructor
    · intro e
      cases e
      exact .inl ⟨w, rfl, rfl, rfl⟩
    · rintro (⟨w', e, rfl, rfl⟩ | ⟨e, -⟩)
      · cases e
        rfl
      · cases e
  | none =>
    simp only [bind_eq_ok, backendRead_eq_ok, fill_eq_ok]
    constructor
    · rintro ⟨_, _, ⟨hm, rfl, rfl⟩, _, _, ⟨hv, hl, rfl⟩, e⟩
      cases e
      exact .inr ⟨trivial, hm, hv, hl, rfl, rfl⟩
    · rintro (⟨w, e, -⟩ | ⟨-, hm, hv, hl, rfl, rfl⟩)
      · cases e
      · exact ⟨_, _, ⟨hm, rfl, rfl⟩, (), _, ⟨hv, hl, rfl⟩, rfl⟩

/-- `write_word` completes in one of two ways: a hit (42_cache.md R157) or a miss (R158). -/
theorem writeWord_eq_ok {C : Config D} {wa : D.WordAddr} {v : D.Word} {s t : State D} {u : Unit} :
    writeWord C wa v s = .ok u t ↔
      (∃ w, s.lookup wa = some w ∧ t =
        (s.setLine (D.setOf wa) w ((s.line (D.setOf wa) w).written (D.offOf wa) v)).setCounters
          s.counters.countHit) ∨
      (s.lookup wa = none ∧ s.mapped wa = true ∧ victimMapped s (D.lineBase wa) ∧ lineMapped s wa ∧
        t = ((s.setCounters (s.counters.countMiss C.missPenalty)).setMem (setMemWord s.mem wa v)).filled
          (D.lineBase wa)) := by
  unfold writeWord
  cases h : s.lookup wa with
  | some w =>
    constructor
    · intro e
      cases e
      exact .inl ⟨w, rfl, rfl⟩
    · rintro (⟨w', e, rfl⟩ | ⟨e, -⟩)
      · cases e
        rfl
      · cases e
  | none =>
    simp only [bind_eq_ok, backendWrite_eq_ok, fill_eq_ok]
    constructor
    · rintro ⟨_, _, ⟨hm, rfl⟩, hv, hl, rfl⟩
      exact .inr ⟨trivial, hm, hv, hl, rfl⟩
    · rintro (⟨w, e, -⟩ | ⟨-, hm, hv, hl, rfl⟩)
      · cases e
      · exact ⟨(), _, ⟨hm, rfl⟩, hv, hl, rfl⟩

/-! ## The state after a fill -/

theorem filled_line (s : State D) (b : D.WordAddr) (j : D.SetIx) (v : D.Way) :
    (s.filled b).line j v = if j = D.setOf b ∧ v = s.cursor (D.setOf b) then
      filledLine (evictMem s.mem (s.line (D.setOf b) (s.cursor (D.setOf b))) (D.setOf b)) b else s.line j v := by
  unfold State.filled
  simp only [setLine_line, setCounters_line, setMem_line, setCursor_line]

theorem filled_mem (s : State D) (b : D.WordAddr) :
    (s.filled b).mem = evictMem s.mem (s.line (D.setOf b) (s.cursor (D.setOf b))) (D.setOf b) := rfl

theorem filledLine_data (m : Memory) (b : D.WordAddr) (k : D.Off) :
    (filledLine m b).data[k] = memWord m (D.lineWord b k) := by
  simp [filledLine]

/-- A written-back line is in the backing store. -/
theorem memWord_writeBack {m : Memory} (h : Memory.wf D m = true) (L : CacheLine D) (i : D.SetIx) (k : D.Off) :
    memWord (writeBackMem m L i) (D.lineWord (D.baseOf L.tag i) k) = L.data[k] :=
  memWord_foldl_mem (addr := fun k => D.lineWord (D.baseOf L.tag i) k) (fun k => L.data[k]) h
    (fun _ _ e => (lineWord_inj e).2.2) (List.nodup_finRange _) (List.mem_finRange k)

theorem writeBackMem_wf {m : Memory} (h : Memory.wf D m = true) (L : CacheLine D) (i : D.SetIx) :
    Memory.wf D (writeBackMem m L i) = true := foldl_setMemWord_wf _ _ _ h

theorem evictMem_wf {m : Memory} (h : Memory.wf D m = true) (L : CacheLine D) (i : D.SetIx) :
    Memory.wf D (evictMem m L i) = true := by
  unfold evictMem
  split
  · exact writeBackMem_wf h L i
  · exact h

/-- An eviction writes no word of another line. -/
theorem memWord_evict_ne (m : Memory) (L : CacheLine D) (i : D.SetIx) (wa : D.WordAddr)
    (h : L.valid = true → ¬ (D.tagOf wa = L.tag ∧ D.setOf wa = i)) : memWord (evictMem m L i) wa = memWord m wa := by
  unfold evictMem
  split
  · next hv =>
    exact memWord_foldl_ne _ _ _ _ fun k _ e => h hv.1 (by subst e; simp)
  · rfl

/-- After the eviction of a valid line the backing store holds the line's words. -/
theorem memWord_evict_self {m : Memory} (h : Memory.wf D m = true) {L : CacheLine D} {i : D.SetIx} {wb : D.WordAddr}
    (ht : D.tagOf wb = L.tag) (hs : D.setOf wb = i) (hv : L.valid = true)
    (hc : L.dirty = false → ∀ k : D.Off, L.data[k] = memWord m (D.lineWord (D.baseOf L.tag i) k)) :
    memWord (evictMem m L i) wb = L.data[D.offOf wb] := by
  have hwb : D.lineWord (D.baseOf L.tag i) (D.offOf wb) = wb := by rw [← ht, ← hs, lineWord_self]
  unfold evictMem
  cases hd : L.dirty with
  | true =>
    rw [if_pos ⟨hv, rfl⟩]
    have := memWord_writeBack h L i (D.offOf wb)
    rwa [hwb] at this
  | false =>
    rw [if_neg (fun e => by cases e.2)]
    have := hc hd (D.offOf wb)
    rw [hwb] at this
    exact this.symm

/-- After a miss is filled the word is present, with the value the backing store had. -/
theorem filled_present {s : State D} {wa : D.WordAddr} (hmiss : s.lookup wa = none) :
    (s.filled (D.lineBase wa)).lookup wa = some (s.cursor (D.setOf wa)) ∧
      (s.filled (D.lineBase wa)).archMem wa = memWord s.mem wa := by
  have hline := filled_line s (D.lineBase wa)
  simp only [setOf_lineBase] at hline
  have hm := lookup_eq_none.1 hmiss
  have hslot : (s.filled (D.lineBase wa)).lookup wa = some (s.cursor (D.setOf wa)) := by
    cases hl : (s.filled (D.lineBase wa)).lookup wa with
    | none =>
      have := lookup_eq_none.1 hl (s.cursor (D.setOf wa))
      rw [hline, if_pos ⟨rfl, rfl⟩] at this
      exact absurd (tagOf_lineBase wa) (this rfl)
    | some w =>
      have h := lookup_eq_some hl
      rw [hline] at h
      split at h
      · next hw => rw [hw.2]
      · exact absurd h.2 (hm w h.1)
  refine ⟨hslot, ?_⟩
  unfold State.archMem
  rw [hslot]
  simp only []
  rw [hline, if_pos ⟨rfl, rfl⟩, filledLine_data, show D.lineWord (D.lineBase wa) (D.offOf wa) = wa by rw [lineBase_eq, lineWord_self]]
  exact memWord_evict_ne _ _ _ _ fun hv e => hm _ hv e.1.symm

/-- A read that completes leaves the word present with the value returned (42_cache.md R165). -/
theorem readWord_present {C : Config D} {wa : D.WordAddr} {s t : State D} {v : D.Word} (h : readWord C wa s = .ok v t) :
    (∃ w, t.lookup wa = some w) ∧ t.archMem wa = v := by
  rcases readWord_eq_ok.1 h with ⟨w, hl, rfl, rfl⟩ | ⟨hl, -, -, -, rfl, rfl⟩
  · refine ⟨⟨w, hl⟩, ?_⟩
    simp [State.archMem, hl]
  · have := filled_present (s := s.setCounters (s.counters.countMiss C.missPenalty)) hl
    exact ⟨⟨_, this.1⟩, this.2⟩

/-! ## The memory a program sees -/

/-- The word in a valid line is the architectural word. -/
theorem archMem_of_line {s : State D} (h : LinesInv s) {wa : D.WordAddr} {w : D.Way}
    (hv : (s.line (D.setOf wa) w).valid = true) (ht : (s.line (D.setOf wa) w).tag = D.tagOf wa) :
    s.archMem wa = (s.line (D.setOf wa) w).data[D.offOf wa] := by
  unfold State.archMem
  cases hl : s.lookup wa with
  | none => exact absurd ht (lookup_eq_none.1 hl w hv)
  | some w' =>
    have h' := lookup_eq_some hl
    rw [h.unique _ w' w h'.1 hv (h'.2.trans ht.symm)]

theorem archMem_of_miss {s : State D} {wa : D.WordAddr} (h : s.lookup wa = none) : s.archMem wa = memWord s.mem wa := by
  unfold State.archMem
  rw [h]

theorem miss_congr {s : State D} {wa wb : D.WordAddr} (h : s.lookup wa = none) (ht : D.tagOf wb = D.tagOf wa)
    (hs : D.setOf wb = D.setOf wa) : s.lookup wb = none := by
  rw [lookup_eq_none] at *
  rw [hs, ht]
  exact h

/-- A fill after a miss keeps the cache invariants. -/
theorem filled_inv {s : State D} (h : MemoryInv s) {wa : D.WordAddr} (hmiss : s.lookup wa = none) :
    MemoryInv (s.filled (D.lineBase wa)) := by
  have hline := filled_line s (D.lineBase wa)
  simp only [setOf_lineBase] at hline
  have hm := lookup_eq_none.1 hmiss
  refine ⟨?_, ⟨?_, ?_⟩, ?_⟩
  · rw [filled_mem]
    exact evictMem_wf h.wf _ _
  · intro i w w'
    rw [hline i w, hline i w']
    split
    · next hw =>
      split
      · next hw' => intros; rw [hw.2, hw'.2]
      · intro _ hv ht
        rw [hw.1] at hv ht
        exact absurd (ht.symm.trans (tagOf_lineBase wa)) (hm w' hv)
    · split
      · next hw' =>
        intro hv _ ht
        rw [hw'.1] at hv ht
        exact absurd (ht.trans (tagOf_lineBase wa)) (hm w hv)
      · exact h.lines.unique i w w'
  · intro i w
    rw [hline i w]
    split
    · intro _; rfl
    · exact h.lines.clean i w
  · intro i w
    rw [hline i w, filled_mem, setOf_lineBase]
    split
    · next hw =>
      intro _ _ k
      rw [filledLine_data]
      simp only [filledLine, tagOf_lineBase, hw.1, ← lineBase_eq]
    · next hw =>
      intro hv hd k
      rw [memWord_evict_ne _ _ _ _ ?_]
      · exact h.coherent i w hv hd k
      · rintro hv' ⟨ht, hs⟩
        simp only [tagOf_lineWord, setOf_lineWord] at ht hs
        subst hs
        exact hw ⟨rfl, h.lines.unique _ _ _ hv hv' ht⟩

/-- A fill after a miss changes the architectural memory nowhere. -/
theorem filled_archMem {s : State D} (h : MemoryInv s) {wa : D.WordAddr} (hmiss : s.lookup wa = none) (wb : D.WordAddr) :
    (s.filled (D.lineBase wa)).archMem wb = s.archMem wb := by
  have hinv := filled_inv h hmiss
  have hline := filled_line s (D.lineBase wa)
  simp only [setOf_lineBase] at hline
  have hm := lookup_eq_none.1 hmiss
  by_cases hnew : D.tagOf wb = D.tagOf wa ∧ D.setOf wb = D.setOf wa
  · have hmb := miss_congr hmiss hnew.1 hnew.2
    have hb : D.lineBase wa = D.lineBase wb := by rw [lineBase_eq, lineBase_eq, hnew.1, hnew.2]
    rw [hb, (filled_present hmb).2, archMem_of_miss hmb]
  · cases hl : s.lookup wb with
    | some w =>
      have hw := lookup_eq_some hl
      rw [archMem_of_line h.lines hw.1 hw.2]
      by_cases hvict : D.setOf wb = D.setOf wa ∧ w = s.cursor (D.setOf wa)
      · -- the word stood in the victim line
        have hnone : (s.filled (D.lineBase wa)).lookup wb = none := by
          rw [lookup_eq_none]
          intro v hv ht
          rw [hline] at hv ht
          split at hv
          · next hvv =>
            rw [if_pos hvv] at ht
            exact hnew ⟨ht.symm.trans (tagOf_lineBase wa), hvv.1⟩
          · next hvv =>
            rw [if_neg hvv] at ht
            exact hvv ⟨hvict.1, (h.lines.unique _ _ _ hv hw.1 (ht.trans hw.2.symm)).trans hvict.2⟩
        rw [archMem_of_miss hnone, filled_mem, setOf_lineBase]
        rw [← hvict.1, ← show w = s.cursor (D.setOf wb) by simp only [hvict.1]; exact hvict.2]
        exact memWord_evict_self h.wf hw.2.symm rfl hw.1 (h.coherent _ _ hw.1)
      · have hsame : (s.filled (D.lineBase wa)).line (D.setOf wb) w = s.line (D.setOf wb) w := by
          rw [hline, if_neg hvict]
        rw [archMem_of_line hinv.lines (by rw [hsame]; exact hw.1) (by rw [hsame]; exact hw.2), hsame]
    | none =>
      have hm' := lookup_eq_none.1 hl
      have hnone : (s.filled (D.lineBase wa)).lookup wb = none := by
        rw [lookup_eq_none]
        intro v hv ht
        rw [hline] at hv ht
        split at hv
        · next hvv =>
          rw [if_pos hvv] at ht
          exact hnew ⟨ht.symm.trans (tagOf_lineBase wa), hvv.1⟩
        · next hvv =>
          rw [if_neg hvv] at ht
          exact hm' v hv ht
      rw [archMem_of_miss hnone, archMem_of_miss hl, filled_mem, setOf_lineBase]
      refine memWord_evict_ne _ _ _ _ fun hv e => ?_
      rw [← e.2] at hv
      have := hm' _ hv
      exact this (by rw [e.2]; exact e.1.symm)

/-- MemoryInv looks at the cache and the backing store only. -/
theorem MemoryInv.congr {s t : State D} (h : MemoryInv s) (hc : t.cache = s.cache) (hm : t.mem = s.mem) :
    MemoryInv t := by
  have hl : ∀ i w, t.line i w = s.line i w := fun i w => by simp only [State.line, hc]
  refine ⟨by rw [hm]; exact h.wf, ⟨?_, ?_⟩, ?_⟩
  · intro i w w'
    rw [hl, hl]
    exact h.lines.unique i w w'
  · intro i w
    rw [hl]
    exact h.lines.clean i w
  · intro i w
    rw [hl, hm]
    exact h.coherent i w

/-- A completed `read_word` returns the architectural word, changes the architectural memory nowhere and keeps the
invariants (20_memory.md R52). -/
theorem readWord_archMem {C : Config D} {wa : D.WordAddr} {s t : State D} {v : D.Word} (hi : MemoryInv s)
    (h : readWord C wa s = .ok v t) :
    v = s.archMem wa ∧ MemoryInv t ∧ ∀ wb, t.archMem wb = s.archMem wb := by
  rcases readWord_eq_ok.1 h with ⟨w, hl, rfl, rfl⟩ | ⟨hl, -, -, -, rfl, rfl⟩
  · refine ⟨?_, hi.congr rfl rfl, fun _ => rfl⟩
    simp [State.archMem, hl]
  · have hi' : MemoryInv (s.setCounters (s.counters.countMiss C.missPenalty)) := hi.congr rfl rfl
    exact ⟨(archMem_of_miss hl).symm, filled_inv hi' hl, fun wb => filled_archMem hi' hl wb⟩

/-- A write of one data word into a line that holds it. -/
theorem setLine_data_inv {s : State D} (hi : MemoryInv s) {wa : D.WordAddr} {w : D.Way} (v : D.Word)
    (hl : s.lookup wa = some w) :
    MemoryInv (s.setLine (D.setOf wa) w ((s.line (D.setOf wa) w).written (D.offOf wa) v)) := by
  have hw := lookup_eq_some hl
  refine ⟨hi.wf, ⟨?_, ?_⟩, ?_⟩
  · intro i u u'
    have key : ∀ x, ((s.setLine (D.setOf wa) w ((s.line (D.setOf wa) w).written (D.offOf wa) v)).line i x).valid =
        (s.line i x).valid := by
      intro x
      rw [setLine_line]
      split
      · next h => rw [h.1, h.2]; rfl
      · rfl
    have keyt : ∀ x, ((s.setLine (D.setOf wa) w ((s.line (D.setOf wa) w).written (D.offOf wa) v)).line i
        x).tag = (s.line i x).tag := by
      intro x
      rw [setLine_line]
      split
      · next h => rw [h.1, h.2]; rfl
      · rfl
    intro h1 h2 h3
    rw [key] at h1 h2
    rw [keyt, keyt] at h3
    exact hi.lines.unique i u u' h1 h2 h3
  · intro i u
    rw [setLine_line]
    split
    · intro hv
      exact absurd hv (by simp [hw.1])
    · exact hi.lines.clean i u
  · intro i u
    rw [setLine_line, setLine_mem]
    split
    · intro _ hd
      exact absurd hd (by simp)
    · exact hi.coherent i u

theorem archMem_setLine_data {s : State D} (hi : MemoryInv s) {wa : D.WordAddr} {w : D.Way} (v : D.Word)
    (hl : s.lookup wa = some w) (wb : D.WordAddr) :
    (s.setLine (D.setOf wa) w ((s.line (D.setOf wa) w).written (D.offOf wa) v)).archMem wb =
      if wb = wa then v else s.archMem wb := by
  have hinv := setLine_data_inv hi v hl
  have hw := lookup_eq_some hl
  by_cases hsame : D.setOf wb = D.setOf wa ∧ D.tagOf wb = D.tagOf wa
  · have hline := setLine_line_self s (D.setOf wb) w
      ((s.line (D.setOf wa) w).written (D.offOf wa) v)
    rw [hsame.1] at hline
    rw [archMem_of_line hinv.lines (w := w) (by rw [hsame.1, hline]; exact hw.1)
      (by rw [hsame.1, hline, hsame.2]; exact hw.2)]
    rw [archMem_of_line hi.lines (wa := wb) (w := w) (by rw [hsame.1]; exact hw.1)
      (by rw [hsame.1, hsame.2]; exact hw.2)]
    rw [hsame.1, hline, written_data]
    by_cases hoff : D.offOf wa = D.offOf wb
    · have : wb = wa := by rw [← lineWord_self wb, ← lineWord_self wa, hsame.1, hsame.2, hoff]
      rw [if_pos hoff, if_pos this]
    · have : wb ≠ wa := fun e => hoff (by rw [e])
      rw [if_neg hoff, if_neg this]
  · have hne : wb ≠ wa := fun e => hsame (by rw [e]; exact ⟨rfl, rfl⟩)
    rw [if_neg hne]
    cases hb : s.lookup wb with
    | some u =>
      have hu := lookup_eq_some hb
      have hl' : (s.setLine (D.setOf wa) w ((s.line (D.setOf wa) w).written (D.offOf wa) v)).line
          (D.setOf wb) u = s.line (D.setOf wb) u := by
        rw [setLine_line, if_neg]
        rintro ⟨e1, e2⟩
        refine hsame ⟨e1, ?_⟩
        rw [← hu.2, ← hw.2, e1, e2]
      rw [archMem_of_line hinv.lines (w := u) (by rw [hl']; exact hu.1) (by rw [hl']; exact hu.2),
        archMem_of_line hi.lines hu.1 hu.2, hl']
    | none =>
      have hb' := lookup_eq_none.1 hb
      rw [archMem_of_miss hb, archMem_of_miss, setLine_mem]
      rw [lookup_eq_none]
      intro u
      rw [setLine_line]
      split
      · next h =>
        intro _ ht
        exact hsame ⟨h.1, ht.symm.trans hw.2⟩
      · exact hb' u

/-- A write of the backing store at a word that no line holds. -/
theorem setMem_miss_inv {s : State D} (hi : MemoryInv s) {wa : D.WordAddr} (v : D.Word) (hl : s.lookup wa = none) :
    MemoryInv (s.setMem (setMemWord s.mem wa v)) := by
  refine ⟨setMemWord_wf wa v hi.wf, ⟨hi.lines.unique, hi.lines.clean⟩, ?_⟩
  intro i w hv hd k
  rw [setMem_line, setMem_mem, memWord_setMemWord_ne]
  · exact hi.coherent i w hv hd k
  · rintro e
    have hs : D.setOf wa = i := by rw [← e, setOf_lineWord]
    refine lookup_eq_none.1 hl w ?_ ?_
    · rw [hs]; exact hv
    · rw [← e]
      simp

theorem archMem_setMem_miss {s : State D} (hi : MemoryInv s) {wa : D.WordAddr} (v : D.Word) (hl : s.lookup wa = none)
    (wb : D.WordAddr) : (s.setMem (setMemWord s.mem wa v)).archMem wb = if wb = wa then v else s.archMem wb := by
  by_cases hb : wb = wa
  · subst hb
    rw [if_pos rfl, archMem_of_miss (by simpa using hl), setMem_mem, memWord_setMemWord hi.wf, if_pos rfl]
  · rw [if_neg hb]
    unfold State.archMem
    rw [setMem_lookup]
    split
    · rfl
    · rw [setMem_mem, memWord_setMemWord_ne _ _ hb]

/-- A completed `write_word` makes the architectural word the value written, changes the architectural memory at no other
address and keeps the invariants (20_memory.md R52). -/
theorem writeWord_archMem {C : Config D} {wa : D.WordAddr} {v : D.Word} {s t : State D} {u : Unit} (hi : MemoryInv s)
    (h : writeWord C wa v s = .ok u t) :
    MemoryInv t ∧ ∀ wb, t.archMem wb = if wb = wa then v else s.archMem wb := by
  rcases writeWord_eq_ok.1 h with ⟨w, hl, rfl⟩ | ⟨hl, -, -, -, rfl⟩
  · exact ⟨(setLine_data_inv hi v hl).congr rfl rfl, fun wb => archMem_setLine_data hi v hl wb⟩
  · have hi0 : MemoryInv (s.setCounters (s.counters.countMiss C.missPenalty)) := hi.congr rfl rfl
    have hi1 := setMem_miss_inv hi0 v hl
    have hl1 : ((s.setCounters (s.counters.countMiss C.missPenalty)).setMem (setMemWord s.mem wa v)).lookup wa = none := hl
    refine ⟨filled_inv hi1 hl1, fun wb => ?_⟩
    exact (filled_archMem hi1 hl1 wb).trans (archMem_setMem_miss hi0 v hl wb)

/-- The same of the pipeline's data reads (20_memory.md R46). -/
theorem dRead_eq_ok {C : Config D} {ea : D.Addr} {s t : State D} {v : D.Word} :
    dRead C ea s = .ok v t ↔ D.aligned ea = true ∧ readWord C (D.wordAddr ea) s = .ok v t := by
  unfold dRead
  split
  · next h => simp [h]
  · next h => simp [h]

/-- And of the data writes (20_memory.md R47). -/
theorem dWrite_eq_ok {C : Config D} {ea : D.Addr} {v : D.Word} {s t : State D} {u : Unit} :
    dWrite C ea v s = .ok u t ↔ D.aligned ea = true ∧ writeWord C (D.wordAddr ea) v s = .ok u t := by
  unfold dWrite
  split
  · next h => simp [h]
  · next h => simp [h]

end Sys2Proof.Machine
end

