-- ==== Sys2Proof/Laws/Encoding.lean ====
section
/-! SUPPORT. The opcode map said in fields: when each mask matches, the decoder as one chain of field tests, and the fields
of an encoded instruction. -/

namespace Sys2Proof

/-- `op` = `inst[31:26]` (30_encoding.md R79). -/
def fieldOp (w : Word) : BitVec 6 := w.extractLsb' 26 6

/-- The bits that an R-format word must have 0. -/
def fieldLow (w : Word) : BitVec 11 := w.extractLsb' 0 11

theorem mask_op (w : Word) (p : BitVec 6) : (w &&& 0xFC000000#32 = p ++ 0#26) ↔ fieldOp w = p := by
  unfold fieldOp
  constructor
  · intro h
    have := congrArg (BitVec.extractLsb' 26 6) h
    apply BitVec.eq_of_getLsbD_eq
    intro i hi
    have h2 := congrArg (fun v => v.getLsbD (26 + i)) h
    simp only [BitVec.getLsbD_and, BitVec.getLsbD_append] at h2
    interval_cases i <;> simpa using h2
  · rintro rfl
    apply BitVec.eq_of_getLsbD_eq
    intro i hi
    simp only [BitVec.getLsbD_and, BitVec.getLsbD_append, BitVec.getLsbD_extractLsb']
    interval_cases i <;> simp

theorem mask_low (w : Word) (p : BitVec 6) :
    (w &&& 0xFC0007FF#32 = p ++ 0#26) ↔ fieldOp w = p ∧ fieldLow w = 0 := by
  unfold fieldOp fieldLow
  constructor
  · intro h
    constructor
    · apply BitVec.eq_of_getLsbD_eq
      intro i hi
      have h2 := congrArg (fun v => v.getLsbD (26 + i)) h
      simp only [BitVec.getLsbD_and, BitVec.getLsbD_append] at h2
      interval_cases i <;> simpa using h2
    · apply BitVec.eq_of_getLsbD_eq
      intro i hi
      have h2 := congrArg (fun v => v.getLsbD i) h
      simp only [BitVec.getLsbD_and, BitVec.getLsbD_append] at h2
      interval_cases i <;> simpa using h2
  · rintro ⟨rfl, h⟩
    apply BitVec.eq_of_getLsbD_eq
    intro i hi
    have h2 := congrArg (fun v => v.getLsbD i) h
    simp only [BitVec.getLsbD_and, BitVec.getLsbD_append, BitVec.getLsbD_extractLsb'] at h2 ⊢
    interval_cases i <;> simp_all

theorem mask_rs (w : Word) (p : BitVec 6) :
    (w &&& 0xFFE00000#32 = p ++ 0#26) ↔ fieldOp w = p ∧ fieldRs w = 0 := by
  unfold fieldOp fieldRs
  constructor
  · intro h
    constructor
    · apply BitVec.eq_of_getLsbD_eq
      intro i hi
      have h2 := congrArg (fun v => v.getLsbD (26 + i)) h
      simp only [BitVec.getLsbD_and, BitVec.getLsbD_append] at h2
      interval_cases i <;> simpa using h2
    · apply BitVec.eq_of_getLsbD_eq
      intro i hi
      have h2 := congrArg (fun v => v.getLsbD (21 + i)) h
      simp only [BitVec.getLsbD_and, BitVec.getLsbD_append] at h2
      interval_cases i <;> simpa using h2
  · rintro ⟨rfl, h⟩
    apply BitVec.eq_of_getLsbD_eq
    intro i hi
    have h2 := congrArg (fun v => v.getLsbD (i - 21)) h
    simp only [BitVec.getLsbD_and, BitVec.getLsbD_append, BitVec.getLsbD_extractLsb'] at h2 ⊢
    interval_cases i <;> simp_all

theorem mask_all (w p : Word) : (w &&& 0xFFFFFFFF#32 = p) ↔ w = p := by
  rw [show (0xFFFFFFFF#32 : Word) = BitVec.allOnes 32 from rfl, BitVec.and_allOnes]

/-- One row of the opcode map is one test. -/
theorem find_row {r : OpRow} {rows : List OpRow} {w : Word} {c : Prop} [Decidable c] {i : Instr} {o : Option Instr}
    (hc : w &&& r.mask = r.pattern ↔ c) (hi : r.build w = i)
    (ho : (rows.find? (·.covers w)).map (·.build w) = o) :
    ((r :: rows).find? (·.covers w)).map (·.build w) = if c then some i else o := by
  by_cases h : c
  · rw [if_pos h, List.find?_cons_of_pos (by simpa [OpRow.covers] using hc.2 h)]
    exact congrArg some hi
  · rw [if_neg h, List.find?_cons_of_neg (by simpa [OpRow.covers] using fun e => h (hc.1 e))]
    exact ho

/-- The decoder as a chain of tests on the fields (30_encoding.md R81, R82). -/
theorem decodeWord_eq (w : Word) : decodeWord w =
    if w = 0 then some .nop
    else if fieldOp w = 0x01 then some (.j (fieldTarg w))
    else if fieldOp w = 0x08 ∧ fieldLow w = 0 then some (.add (fieldRd w) (fieldRs w) (fieldRt w))
    else if fieldOp w = 0x09 ∧ fieldLow w = 0 then some (.sub (fieldRd w) (fieldRs w) (fieldRt w))
    else if fieldOp w = 0x0A ∧ fieldLow w = 0 then some (.and (fieldRd w) (fieldRs w) (fieldRt w))
    else if fieldOp w = 0x0B ∧ fieldLow w = 0 then some (.or (fieldRd w) (fieldRs w) (fieldRt w))
    else if fieldOp w = 0x0C ∧ fieldLow w = 0 then some (.xor (fieldRd w) (fieldRs w) (fieldRt w))
    else if fieldOp w = 0x0D ∧ fieldLow w = 0 then some (.slt (fieldRd w) (fieldRs w) (fieldRt w))
    else if fieldOp w = 0x10 then some (.addi (fieldRt w) (fieldRs w) (fieldImm w))
    else if fieldOp w = 0x11 then some (.ori (fieldRt w) (fieldRs w) (fieldImm w))
    else if fieldOp w = 0x12 ∧ fieldRs w = 0 then some (.lui (fieldRt w) (fieldImm w))
    else if fieldOp w = 0x20 then some (.lw (fieldRt w) (fieldImm w) (fieldRs w))
    else if fieldOp w = 0x28 then some (.sw (fieldRt w) (fieldImm w) (fieldRs w))
    else if fieldOp w = 0x3E then some (.link (fieldTarg w))
    else if w = 0xFC000000 then some .syscall
    else none := by
  refine find_row (mask_all w 0) rfl ?_
  refine find_row (mask_op w 0x01) rfl ?_
  refine find_row (mask_low w 0x08) rfl ?_
  refine find_row (mask_low w 0x09) rfl ?_
  refine find_row (mask_low w 0x0A) rfl ?_
  refine find_row (mask_low w 0x0B) rfl ?_
  refine find_row (mask_low w 0x0C) rfl ?_
  refine find_row (mask_low w 0x0D) rfl ?_
  refine find_row (mask_op w 0x10) rfl ?_
  refine find_row (mask_op w 0x11) rfl ?_
  refine find_row (mask_rs w 0x12) rfl ?_
  refine find_row (mask_op w 0x20) rfl ?_
  refine find_row (mask_op w 0x28) rfl ?_
  refine find_row (mask_op w 0x3E) rfl ?_
  refine find_row (mask_all w 0xFC000000) rfl rfl

/-- A chain of tests taken apart from its head, without unfolding the rest of it. -/
theorem ite_some_cases {α : Type} {c : Prop} [Decidable c] {a b : α} {o : Option α}
    (h : (if c then some a else o) = some b) : (c ∧ a = b) ∨ o = some b := by
  by_cases hc : c
  · rw [if_pos hc] at h
    exact .inl ⟨hc, Option.some.inj h⟩
  · rw [if_neg hc] at h
    exact .inr h

theorem ite_some_eq_none {α : Type} {c : Prop} [Decidable c] {a : α} {o : Option α} :
    (if c then some a else o) = none ↔ ¬ c ∧ o = none := by
  by_cases hc : c
  · rw [if_pos hc]
    exact ⟨fun h => absurd h (by simp), fun h => absurd hc h.1⟩
  · rw [if_neg hc]
    exact ⟨fun h => ⟨hc, h⟩, fun h => h.2⟩

/-! ## The fields of an encoded instruction (R79) -/

section encodeR
variable (op : BitVec 6) (rd rs rt : Reg)
@[simp] theorem fieldOp_encodeR : fieldOp (encodeR op rd rs rt) = op := by
  apply BitVec.eq_of_getLsbD_eq
  intro i hi
  simp only [fieldOp, encodeR, BitVec.getLsbD_append, BitVec.getLsbD_extractLsb']
  interval_cases i <;> simp
@[simp] theorem fieldLow_encodeR : fieldLow (encodeR op rd rs rt) = 0 := by
  apply BitVec.eq_of_getLsbD_eq
  intro i hi
  simp only [fieldLow, encodeR, BitVec.getLsbD_append, BitVec.getLsbD_extractLsb']
  interval_cases i <;> simp
@[simp] theorem fieldRd_encodeR : fieldRd (encodeR op rd rs rt) = rd := by
  apply BitVec.eq_of_getLsbD_eq
  intro i hi
  simp only [fieldRd, encodeR, BitVec.getLsbD_append, BitVec.getLsbD_extractLsb']
  interval_cases i <;> simp
@[simp] theorem fieldRs_encodeR : fieldRs (encodeR op rd rs rt) = rs := by
  apply BitVec.eq_of_getLsbD_eq
  intro i hi
  simp only [fieldRs, encodeR, BitVec.getLsbD_append, BitVec.getLsbD_extractLsb']
  interval_cases i <;> simp
@[simp] theorem fieldRt_encodeR : fieldRt (encodeR op rd rs rt) = rt := by
  apply BitVec.eq_of_getLsbD_eq
  intro i hi
  simp only [fieldRt, encodeR, BitVec.getLsbD_append, BitVec.getLsbD_extractLsb']
  interval_cases i <;> simp
end encodeR

section encodeI
variable (op : BitVec 6) (rt rs : Reg) (imm : BitVec 16)
@[simp] theorem fieldOp_encodeI : fieldOp (encodeI op rt rs imm) = op := by
  apply BitVec.eq_of_getLsbD_eq
  intro i hi
  simp only [fieldOp, encodeI, BitVec.getLsbD_append, BitVec.getLsbD_extractLsb']
  interval_cases i <;> simp
@[simp] theorem fieldRs_encodeI : fieldRs (encodeI op rt rs imm) = rs := by
  apply BitVec.eq_of_getLsbD_eq
  intro i hi
  simp only [fieldRs, encodeI, BitVec.getLsbD_append, BitVec.getLsbD_extractLsb']
  interval_cases i <;> simp
@[simp] theorem fieldRt_encodeI : fieldRt (encodeI op rt rs imm) = rt := by
  apply BitVec.eq_of_getLsbD_eq
  intro i hi
  simp only [fieldRt, encodeI, BitVec.getLsbD_append, BitVec.getLsbD_extractLsb']
  interval_cases i <;> simp
@[simp] theorem fieldImm_encodeI : fieldImm (encodeI op rt rs imm) = imm := by
  apply BitVec.eq_of_getLsbD_eq
  intro i hi
  simp only [fieldImm, encodeI, BitVec.getLsbD_append, BitVec.getLsbD_extractLsb']
  interval_cases i <;> simp
end encodeI

@[simp] theorem fieldOp_encodeJ (op : BitVec 6) (targ : BitVec 26) : fieldOp (encodeJ op targ) = op := by
  apply BitVec.eq_of_getLsbD_eq
  intro i hi
  simp only [fieldOp, encodeJ, BitVec.getLsbD_append, BitVec.getLsbD_extractLsb']
  interval_cases i <;> simp
@[simp] theorem fieldTarg_encodeJ (op : BitVec 6) (targ : BitVec 26) : fieldTarg (encodeJ op targ) = targ := by
  apply BitVec.eq_of_getLsbD_eq
  intro i hi
  simp only [fieldTarg, encodeJ, BitVec.getLsbD_append, BitVec.getLsbD_extractLsb']
  interval_cases i <;> simp

theorem encodeJ_fields (w : Word) : encodeJ (fieldOp w) (fieldTarg w) = w := by
  apply BitVec.eq_of_getLsbD_eq
  intro i hi
  simp only [encodeJ, fieldOp, fieldTarg, BitVec.getLsbD_append, BitVec.getLsbD_extractLsb']
  interval_cases i <;> simp

/-- A word is `op` and 26 zero bits exactly when those are its fields. -/
theorem eq_op_iff (w : Word) (p : BitVec 6) : w = p ++ 0#26 ↔ fieldOp w = p ∧ fieldTarg w = 0 := by
  constructor
  · rintro rfl
    exact ⟨fieldOp_encodeJ p 0, fieldTarg_encodeJ p 0⟩
  · rintro ⟨h1, h2⟩
    have := encodeJ_fields w
    rw [h1, h2] at this
    exact this.symm

theorem ne_of_fieldOp {w w' : Word} (h : fieldOp w ≠ fieldOp w') : w ≠ w' := fun e => h (by rw [e])

@[simp] theorem fieldImm_addi (rt rs : Reg) (imm : BitVec 16) : fieldImm (encode (.addi rt rs imm)) = imm :=
  fieldImm_encodeI _ _ _ _
@[simp] theorem fieldImm_ori (rt rs : Reg) (imm : BitVec 16) : fieldImm (encode (.ori rt rs imm)) = imm :=
  fieldImm_encodeI _ _ _ _
@[simp] theorem fieldImm_lui (rt : Reg) (imm : BitVec 16) : fieldImm (encode (.lui rt imm)) = imm :=
  fieldImm_encodeI _ _ _ _
@[simp] theorem fieldImm_lw (rt rs : Reg) (imm : BitVec 16) : fieldImm (encode (.lw rt imm rs)) = imm :=
  fieldImm_encodeI _ _ _ _
@[simp] theorem fieldImm_sw (rt rs : Reg) (imm : BitVec 16) : fieldImm (encode (.sw rt imm rs)) = imm :=
  fieldImm_encodeI _ _ _ _
@[simp] theorem fieldTarg_j (targ : BitVec 26) : fieldTarg (encode (.j targ)) = targ := fieldTarg_encodeJ _ _

/-! ## A word put together from its fields -/

theorem encodeR_fields {w : Word} (h : fieldLow w = 0) :
    encodeR (fieldOp w) (fieldRd w) (fieldRs w) (fieldRt w) = w := by
  apply BitVec.eq_of_getLsbD_eq
  intro i hi
  have h2 := congrArg (fun v => v.getLsbD i) h
  simp only [fieldLow, BitVec.getLsbD_extractLsb'] at h2
  simp only [encodeR, fieldOp, fieldRd, fieldRs, fieldRt, BitVec.getLsbD_append, BitVec.getLsbD_extractLsb']
  interval_cases i <;> simp_all

theorem encodeI_fields (w : Word) : encodeI (fieldOp w) (fieldRt w) (fieldRs w) (fieldImm w) = w := by
  apply BitVec.eq_of_getLsbD_eq
  intro i hi
  simp only [encodeI, fieldOp, fieldRs, fieldRt, fieldImm, BitVec.getLsbD_append, BitVec.getLsbD_extractLsb']
  interval_cases i <;> simp

theorem wordBytes_wordOfBytes (b0 b1 b2 b3 : Byte) : wordBytes (wordOfBytes b0 b1 b2 b3) = [b0, b1, b2, b3] := by
  simp only [wordBytes, List.cons.injEq, and_true]
  refine ⟨?_, ?_, ?_, ?_⟩ <;>
  · apply BitVec.eq_of_getLsbD_eq
    intro i hi
    simp only [wordOfBytes, BitVec.getLsbD_append, BitVec.getLsbD_extractLsb']
    interval_cases i <;> simp

theorem tableWord_toNat (w : Word) : tableWord 32 w.toNat = w := by
  apply BitVec.eq_of_toNat_eq
  have := w.isLt
  simp only [tableWord, BitVec.toNat_ofNat]
  omega

end Sys2Proof
end

