-- ==== Sys2Proof/Laws/Stages.lean ====
section
/-! SUPPORT. The five stages and the cycle: the closed form of each, what each leaves alone whichever way it ends, and how a
cycle that completes comes apart. -/

namespace Sys2Proof.Machine

section
variable {D : Sizes}

/-! ## Registers (10_state.md R10) -/

theorem readReg_writeReg (R : RegFile D) (r q : D.Reg) (v : D.Word) :
    readReg (writeReg R r v) q = if q = r then v else readReg R q := by
  unfold readReg writeReg
  simp only [Fin.getElem_fin, Vector.getElem_set, Fin.val_inj, eq_comm]

theorem readReg_writeDst (R : RegFile D) (d : Option D.Reg) (q : D.Reg) (v : D.Word) :
    readReg (writeDst R d v) q = if d = some q then v else readReg R q := by
  cases d with
  | none => rfl
  | some r => simp only [writeDst, readReg_writeReg, Option.some.injEq, eq_comm]

/-- Two register files are equal when every register reads the same. -/
theorem regs_ext {R R' : RegFile D} (h : ∀ r, readReg R r = readReg R' r) : R = R' := by
  apply Vector.ext
  intro i hi
  exact h ⟨i, hi⟩

/-- The commit of one entry, register by register (40_pipeline_engine.md R104). -/
theorem readReg_commit (b : MW D) (R : RegFile D) (r : D.Reg) : readReg (commit b R) r =
    if b.port.dstM = some r then b.m else if b.port.dstE = some r then b.e else readReg R r := by
  unfold commit
  rw [readReg_writeDst, readReg_writeDst]

/-- The registers after the re-stamp and the commit, register by register. -/
theorem readReg_committedRegs (s : State D) (r : D.Reg) : readReg (committedRegs s) r =
    if s.mw.port.dstM = some r then s.mw.m else if s.mw.port.dstE = some r then s.mw.e
    else if r = D.r0 then 0 else readReg s.regs r := by
  unfold committedRegs
  rw [readReg_commit, readReg_writeReg]

end

/-! ## The statement that begins a cycle, and Writeback -/

/-- The state after a Writeback of T0 that goes on. -/
def State.wroteBack (s : State) : State :=
  (s.setCounters (if retires s.mw then s.counters.tick.countInsn else s.counters.tick)).setRegs (writtenBack s)

/-- The state in which an exiting system call of T0 leaves the machine (60_exceptions.md R232). -/
def State.exited (s : State) : State :=
  ((s.setCounters s.counters.tick.countInsn).setRegs (committedRegs s)).setStatus
    (.halted (readReg (committedRegs s) 4))

/-- Writeback of T0, whole (40_pipeline_engine.md R104, R105; 44_fixture_t0.md R205). -/
theorem writeback_t0 (s : State) :
    writeback t0 (beginCycle s) = if exits s then .stop s.exited else .ok () s.wroteBack := by
  have hm : (beginCycle s).mw = s.mw := rfl
  have hr : (beginCycle s).regs = writeReg s.regs Sizes.t0.r0 0 := rfl
  unfold writeback
  simp only [setRegs_mw, setRegs_regs, hm, hr, setCounters_mw, setCounters_regs, setCounters_mem, setRegs_mem]
  unfold exits State.exited State.wroteBack writtenBack committedRegs
  cases hret : retires s.mw with
  | false =>
    have hc : callsSys s.mw = false := by simp [callsSys, hret]
    simp only [hc, Bool.false_eq_true, if_false, Bool.false_and]
    rfl
  | true =>
    cases hc : callsSys s.mw with
    | false =>
      simp only [if_true, Bool.false_eq_true, if_false, Bool.false_and]
      rfl
    | true =>
      simp only [if_true, Bool.true_and, beq_iff_eq]
      simp only [show t0.sys = sysT0 from rfl, sysT0]
      by_cases h : readReg (commit s.mw (writeReg s.regs Sizes.t0.r0 0)) 2 = 1
      · rw [if_pos h, if_pos h]
        rfl
      · rw [if_neg h, if_neg h]
        rfl

@[simp] theorem wroteBack_regs (s : State) : s.wroteBack.regs = writtenBack s := rfl
@[simp] theorem wroteBack_pc (s : State) : s.wroteBack.pc = s.pc := rfl
@[simp] theorem wroteBack_npc (s : State) : s.wroteBack.npc = s.npc := rfl
@[simp] theorem wroteBack_fd (s : State) : s.wroteBack.fd = s.fd := rfl
@[simp] theorem wroteBack_de (s : State) : s.wroteBack.de = s.de := rfl
@[simp] theorem wroteBack_em (s : State) : s.wroteBack.em = s.em := rfl
@[simp] theorem wroteBack_mw (s : State) : s.wroteBack.mw = s.mw := rfl
@[simp] theorem wroteBack_cache (s : State) : s.wroteBack.cache = s.cache := rfl
@[simp] theorem wroteBack_mem (s : State) : s.wroteBack.mem = s.mem := rfl
@[simp] theorem wroteBack_unmapped (s : State) : s.wroteBack.unmapped = s.unmapped := rfl
@[simp] theorem wroteBack_status (s : State) : s.wroteBack.status = s.status := rfl
@[simp] theorem wroteBack_archMem (s : State) (wa : Sizes.t0.WordAddr) : s.wroteBack.archMem wa = s.archMem wa := rfl
@[simp] theorem wroteBack_insn (s : State) :
    s.wroteBack.counters.insnCount = s.counters.insnCount + if retires s.mw then 1 else 0 := by
  unfold State.wroteBack
  cases retires s.mw <;> rfl

section
variable {D : Sizes}

/-! ## Memory -/

/-- The data access of Memory: its value is what `MW.M` becomes. -/
def dataAccess (C : Config D) (s : State D) : Run D D.Word :=
  if s.em.flags.store then (dWrite C (D.effAddr s.em.e) s.em.a s).bind fun _ t => .ok 0 t
  else if s.em.flags.load then dRead C (D.effAddr s.em.e) s
  else .ok 0 s

/-- Memory is the copy, the access, and the write of `M` (40_pipeline_engine.md R106). -/
theorem memory_eq (C : Config D) (s : State D) :
    memory C s = (dataAccess C (s.setMw (copyToMw s.em s.mw.m))).bind fun v t => .ok () (t.setMw (t.mw.setM v)) := by
  unfold memory dataAccess
  by_cases h1 : s.em.flags.store = true
  · simp only [setMw_em, h1, if_true]
    cases dWrite C (D.effAddr s.em.e) s.em.a (s.setMw (copyToMw s.em s.mw.m)) <;> rfl
  · by_cases h2 : s.em.flags.load = true
    · simp only [setMw_em, h1, h2, if_true, if_false, Bool.false_eq_true]
    · simp only [setMw_em, h1, h2, if_false, Bool.false_eq_true]
      rfl

theorem dataAccess_run (C : Config D) (s : State D) : DataRun s (dataAccess C s) := by
  unfold dataAccess
  split
  · exact (dWrite_run C _ _ s).bind fun _ t => .ok _ (.refl t) rfl
  · split
    · exact dRead_run C _ s
    · exact .ok _ (.refl s) rfl

/-- Memory completes exactly when its access does. -/
theorem memory_eq_ok {C : Config D} {s t : State D} {u : Unit} :
    memory C s = .ok u t ↔ ∃ v x, dataAccess C (s.setMw (copyToMw s.em s.mw.m)) = .ok v x ∧
      t = x.setMw (copyToMw s.em v) := by
  rw [memory_eq, bind_eq_ok]
  have key : ∀ v x, dataAccess C (s.setMw (copyToMw s.em s.mw.m)) = .ok v x →
      x.setMw (x.mw.setM v) = x.setMw (copyToMw s.em v) := by
    intro v x h
    have := (dataAccess_run C (s.setMw (copyToMw s.em s.mw.m))).frame.mw
    rw [h] at this
    rw [show x.mw = copyToMw s.em s.mw.m from this]
    rfl
  constructor
  · rintro ⟨v, x, h, e⟩
    cases e
    exact ⟨v, x, h, key v x h⟩
  · rintro ⟨v, x, h, rfl⟩
    exact ⟨v, x, h, by rw [key v x h]⟩

/-- What Memory leaves alone, whichever way it ends: everything but MW, the cache, the backing store, the status and the
cache's counters. -/
theorem memory_final (C : Config D) (s : State D) : ∃ x b, DataFrame (s.setMw (copyToMw s.em s.mw.m)) x ∧
    (memory C s).final = x.setMw b ∧ (b = x.mw ∨ ∃ v, b = x.mw.setM v) := by
  rw [memory_eq]
  have h := (dataAccess_run C (s.setMw (copyToMw s.em s.mw.m))).frame
  cases hd : dataAccess C (s.setMw (copyToMw s.em s.mw.m)) with
  | ok v x =>
    rw [hd] at h
    exact ⟨x, _, h, rfl, .inr ⟨v, rfl⟩⟩
  | stop x =>
    rw [hd] at h
    exact ⟨x, x.mw, h, rfl, .inl rfl⟩

theorem memory_cause {C : Config D} {s x : State D} (h : memory C s = .stop x) : MemoryStopped x := by
  rw [memory_eq] at h
  have hc := (dataAccess_run C (s.setMw (copyToMw s.em s.mw.m))).cause
  cases hd : dataAccess C (s.setMw (copyToMw s.em s.mw.m)) with
  | ok v y => rw [hd] at h; cases h
  | stop y => rw [hd] at h; cases h; exact hc _ hd

theorem memory_honest (C : Config D) (s : State D) : (memory C s).Honest s := by
  rw [memory_eq]
  refine bind_honest (s := s) ?_ fun v t _ => rfl
  have := (dataAccess_run C (s.setMw (copyToMw s.em s.mw.m))).honest
  cases hd : dataAccess C (s.setMw (copyToMw s.em s.mw.m)) with
  | ok v x => rw [hd] at this; exact this
  | stop x => rw [hd] at this; exact this

/-! ## Execute -/

@[simp] theorem execute_em (C : Config D) (s : State D) : (execute C s).em = executed C s.de := rfl
@[simp] theorem execute_regs (C : Config D) (s : State D) : (execute C s).regs = s.regs := rfl
@[simp] theorem execute_pc (C : Config D) (s : State D) : (execute C s).pc = s.pc := rfl
@[simp] theorem execute_npc (C : Config D) (s : State D) : (execute C s).npc = s.npc := rfl
@[simp] theorem execute_fd (C : Config D) (s : State D) : (execute C s).fd = s.fd := rfl
@[simp] theorem execute_de (C : Config D) (s : State D) : (execute C s).de = s.de := rfl
@[simp] theorem execute_mw (C : Config D) (s : State D) : (execute C s).mw = s.mw := rfl
@[simp] theorem execute_cache (C : Config D) (s : State D) : (execute C s).cache = s.cache := rfl
@[simp] theorem execute_counters (C : Config D) (s : State D) : (execute C s).counters = s.counters := rfl
@[simp] theorem execute_mem (C : Config D) (s : State D) : (execute C s).mem = s.mem := rfl
@[simp] theorem execute_unmapped (C : Config D) (s : State D) : (execute C s).unmapped = s.unmapped := rfl
@[simp] theorem execute_status (C : Config D) (s : State D) : (execute C s).status = s.status := rfl
@[simp] theorem execute_archMem (C : Config D) (s : State D) (wa : D.WordAddr) : (execute C s).archMem wa = s.archMem wa := rfl
@[simp] theorem executed_taken (C : Config D) (b : DE D) : (executed C b).taken = false := rfl

/-! ## The resolver -/

theorem resolve_run (C : Config D) (src : Option D.Reg) (s : State D) : DataRun s (resolve C src s) := by
  unfold resolve
  split
  · exact .ok _ (.refl s) rfl
  · repeat' split
    all_goals first
      | exact dRead_run C _ s
      | exact .ok _ (.refl s) rfl

/-- The resolver reads the cache in case 2 and changes nothing in the others, and its answer is the operand as the state
after it tells it (41_forwarding.md R140). -/
theorem resolve_eq_ok {C : Config D} {src : Option D.Reg} {s t : State D} {v : D.Word} (h : resolve C src s = .ok v t) :
    ((t = s ∧ ∀ r, src = some r → s.em.port.dstE ≠ some r → s.em.port.dstM ≠ some r) ∨
      ∃ r, src = some r ∧ s.em.port.dstE ≠ some r ∧ s.em.port.dstM = some r ∧ dRead C (D.effAddr s.em.e) s = .ok v t) ∧
    v = operandIn t src := by
  unfold resolve at h
  unfold operandIn
  split at h
  · cases h
    exact ⟨.inl ⟨rfl, fun r e => by cases e⟩, rfl⟩
  · next r =>
    split at h
    · next h1 =>
      cases h
      exact ⟨.inl ⟨rfl, fun _ e h' => by cases e; exact absurd h1 h'⟩, by simp only [h1, if_true]⟩
    · next h1 =>
      split at h
      · next h2 =>
        refine ⟨.inr ⟨r, rfl, h1, h2, h⟩, ?_⟩
        have hem : t.em = s.em := by
          have := (dRead_run C (D.effAddr s.em.e) s).frame.em
          rw [h] at this
          exact this
        simp only [hem, h1, h2, if_true, if_false]
        exact ((readWord_present (dRead_eq_ok.1 h).2).2).symm
      · next h2 =>
        have hno : ∀ q, some r = some q → s.em.port.dstE ≠ some q → s.em.port.dstM ≠ some q := by
          intro q e _
          cases e
          exact h2
        split at h
        · next h3 =>
          cases h
          exact ⟨.inl ⟨rfl, hno⟩, by simp only [h1, h2, h3, if_true, if_false]⟩
        · next h3 =>
          split at h
          · next h4 =>
            cases h
            exact ⟨.inl ⟨rfl, hno⟩, by simp only [h1, h2, h3, h4, if_true, if_false]⟩
          · next h4 =>
            cases h
            exact ⟨.inl ⟨rfl, hno⟩, by simp only [h1, h2, h3, h4, if_false]⟩

/-- What an operand depends on. -/
theorem operandIn_congr {s t : State D} {src : Option D.Reg} (hr : t.regs = s.regs) (he : t.em = s.em) (hm : t.mw = s.mw)
    (ha : ∀ r, src = some r → s.em.port.dstE ≠ some r → s.em.port.dstM = some r →
      t.archMem (D.wordAddr (D.effAddr s.em.e)) = s.archMem (D.wordAddr (D.effAddr s.em.e))) : operandIn t src = operandIn s src := by
  unfold operandIn
  cases src with
  | none => rfl
  | some r =>
    simp only [hr, he, hm]
    by_cases h1 : s.em.port.dstE = some r
    · simp only [h1, if_true]
    · by_cases h2 : s.em.port.dstM = some r
      · simp only [h1, h2, if_true, if_false]
        exact ha r rfl h1 h2
      · simp only [h1, h2, if_false]

/-! ## Decode -/

/-- Decode of an opcode that is not squashed: two resolutions, then the jump. -/
theorem decode_op_eq_ok {C : Config D} {e : Entry D} {s t : State D} {u : Unit} (hs : s.em.taken = false) :
    decode C (.op e) s = .ok u t ↔ ∃ a x b y,
      resolve C e.port.srcA (s.setDe (copyToDe s.fd e s.de.a s.de.b)) = .ok a x ∧
      resolve C e.port.srcB (x.setDe (copyToDe s.fd e a s.de.b)) = .ok b y ∧
      t = if e.op = .jump then resolveJump C (y.setDe (copyToDe s.fd e a b)) else y.setDe (copyToDe s.fd e a b) := by
  unfold decode squashed fillDe
  simp only [hs, Bool.false_eq_true, if_false, bind_eq_ok]
  constructor
  · rintro ⟨_, x', ⟨a, x, h1, b, y, h2, e3⟩, e4⟩
    have f1 := (resolve_run C e.port.srcA (s.setDe (copyToDe s.fd e s.de.a s.de.b))).frame.de
    rw [h1] at f1
    have d1 : x.de.setA a = copyToDe s.fd e a s.de.b := by
      rw [show x.de = copyToDe s.fd e s.de.a s.de.b from f1]; rfl
    rw [d1] at h2
    have f2 := (resolve_run C e.port.srcB (x.setDe (copyToDe s.fd e a s.de.b))).frame.de
    rw [h2] at f2
    have d2 : y.de.setB b = copyToDe s.fd e a b := by
      rw [show y.de = copyToDe s.fd e a s.de.b from f2]; rfl
    rw [d2] at e3
    cases e3
    cases e4
    exact ⟨a, x, b, y, h1, h2, rfl⟩
  · rintro ⟨a, x, b, y, h1, h2, rfl⟩
    have f1 := (resolve_run C e.port.srcA (s.setDe (copyToDe s.fd e s.de.a s.de.b))).frame.de
    rw [h1] at f1
    have d1 : x.de.setA a = copyToDe s.fd e a s.de.b := by
      rw [show x.de = copyToDe s.fd e s.de.a s.de.b from f1]; rfl
    have f2 := (resolve_run C e.port.srcB (x.setDe (copyToDe s.fd e a s.de.b))).frame.de
    rw [h2] at f2
    have d2 : y.de.setB b = copyToDe s.fd e a b := by
      rw [show y.de = copyToDe s.fd e a s.de.b from f2]; rfl
    exact ⟨(), _, ⟨a, x, h1, b, y, by rw [d1]; exact h2, rfl⟩, by rw [d2]⟩

/-- What a completed Decode of an opcode leaves in ID/EX: the record, and the operands as the state after it tells them. -/
theorem decode_operands {C : Config D} {e : Entry D} {s t : State D} {u : Unit} (hs : s.em.taken = false)
    (h : decode C (.op e) s = .ok u t) :
    t.de = copyToDe s.fd e (operandIn t e.port.srcA) (operandIn t e.port.srcB) := by
  obtain ⟨a, x, b, y, h1, h2, rfl⟩ := (decode_op_eq_ok hs).1 h
  have hd : (if e.op = .jump then resolveJump C (y.setDe (copyToDe s.fd e a b))
      else y.setDe (copyToDe s.fd e a b)).de = copyToDe s.fd e a b := by
    split <;> rfl
  have ho : ∀ src, operandIn (if e.op = .jump then resolveJump C (y.setDe (copyToDe s.fd e a b))
      else y.setDe (copyToDe s.fd e a b)) src = operandIn y src := by
    intro src
    split <;> exact operandIn_congr rfl rfl rfl fun _ _ _ _ => rfl
  rw [hd, ho, ho]
  obtain ⟨c1, v1⟩ := resolve_eq_ok h1
  obtain ⟨c2, v2⟩ := resolve_eq_ok h2
  have g1 := (resolve_run C e.port.srcA (s.setDe (copyToDe s.fd e s.de.a s.de.b))).frame
  rw [h1] at g1
  have g2 := (resolve_run C e.port.srcB (x.setDe (copyToDe s.fd e a s.de.b))).frame
  rw [h2] at g2
  have hem : x.em = s.em := g1.em
  have hA : operandIn y e.port.srcA = a := by
    rw [v1]
    refine operandIn_congr g2.regs g2.em g2.mw fun r hr h3 h4 => ?_
    rcases c2 with ⟨rfl, -⟩ | ⟨r2, hr2, h5, h6, hd2⟩
    · rfl
    · -- both operands are eager: the second read hits the word the first one brought in
      rcases c1 with ⟨-, hno⟩ | ⟨r1, hr1, h7, h8, hd1⟩
      · rw [hem] at h3 h4
        exact absurd h4 (hno r hr h3)
      · obtain ⟨⟨w, hw⟩, -⟩ := readWord_present (dRead_eq_ok.1 hd1).2
        rcases readWord_eq_ok.1 (dRead_eq_ok.1 hd2).2 with ⟨w', -, -, hy⟩ | ⟨hn, -⟩
        · rw [hy]
          rfl
        · rw [setDe_em, hem] at hn
          rw [setDe_em] at hw
          change x.lookup _ = none at hn
          rw [hw] at hn
          cases hn
  rw [hA, ← v2]

/-- What Decode leaves alone, whichever way it ends. -/
structure DecodeFrame (s t : State D) : Prop where
  regs     : t.regs = s.regs
  pc       : t.pc = s.pc
  fdInst   : t.fd.inst = s.fd.inst
  fdPc     : t.fd.pc = s.fd.pc
  em       : t.em = s.em
  mw       : t.mw = s.mw
  unmapped : t.unmapped = s.unmapped
  insn     : t.counters.insnCount = s.counters.insnCount

theorem DecodeFrame.of_data {s t : State D} (h : DataFrame s t) : DecodeFrame s t :=
  ⟨h.regs, h.pc, by rw [h.fd], by rw [h.fd], h.em, h.mw, h.unmapped, h.insn⟩

theorem DecodeFrame.trans {s t u : State D} (h : DecodeFrame s t) (k : DecodeFrame t u) : DecodeFrame s u :=
  ⟨k.regs.trans h.regs, k.pc.trans h.pc, k.fdInst.trans h.fdInst, k.fdPc.trans h.fdPc, k.em.trans h.em, k.mw.trans h.mw,
    k.unmapped.trans h.unmapped, k.insn.trans h.insn⟩

theorem DecodeFrame.setDe (s : State D) (b : DE D) : DecodeFrame s (s.setDe b) := ⟨rfl, rfl, rfl, rfl, rfl, rfl, rfl, rfl⟩

theorem DecodeFrame.setStatus (s : State D) (x : Status D) : DecodeFrame s (s.setStatus x) :=
  ⟨rfl, rfl, rfl, rfl, rfl, rfl, rfl, rfl⟩

theorem DecodeFrame.resolveJump (C : Config D) (s : State D) : DecodeFrame s (resolveJump C s) :=
  ⟨rfl, rfl, rfl, rfl, rfl, rfl, rfl, rfl⟩

theorem fillDe_frame (C : Config D) (e : Entry D) (s : State D) : DecodeFrame s (fillDe C e s).final := by
  unfold fillDe
  refine bind_final (P := DecodeFrame s) ((DecodeFrame.setDe s _).trans (.of_data (resolve_run C _ _).frame)) ?_
  intro a x _ hx
  refine bind_final (P := DecodeFrame s) ((hx.trans (.setDe x _)).trans (.of_data (resolve_run C _ _).frame)) ?_
  intro b y _ hy
  exact hy.trans (.setDe y _)

theorem decode_frame (C : Config D) (l : Lookup D) (s : State D) : DecodeFrame s (decode C l s).final := by
  unfold decode
  split
  · exact .setDe s _
  · split
    · exact .setStatus s _
    · exact .setStatus s _
    · next e =>
      refine bind_final (P := DecodeFrame s) (fillDe_frame C e s) fun _ x _ hx => ?_
      split
      · exact hx.trans (.resolveJump C x)
      · exact hx

theorem fillDe_honest (C : Config D) (e : Entry D) (s : State D) : (fillDe C e s).Honest s := by
  unfold fillDe
  refine bind_honest (resolve_run C _ (s.setDe _)).honest fun a x _ => ?_
  exact bind_honest (resolve_run C _ (x.setDe _)).honest fun b y _ => rfl

theorem decode_honest (C : Config D) (l : Lookup D) (s : State D) : (decode C l s).Honest s := by
  unfold decode
  split
  · exact rfl
  · split
    · exact honest_raise _ _ _
    · exact honest_raise _ _ _
    · next e =>
      refine bind_honest (fillDe_honest C e s) fun _ x _ => ?_
      split
      · exact rfl
      · exact rfl

theorem fillDe_cause {C : Config D} {e : Entry D} {s x : State D} (h : fillDe C e s = .stop x) : MemoryStopped x := by
  unfold fillDe at h
  cases h1 : resolve C e.port.srcA (s.setDe (copyToDe s.fd e s.de.a s.de.b)) with
  | stop y =>
    rw [h1] at h
    cases h
    exact (resolve_run C _ _).cause _ h1
  | ok a y =>
    rw [h1, bind_ok] at h
    cases h2 : resolve C e.port.srcB (y.setDe (y.de.setA a)) with
    | stop z =>
      rw [h2] at h
      cases h
      exact (resolve_run C _ _).cause _ h2
    | ok b z =>
      rw [h2] at h
      cases h

/-- Why Decode stops. -/
theorem decode_cause {C : Config D} {l : Lookup D} {s x : State D} (h : decode C l s = .stop x) :
    MemoryStopped x ∨
    (l = .absent ∧ x = s.setStatus (.faulted (.unknownOpcode s.fd.pc s.fd.inst s.counters.cycleCount))) ∨
    (l = .link ∧ x = s.setStatus (.faulted (.unsupportedFeature s.fd.pc s.fd.inst s.counters.cycleCount))) := by
  unfold decode at h
  split at h
  · cases h
  · split at h
    · cases h
      exact .inr (.inl ⟨rfl, rfl⟩)
    · cases h
      exact .inr (.inr ⟨rfl, rfl⟩)
    · next e =>
      refine .inl ?_
      cases h1 : fillDe C e s with
      | stop y => rw [h1] at h; cases h; exact fillDe_cause h1
      | ok a y => rw [h1] at h; cases h

/-! ## Fetch -/

/-- The state after a fetch that completes (40_pipeline_engine.md R118). -/
def State.fetched (C : Config D) (s : State D) : State D :=
  ((s.setPc s.npc).setNpc (s.npc + C.iStep)).setFd ⟨memInst s.mem (D.wordAddr s.npc), s.npc, s.npc + C.iStep⟩

/-- Fetch, whole. -/
theorem fetch_eq (C : Config D) (s : State D) :
    fetch C s = if s.npc.toNat % C.iStep.toNat = 0 ∧ s.instMapped (D.wordAddr s.npc) then .ok () (s.fetched C)
      else raiseMemoryFault s.npc (s.setPc s.npc) := by
  unfold fetch iFetch
  by_cases h : s.npc.toNat % C.iStep.toNat = 0 ∧ s.instMapped (D.wordAddr s.npc) = true
  · simp only [setPc_instMapped, h, and_self, if_true]
    rfl
  · simp only [setPc_instMapped, h, if_false]
    rfl

theorem fetch_honest (C : Config D) (s : State D) : (fetch C s).Honest s := by
  rw [fetch_eq]
  split
  · exact rfl
  · exact honest_raiseMemoryFault _ _ _

theorem fetch_cause {C : Config D} {s x : State D} (h : fetch C s = .stop x) : MemoryStopped x := by
  rw [fetch_eq] at h
  split at h
  · cases h
  · cases h
    exact ⟨_, rfl⟩

/-- What Fetch leaves alone, whichever way it ends. -/
theorem fetch_final (C : Config D) (s : State D) : (fetch C s).final.regs = s.regs ∧ (fetch C s).final.de = s.de ∧
    (fetch C s).final.em = s.em ∧ (fetch C s).final.mw = s.mw ∧ (fetch C s).final.cache = s.cache ∧
    (fetch C s).final.counters = s.counters ∧ (fetch C s).final.mem = s.mem ∧
    (fetch C s).final.unmapped = s.unmapped := by
  rw [fetch_eq]
  split <;> exact ⟨rfl, rfl, rfl, rfl, rfl, rfl, rfl, rfl⟩

end

/-! ## The cycle -/

/-- Execute passes over the state that Memory leaves. -/
theorem beforeDecode_t0_eq_ok {s x : State} {u : Unit} :
    beforeDecode t0 s = .ok u x ↔ exits s = false ∧ ∃ v y,
      dataAccess t0 (s.wroteBack.setMw (copyToMw s.em s.mw.m)) = .ok v y ∧
      x = execute t0 (y.setMw (copyToMw s.em v)) := by
  unfold beforeDecode
  rw [writeback_t0]
  cases exits s with
  | true => simp
  | false =>
    simp only [Bool.false_eq_true, if_false, bind_ok, bind_eq_ok, memory_eq_ok, wroteBack_em, wroteBack_mw, true_and]
    constructor
    · rintro ⟨_, _, ⟨v, y, h, rfl⟩, e⟩
      cases e
      exact ⟨v, y, h, rfl⟩
    · rintro ⟨v, y, h, rfl⟩
      exact ⟨(), _, ⟨v, y, h, rfl⟩, rfl⟩

theorem beforeDecode_honest (s : State) : (beforeDecode t0 s).Honest s := by
  unfold beforeDecode
  rw [writeback_t0]
  cases exits s with
  | true => simp [State.exited, Run.Honest]
  | false =>
    simp only [Bool.false_eq_true, if_false, bind_ok]
    exact bind_honest (memory_honest t0 s.wroteBack) fun _ _ _ => rfl

/-- A cycle of T0 ends with the status `running` exactly when it completed. -/
theorem cycle_honest (l : Lookup .t0) (s : State) : (cycle t0 l s).Honest s :=
  bind_honest (beforeDecode_honest s) fun _ x _ => bind_honest (decode_honest t0 l x) fun _ y _ => fetch_honest t0 y

/-- A cycle whose end is a running state, taken apart. -/
theorem cycle_running {l : Lookup .t0} {s t : State} (h : (cycle t0 l s).outcome = .next t) (ht : t.status = .running) :
    ∃ x y, beforeDecode t0 s = .ok () x ∧ decode t0 l x = .ok () y ∧ fetch t0 y = .ok () t := by
  rw [outcome_eq_next] at h
  cases h
  obtain ⟨_, hu⟩ := honest_running (cycle_honest l s) ht
  unfold cycle at hu
  simp only [bind_eq_ok] at hu
  obtain ⟨_, x, hx, _, y, hy, hz⟩ := hu
  exact ⟨x, y, hx, hy, hz⟩

/-- How a cycle of T0 can stop: the exit, a MemoryFault, or the two errors of the table lookup, which come after the first
three stages (60_exceptions.md R220 to R227). -/
theorem cycle_cause {l : Lookup .t0} {s t : State} (h : cycle t0 l s = .stop t) :
    (exits s = true ∧ t = s.exited) ∨ (exits s = false ∧ MemoryStopped t) ∨
    (exits s = false ∧ l = .absent ∧ ∃ x, beforeDecode t0 s = .ok () x ∧
      t = x.setStatus (.faulted (.unknownOpcode x.fd.pc x.fd.inst x.counters.cycleCount))) ∨
    (exits s = false ∧ l = .link ∧ ∃ x, beforeDecode t0 s = .ok () x ∧
      t = x.setStatus (.faulted (.unsupportedFeature x.fd.pc x.fd.inst x.counters.cycleCount))) := by
  unfold cycle at h
  cases hb : beforeDecode t0 s with
  | stop x =>
    rw [hb] at h
    cases h
    unfold beforeDecode at hb
    rw [writeback_t0] at hb
    cases he : exits s with
    | true =>
      rw [he] at hb
      cases hb
      exact .inl ⟨rfl, rfl⟩
    | false =>
      rw [he] at hb
      simp only [Bool.false_eq_true, if_false, bind_ok] at hb
      refine .inr (.inl ⟨rfl, ?_⟩)
      cases hm : memory t0 s.wroteBack with
      | stop y => rw [hm] at hb; cases hb; exact memory_cause hm
      | ok a y => rw [hm] at hb; cases hb
  | ok _ x =>
    have he := (beforeDecode_t0_eq_ok.1 hb).1
    rw [hb, bind_ok] at h
    cases hd : decode t0 l x with
    | stop y =>
      rw [hd] at h
      cases h
      rcases decode_cause hd with hm | ⟨hl, hx⟩ | ⟨hl, hx⟩
      · exact .inr (.inl ⟨he, hm⟩)
      · exact .inr (.inr (.inl ⟨he, hl, x, rfl, hx⟩))
      · exact .inr (.inr (.inr ⟨he, hl, x, rfl, hx⟩))
    | ok _ y =>
      rw [hd, bind_ok] at h
      exact .inr (.inl ⟨he, fetch_cause h⟩)

/-- What the first three stages leave for Decode, and nothing of the state before them changed but what they write. -/
theorem beforeDecode_frame {s x : State} {u : Unit} (h : beforeDecode t0 s = .ok u x) :
    x.regs = writtenBack s ∧ x.pc = s.pc ∧ x.npc = s.npc ∧ x.fd = s.fd ∧ x.de = s.de ∧ x.em = executed t0 s.de ∧
    x.unmapped = s.unmapped ∧ x.status = s.status ∧
    x.counters.insnCount = s.counters.insnCount + if retires s.mw then 1 else 0 := by
  obtain ⟨-, v, y, hd, rfl⟩ := beforeDecode_t0_eq_ok.1 h
  have hf := (dataAccess_run t0 (s.wroteBack.setMw (copyToMw s.em s.mw.m))).frame
  have hh := (dataAccess_run t0 (s.wroteBack.setMw (copyToMw s.em s.mw.m))).honest
  rw [hd] at hf hh
  refine ⟨hf.regs, hf.pc, hf.npc, hf.fd, hf.de, ?_, hf.unmapped, hh, ?_⟩
  · rw [execute_em, setMw_de]
    exact congrArg (executed t0) hf.de
  · rw [← wroteBack_insn]
    exact hf.insn

/-- The state in which a cycle ends, whichever way: its registers, its map and its retirement count are decided by
Writeback. -/
theorem cycle_final (l : Lookup .t0) (s : State) :
    (cycle t0 l s).final.regs = (if exits s then committedRegs s else writtenBack s) ∧
    (cycle t0 l s).final.unmapped = s.unmapped ∧
    (cycle t0 l s).final.counters.insnCount = s.counters.insnCount + if retires s.mw then 1 else 0 := by
  unfold cycle beforeDecode
  rw [writeback_t0]
  cases h : exits s with
  | true =>
    have : retires s.mw = true := by
      unfold exits callsSys at h
      cases hr : retires s.mw <;> simp_all
    rw [this]
    exact ⟨rfl, rfl, rfl⟩
  | false =>
    simp only [Bool.false_eq_true, if_false, bind_ok, ← wroteBack_insn]
    let P : State → Prop := fun x =>
      x.regs = writtenBack s ∧ x.unmapped = s.unmapped ∧ x.counters.insnCount = s.wroteBack.counters.insnCount
    obtain ⟨x, b, hd, hf, -⟩ := memory_final t0 s.wroteBack
    refine bind_final (P := P) (bind_final (P := P) ?_ fun _ y _ hy => hy) fun _ y _ hy => ?_
    · rw [hf]
      exact ⟨hd.regs, hd.unmapped, hd.insn⟩
    · refine bind_final (P := P) ?_ fun _ z _ hz => ?_
      · have := decode_frame t0 l y
        exact ⟨this.regs.trans hy.1, this.unmapped.trans hy.2.1, this.insn.trans hy.2.2⟩
      · obtain ⟨h1, -, -, -, -, h2, -, h3⟩ := fetch_final t0 z
        exact ⟨h1.trans hz.1, h3.trans hz.2.1, by rw [h2]; exact hz.2.2⟩

/-- `exec` is the cycle with the instruction's word in IF/ID and the table's answer for it. -/
theorem exec_eq (i : Instr) (s : State) : exec i s = cycleStep t0 (lookupInstr i) (s.inDecode (encode i)) := by
  cases i <;> rfl

theorem cycleStep_running {D : Sizes} {C : Config D} {l : Lookup D} {s : State D} (h : s.status = .running) :
    cycleStep C l s = .next (cycle C l s).final := by
  unfold cycleStep
  rw [h]
  exact outcome_eq_next _

/-- A next state comes from a running one. -/
theorem running_of_next {D : Sizes} {C : Config D} {l : Lookup D} {s t : State D} (h : cycleStep C l s = .next t) :
    s.status = .running ∧ t = (cycle C l s).final := by
  unfold cycleStep at h
  split at h
  · next hs =>
    rw [outcome_eq_next] at h
    cases h
    exact ⟨hs, rfl⟩
  · cases h
  · cases h

/-- An instruction's cycle that leaves the machine running, taken apart. -/
theorem exec_running {i : Instr} {s t : State} (h : exec i s = .next t) (ht : t.status = .running) :
    s.status = .running ∧ exits s = false ∧ ∃ x y, beforeDecode t0 (s.inDecode (encode i)) = .ok () x ∧
      decode t0 (lookupInstr i) x = .ok () y ∧ fetch t0 y = .ok () t := by
  rw [exec_eq] at h
  obtain ⟨hs, rfl⟩ := running_of_next h
  obtain ⟨x, y, h1, h2, h3⟩ := cycle_running (outcome_eq_next _) ht
  exact ⟨hs, (beforeDecode_t0_eq_ok.1 h1).1, x, y, h1, h2, h3⟩

end Sys2Proof.Machine
end

