-- ==== Sys2Proof/Laws/Complete.lean ====
section
/-! SUPPORT. When the parts of a cycle complete, and that an instruction's cycle completes under conditions on the state
before it. -/

namespace Sys2Proof.Machine

section
variable {D : Sizes}

/-! ## Data accesses -/

theorem cacheMapped_congr {s t : State D} (h : cacheMapped s) (hl : ∀ i w, t.line i w = s.line i w)
    (hm : ∀ wa, t.mapped wa = s.mapped wa) : cacheMapped t := by
  intro i w hv k
  rw [hl] at hv
  rw [hm, hl]
  exact h i w hv k

theorem cacheMapped_filled {s : State D} (h : cacheMapped s) {wa : D.WordAddr} (hl : lineMapped s wa) :
    cacheMapped (s.filled (D.lineBase wa)) := by
  intro i w
  rw [filled_line]
  have hm : ∀ x, (s.filled (D.lineBase wa)).mapped x = s.mapped x := fun _ => rfl
  split
  · next e =>
    intro _ k
    rw [hm, e.1]
    show s.mapped (D.lineWord (D.baseOf (D.tagOf (D.lineBase wa)) (D.setOf (D.lineBase wa))) k) = true
    rw [tagOf_lineBase, setOf_lineBase, ← lineBase_eq]
    exact hl k
  · intro hv k
    rw [hm]
    exact h i w hv k

theorem victimMapped_of_cacheMapped {s : State D} (h : cacheMapped s) (b : D.WordAddr) : victimMapped s b :=
  fun hv _ k => h _ _ hv k

theorem lineMapped_self {s : State D} {wa : D.WordAddr} (h : lineMapped s wa) : s.mapped wa = true := by
  have := h (D.offOf wa)
  rwa [lineBase_eq, lineWord_self] at this

/-- A valid line's words being mapped, a hit is in a mapped line. -/
theorem lineMapped_of_hit {s : State D} (h : cacheMapped s) {wa : D.WordAddr} {w : D.Way} (hl : s.lookup wa = some w) :
    lineMapped s wa := by
  intro k
  have hw := lookup_eq_some hl
  have := h _ _ hw.1 k
  rwa [hw.2, ← lineBase_eq] at this

theorem dRead_complete {C : Config D} {s : State D} {ea : D.Addr} (h : cacheMapped s) (ha : canAccess s ea) :
    ∃ v t, dRead C ea s = .ok v t ∧ cacheMapped t := by
  cases hl : s.lookup (D.wordAddr ea) with
  | some w =>
    exact ⟨_, _, dRead_eq_ok.2 ⟨ha.1, readWord_eq_ok.2 (.inl ⟨w, hl, rfl, rfl⟩)⟩,
      cacheMapped_congr h (fun _ _ => rfl) fun _ => rfl⟩
  | none =>
    refine ⟨_, _, dRead_eq_ok.2 ⟨ha.1, readWord_eq_ok.2 (.inr ⟨hl, lineMapped_self ha.2,
      victimMapped_of_cacheMapped h _, ha.2, rfl, rfl⟩)⟩, ?_⟩
    exact cacheMapped_filled (cacheMapped_congr (t := s.setCounters _) h (fun _ _ => rfl) fun _ => rfl) ha.2

theorem dWrite_complete {C : Config D} {s : State D} {ea : D.Addr} {v : D.Word} (h : cacheMapped s) (ha : canAccess s ea) :
    ∃ t, dWrite C ea v s = .ok () t ∧ cacheMapped t := by
  cases hl : s.lookup (D.wordAddr ea) with
  | some w =>
    refine ⟨_, dWrite_eq_ok.2 ⟨ha.1, writeWord_eq_ok.2 (.inl ⟨w, hl, rfl⟩)⟩, ?_⟩
    intro i x
    rw [setCounters_line, setLine_line]
    have hm : ∀ y, ((s.setLine (D.setOf (D.wordAddr ea)) w ((s.line (D.setOf (D.wordAddr ea)) w).written
        (D.offOf (D.wordAddr ea)) v)).setCounters s.counters.countHit).mapped y = s.mapped y := fun _ => rfl
    split
    · next e =>
      intro hv k
      rw [hm, e.1]
      exact h _ _ hv k
    · intro hv k
      rw [hm]
      exact h _ _ hv k
  | none =>
    refine ⟨_, dWrite_eq_ok.2 ⟨ha.1, writeWord_eq_ok.2 (.inr ⟨hl, lineMapped_self ha.2,
      victimMapped_of_cacheMapped h _, ha.2, rfl⟩)⟩, ?_⟩
    have h' : cacheMapped ((s.setCounters (s.counters.countMiss C.missPenalty)).setMem
        (setMemWord s.mem (D.wordAddr ea) v)) := cacheMapped_congr h (fun _ _ => rfl) fun _ => rfl
    exact cacheMapped_filled h' ha.2

end

theorem dataAccess_complete {s : State} (h : cacheMapped s)
    (ha : s.em.flags.load = true ∨ s.em.flags.store = true → canAccess s s.em.e) :
    ∃ v t, dataAccess t0 s = .ok v t ∧ cacheMapped t := by
  unfold dataAccess
  split
  · next hs =>
    obtain ⟨t, h1, h2⟩ := dWrite_complete (C := t0) (v := s.em.a) h
      ((effAddr_t0 s.em.e).symm ▸ ha (.inr hs) : canAccess s (Sizes.t0.effAddr s.em.e))
    exact ⟨_, _, by rw [h1]; rfl, h2⟩
  · split
    · next hl => exact dRead_complete h ((effAddr_t0 s.em.e).symm ▸ ha (.inl hl) : canAccess s (Sizes.t0.effAddr s.em.e))
    · exact ⟨_, _, rfl, h⟩

/-! ## The stages -/

theorem resolve_complete {s : State} {src : Option Sizes.t0.Reg} (h : cacheMapped s)
    (ha : src ≠ none → s.em.port.dstE ≠ src → s.em.port.dstM = src → canAccess s s.em.e) :
    ∃ v t, resolve t0 src s = .ok v t ∧ cacheMapped t := by
  unfold resolve
  split
  · exact ⟨_, _, rfl, h⟩
  · next r =>
    split
    · exact ⟨_, _, rfl, h⟩
    · next h1 =>
      split
      · next h2 => exact dRead_complete h ((effAddr_t0 s.em.e).symm ▸ ha (by simp) h1 h2 : canAccess s (Sizes.t0.effAddr s.em.e))
      · repeat' split
        all_goals exact ⟨_, _, rfl, h⟩

theorem beforeDecode_complete {s : State} (h : readyToDecode s) :
    ∃ x, beforeDecode t0 s = .ok () x ∧ cacheMapped x := by
  obtain ⟨-, h2, h3, h4⟩ := h
  obtain ⟨v, y, h5, h6⟩ := dataAccess_complete (s := s.wroteBack.setMw (copyToMw s.em s.mw.m))
    (cacheMapped_congr h3 (fun _ _ => rfl) fun _ => rfl) h4
  exact ⟨_, beforeDecode_t0_eq_ok.2 ⟨h2, v, y, h5, rfl⟩, cacheMapped_congr h6 (fun _ _ => rfl) fun _ => rfl⟩

/-- The conditions on the stages before Decode do not look at IF/ID. -/
theorem readyToDecode_inDecode {s : State} (w : Word) : readyToDecode (s.inDecode w) ↔ readyToDecode s := Iff.rfl

theorem decode_complete {i : Instr} {s x : State} {e : Entry .t0}
    (hx : beforeDecode t0 (s.inDecode (encode i)) = .ok () x) (hc : cacheMapped x)
    (hA : operandReady s e.port.srcA) (hB : operandReady s e.port.srcB) :
    ∃ y, decode t0 (.op e) x = .ok () y ∧ cacheMapped y := by
  obtain ⟨-, -, -, -, -, f6, f7, -, -⟩ := beforeDecode_frame hx
  have f6' : x.em = executed t0 s.de := f6
  have hm : ∀ wa, x.mapped wa = s.mapped wa := fun wa => by simp only [State.mapped, f7]; rfl
  obtain ⟨a, x1, h1, c1⟩ := resolve_complete (s := x.setDe (copyToDe x.fd e x.de.a x.de.b)) (src := e.port.srcA)
    (cacheMapped_congr hc (fun _ _ => rfl) fun _ => rfl) (by
      intro p q r
      show canAccess x x.em.e
      rw [setDe_em, f6'] at q r
      rw [f6']
      have := hA ⟨p, q, r⟩
      exact ⟨this.1, fun k => by rw [hm]; exact this.2 k⟩)
  have g1 := (resolve_run t0 e.port.srcA (x.setDe (copyToDe x.fd e x.de.a x.de.b))).frame
  rw [h1] at g1
  have g1em : x1.em = executed t0 s.de := g1.em.trans f6'
  have hm1 : ∀ wa, x1.mapped wa = s.mapped wa := fun wa => (g1.mapped wa).trans (hm wa)
  obtain ⟨b, x2, h2, c2⟩ := resolve_complete (s := x1.setDe (copyToDe x.fd e a x.de.b)) (src := e.port.srcB)
    (cacheMapped_congr c1 (fun _ _ => rfl) fun _ => rfl) (by
      intro p q r
      show canAccess x1 x1.em.e
      rw [setDe_em, g1em] at q r
      rw [g1em]
      have := hB ⟨p, q, r⟩
      exact ⟨this.1, fun k => by rw [hm1]; exact this.2 k⟩)
  refine ⟨_, (decode_op_eq_ok (by rw [f6']; rfl)).2 ⟨a, x1, b, x2, h1, h2, rfl⟩, ?_⟩
  split
  · exact cacheMapped_congr c2 (fun _ _ => rfl) fun _ => rfl
  · exact cacheMapped_congr c2 (fun _ _ => rfl) fun _ => rfl

/-- Where Fetch will read, after a Decode that completed (40_pipeline_engine.md R114). -/
theorem decode_npc {i : Instr} {s x y : State} (hx : beforeDecode t0 (s.inDecode (encode i)) = .ok () x)
    (h : decode t0 (lookupInstr i) x = .ok () y) : y.npc = fetchAddr i s ∧ y.unmapped = s.unmapped := by
  obtain ⟨-, -, f3, f4, -, f6, f7, -, -⟩ := beforeDecode_frame hx
  refine ⟨?_, ?_⟩
  · cases hli : lookupInstr i with
    | link =>
      rw [hli] at h
      unfold decode at h
      split at h
      · next hs =>
        unfold squashed at hs
        rw [f6] at hs
        cases hs
      · exact absurd h (by simp)
    | absent => cases i <;> cases hli
    | op e =>
      rw [hli] at h
      obtain ⟨a, x1, b, x2, h1, h2, rfl⟩ := (decode_op_eq_ok (by rw [f6]; rfl)).1 h
      have g1 := (resolve_run t0 e.port.srcA (x.setDe (copyToDe x.fd e x.de.a x.de.b))).frame
      rw [h1] at g1
      have g2 := (resolve_run t0 e.port.srcB (x1.setDe (copyToDe x.fd e a x.de.b))).frame
      rw [h2] at g2
      have n2 : x2.npc = s.npc := (g2.npc.trans g1.npc).trans f3
      have fd2 : x2.fd = (s.inDecode (encode i)).fd := (g2.fd.trans g1.fd).trans f4
      cases i <;> cases hli <;>
        simp only [rowNop, rowJ, rowAdd, rowSub, rowAnd, rowOr, rowXor, rowSlt, rowAddi, rowOri, rowLui, rowLw, rowSw,
          rowSyscall, reduceCtorEq, if_false, if_true]
      case j.refl t =>
        show jumpTarget t0 x2.fd.pc (fieldTarg x2.fd.inst) = _
        rw [fd2]
        show jumpTarget t0 s.fd.pc (fieldTarg (encodeJ 1 t)) = _
        rw [fieldTarg_encodeJ]
        rfl
      all_goals exact n2
  · have := (decode_frame t0 (lookupInstr i) x).unmapped
    rw [h] at this
    exact this.trans f7

/-! ## The cycle of an instruction -/

/-- An instruction that is an opcode completes its cycle: its record and its operands are in ID/EX. -/
theorem exec_complete {i : Instr} {s : State} {e : Entry .t0} (hl : lookupInstr i = .op e) (hc : canComplete i s) :
    ∃ t, exec i s = .next t ∧ t.status = .running ∧
      t.de = ⟨encode i, s.fd.pc, e.op, e.fu, e.flags, e.port, operandIn t e.port.srcA, operandIn t e.port.srcB⟩ := by
  obtain ⟨hr, hA, hB, hF⟩ := hc
  have hp : portOf i = e.port := by unfold portOf; rw [hl]
  rw [hp] at hA hB
  obtain ⟨x, hx, cx⟩ := beforeDecode_complete ((readyToDecode_inDecode (encode i)).2 hr)
  obtain ⟨y, hy, cy⟩ := decode_complete hx cx hA hB
  have ny := decode_npc hx (hl ▸ hy)
  have hf : fetch t0 y = .ok () (y.fetched t0) := by
    rw [fetch_eq, if_pos]
    rw [ny.1]
    rw [instMapped_t0]
    have hm : y.mapped (Sizes.t0.wordAddr (fetchAddr i s)) = s.mapped (Sizes.t0.wordAddr (fetchAddr i s)) := by
      simp only [State.mapped, ny.2]
    exact ⟨hF.1, hm.trans hF.2⟩
  have hcyc : cycle t0 (lookupInstr i) (s.inDecode (encode i)) = .ok () (y.fetched t0) := by
    unfold cycle
    rw [hx, bind_ok, hl, hy, bind_ok, hf]
  refine ⟨y.fetched t0, ?_, ?_, ?_⟩
  · rw [exec_eq, cycleStep_running (show (s.inDecode (encode i)).status = .running from hr.1), hcyc]
    rfl
  · have := cycle_honest (lookupInstr i) (s.inDecode (encode i))
    rw [hcyc] at this
    exact Eq.trans this hr.1
  · obtain ⟨-, -, -, f4, -, f6, -, -, -⟩ := beforeDecode_frame hx
    have hd := decode_operands (by rw [f6]; rfl) hy
    show y.de = _
    rw [hd, f4]
    rfl

end Sys2Proof.Machine
end

