-- ==== Sys2Proof/Laws/PerInstr.lean ====
section
/-! SUPPORT. What holds of every instruction as syntax, proved constructor by constructor. -/

/-- The record that the opcode table gives for the instruction is admitted (30_encoding.md R75: WF2, WF3, WF4, WF6, WF9,
WF10). -/
def Sys2Proof.Laws.RowAdmitted.Statement (i : Sys2Proof.Instr) : Prop :=
  ∀ e, Sys2Proof.Machine.lookupInstr i = .op e → e.admitted = true

namespace Sys2Proof.Laws.RowAdmitted

/-- A destination field that goes through `nz` is admitted. -/
theorem nz_ne_zero (r : Reg) : Machine.nz r ≠ some Sizes.t0.r0 := by
  unfold Machine.nz
  split
  · simp
  · next h =>
    intro e
    exact h (BitVec.eq_of_toNat_eq (congrArg Fin.val (Option.some.inj e)))

/-- A record with one destination `nz r` in `dstE`, and no flag. -/
theorem aluRow (o : Opcode) (fu : FuClass) (a b : Option Sizes.t0.Reg) (r : Reg) (h1 : o ≠ .jump) (h2 : o ≠ .nop) :
    (Entry.mk o fu Flags.clear ⟨a, b, none, Machine.nz r, none⟩).admitted = true := by
  have h := nz_ne_zero r
  simp [Entry.admitted, Port.dstNotZero, Port.dstDistinct, Flags.exclusive, Entry.dstMOnlyLoad, Entry.jumpBare,
    Entry.syscallBare, Entry.nopBare, Flags.clear, h1, h2]
  exact ⟨h, (em _).symm⟩

theorem nop : Statement .nop := by intro e h; cases h; decide
theorem j (targ : BitVec 26) : Statement (.j targ) := by intro e h; cases h; decide
theorem add (rd rs rt : Reg) : Statement (.add rd rs rt) := by
  intro e h; cases h; exact aluRow _ _ _ _ _ (by decide) (by decide)
theorem sub (rd rs rt : Reg) : Statement (.sub rd rs rt) := by
  intro e h; cases h; exact aluRow _ _ _ _ _ (by decide) (by decide)
theorem and (rd rs rt : Reg) : Statement (.and rd rs rt) := by
  intro e h; cases h; exact aluRow _ _ _ _ _ (by decide) (by decide)
theorem or (rd rs rt : Reg) : Statement (.or rd rs rt) := by
  intro e h; cases h; exact aluRow _ _ _ _ _ (by decide) (by decide)
theorem xor (rd rs rt : Reg) : Statement (.xor rd rs rt) := by
  intro e h; cases h; exact aluRow _ _ _ _ _ (by decide) (by decide)
theorem slt (rd rs rt : Reg) : Statement (.slt rd rs rt) := by
  intro e h; cases h; exact aluRow _ _ _ _ _ (by decide) (by decide)
theorem addi (rt rs : Reg) (imm : BitVec 16) : Statement (.addi rt rs imm) := by
  intro e h; cases h; exact aluRow _ _ _ _ _ (by decide) (by decide)
theorem ori (rt rs : Reg) (imm : BitVec 16) : Statement (.ori rt rs imm) := by
  intro e h; cases h; exact aluRow _ _ _ _ _ (by decide) (by decide)
theorem lui (rt : Reg) (imm : BitVec 16) : Statement (.lui rt imm) := by
  intro e h; cases h; exact aluRow _ _ _ _ _ (by decide) (by decide)
theorem lw (rt : Reg) (imm : BitVec 16) (rs : Reg) : Statement (.lw rt imm rs) := by
  intro e h
  cases h
  have h := nz_ne_zero rt
  simp [Entry.admitted, Port.dstNotZero, Port.dstDistinct, Flags.exclusive, Entry.dstMOnlyLoad, Entry.jumpBare,
    Entry.syscallBare, Entry.nopBare, Machine.rowLw, Machine.portLw, Machine.flagsLoad]
  exact h
theorem sw (rt : Reg) (imm : BitVec 16) (rs : Reg) : Statement (.sw rt imm rs) := by
  intro e h
  cases h
  simp [Entry.admitted, Port.dstNotZero, Port.dstDistinct, Flags.exclusive, Entry.dstMOnlyLoad, Entry.jumpBare,
    Entry.syscallBare, Entry.nopBare, Machine.rowSw, Machine.portSw, Machine.flagsStore]
theorem link (ignored : BitVec 26) : Statement (.link ignored) := by intro e h; cases h
theorem syscall : Statement .syscall := by intro e h; cases h; decide

end Sys2Proof.Laws.RowAdmitted
end

