-- ==== Sys2Proof/Laws/Pending.lean ====
section
/-! SUPPORT. What an admitted record says, what the stages do to the memory a program sees, and the registers that are
pending. -/

namespace Sys2Proof.Machine

section
variable {D : Sizes}

/-! ## An admitted record (30_encoding.md R75) -/

/-- WF2 to WF4, WF9 and WF10 as they are used, of an opcode, its flags and its Port. -/
structure AdmittedFacts (op : Opcode) (flags : Flags) (port : Port D) : Prop where
  dstE    : port.dstE ≠ some D.r0
  dstM    : port.dstM ≠ some D.r0
  differ  : ∀ r, port.dstE = some r → port.dstM ≠ some r
  load    : flags.load = true → flags.store = false
  dstLoad : ∀ r, port.dstM = some r → flags.load = true
  syscall : flags.syscall = true → port = Port.allNone ∧ op ≠ .nop
  nop     : op = .nop → port = Port.allNone ∧ flags = Flags.clear

theorem admitted_facts {e : Entry D} (h : e.admitted = true) : AdmittedFacts e.op e.flags e.port := by
  obtain ⟨op, fu, ⟨l, st, sy, ot⟩, p⟩ := e
  simp only [Entry.admitted, Port.dstNotZero, Port.dstDistinct, Flags.exclusive, Entry.dstMOnlyLoad, Entry.jumpBare,
    Entry.syscallBare, Entry.nopBare, Bool.and_eq_true, bne_iff_ne, ne_eq, Bool.or_eq_true, beq_iff_eq] at h
  obtain ⟨⟨⟨⟨⟨⟨h1, h2⟩, h3⟩, h4⟩, h5⟩, h6⟩, h7⟩ := h
  refine ⟨h1.1, h1.2, fun r hE hM => ?_, fun hl => ?_, fun r hM => ?_, fun hs => ?_, fun hn => ?_⟩
  · have := h2.resolve_left (fun n => n (hE.trans hM.symm))
    rw [this] at hE
    cases hE
  · simp only at hl
    subst hl
    cases st <;> simp_all
  · rcases h4 with h4 | h4
    · rw [h4] at hM
      cases hM
    · exact h4
  · simp only at hs
    subst hs
    refine ⟨by simpa using h6, fun hn => ?_⟩
    have := (h7.resolve_left (fun n => n hn)).2
    simp [Flags.clear] at this
  · exact h7.resolve_left (fun n => n hn)

theorem PipelineInv.deFacts {s : State D} (h : PipelineInv s) : AdmittedFacts s.de.op s.de.flags s.de.port :=
  admitted_facts h.de
theorem PipelineInv.emFacts {s : State D} (h : PipelineInv s) : AdmittedFacts s.em.op s.em.flags s.em.port :=
  admitted_facts h.em
theorem PipelineInv.mwFacts {s : State D} (h : PipelineInv s) : AdmittedFacts s.mw.op s.mw.flags s.mw.port :=
  admitted_facts h.mw

end

/-- The commit of an admitted entry and T0's collaborator leave register 0 at zero. -/
theorem PipelineInv.writtenBack_zero {s : State} (h : PipelineInv s) : readReg (writtenBack s) Sizes.t0.r0 = 0 := by
  have hc : readReg (committedRegs s) Sizes.t0.r0 = 0 := by
    rw [readReg_committedRegs, if_neg h.mwFacts.dstM, if_neg h.mwFacts.dstE, if_pos rfl]
  unfold writtenBack
  split
  · rw [readReg_writeReg, if_neg (by decide), hc]
  · exact hc

section
variable {D : Sizes}

/-! ## The stages and the memory a program sees -/

theorem dataAccess_mem {C : Config D} {s t : State D} {v : D.Word} (hi : MemoryInv s) (h : dataAccess C s = .ok v t) :
    MemoryInv t ∧
    (∀ wa, t.archMem wa =
      if s.em.flags.store = true ∧ wa = D.wordAddr (D.effAddr s.em.e) then s.em.a else s.archMem wa) ∧
    v = if s.em.flags.store = true then 0
      else if s.em.flags.load = true then s.archMem (D.wordAddr (D.effAddr s.em.e)) else 0 := by
  unfold dataAccess at h
  split at h
  · next hs =>
    obtain ⟨_, x, h1, h2⟩ := bind_eq_ok.1 h
    cases h2
    have := writeWord_archMem hi (dWrite_eq_ok.1 h1).2
    refine ⟨this.1, fun wa => ?_, by rw [hs]; rfl⟩
    rw [this.2, hs]
    simp
  · next hs =>
    split at h
    · next hl =>
      have := readWord_archMem hi (dRead_eq_ok.1 h).2
      refine ⟨this.2.1, fun wa => ?_, ?_⟩
      · rw [this.2.2]
        simp [hs]
      · simp [hs, hl, this.1]
    · next hl =>
      cases h
      exact ⟨hi, by simp [hs], by simp [hs, hl]⟩

theorem resolve_mem {C : Config D} {src : Option D.Reg} {s t : State D} {v : D.Word} (hi : MemoryInv s)
    (h : resolve C src s = .ok v t) : MemoryInv t ∧ ∀ wa, t.archMem wa = s.archMem wa := by
  obtain ⟨⟨rfl, -⟩ | ⟨r, -, -, -, hd⟩, -⟩ := resolve_eq_ok h
  · exact ⟨hi, fun _ => rfl⟩
  · exact (readWord_archMem hi (dRead_eq_ok.1 hd).2).2

theorem decode_mem {C : Config D} {l : Lookup D} {s t : State D} (ht : s.em.taken = false) (hi : MemoryInv s)
    (h : decode C l s = .ok () t) : MemoryInv t ∧ ∀ wa, t.archMem wa = s.archMem wa := by
  cases l with
  | absent =>
    unfold decode squashed at h
    rw [ht] at h
    exact absurd h (by simp)
  | link =>
    unfold decode squashed at h
    rw [ht] at h
    exact absurd h (by simp)
  | op e =>
    obtain ⟨a, x, b, y, h1, h2, rfl⟩ := (decode_op_eq_ok ht).1 h
    have i1 : MemoryInv (s.setDe (copyToDe s.fd e s.de.a s.de.b)) := hi.congr rfl rfl
    have m1 := resolve_mem i1 h1
    have i2 : MemoryInv (x.setDe (copyToDe s.fd e a s.de.b)) := m1.1.congr rfl rfl
    have m2 := resolve_mem i2 h2
    have e2 : ∀ wa, y.archMem wa = s.archMem wa := fun wa => (m2.2 wa).trans (m1.2 wa)
    constructor
    · split <;> exact m2.1.congr rfl rfl
    · intro wa
      split <;> exact e2 wa

end

/-- The first three stages: the store in EX/MEM, if it is one, and the load's word in MEM/WB. -/
theorem beforeDecode_mem {s x : State} (hi : MemoryInv s) (h : beforeDecode t0 s = .ok () x) :
    MemoryInv x ∧
    (∀ wa, x.archMem wa =
      if s.em.flags.store = true ∧ wa = Sizes.t0.wordAddr s.em.e then s.em.a else s.archMem wa) ∧
    x.mw = copyToMw s.em (if s.em.flags.store = true then 0
      else if s.em.flags.load = true then s.archMem (Sizes.t0.wordAddr s.em.e) else 0) := by
  obtain ⟨-, v, y, hd, rfl⟩ := beforeDecode_t0_eq_ok.1 h
  have hi' : MemoryInv (s.wroteBack.setMw (copyToMw s.em s.mw.m)) := hi.congr rfl rfl
  obtain ⟨m1, m2, m3⟩ := dataAccess_mem hi' hd
  refine ⟨m1.congr rfl rfl, m2, ?_⟩
  rw [m3]
  rfl

/-- A cycle that leaves the machine running, the parts of it that Decode does not decide. -/
structure Ran (s t : State) : Prop where
  inv     : MemoryInv t
  archMem : ∀ wa, t.archMem wa =
    if s.em.flags.store = true ∧ wa = Sizes.t0.wordAddr s.em.e then s.em.a else s.archMem wa
  mw      : t.mw = copyToMw s.em (if s.em.flags.store = true then 0
    else if s.em.flags.load = true then s.archMem (Sizes.t0.wordAddr s.em.e) else 0)
  em      : t.em = executed t0 s.de
  regs    : t.regs = writtenBack s

theorem fetch_mem {s t : State} (h : fetch t0 s = .ok () t) :
    t.cache = s.cache ∧ t.mem = s.mem ∧ ∀ wa, t.archMem wa = s.archMem wa := by
  have := fetch_final t0 s
  rw [h] at this
  obtain ⟨-, -, -, -, hc, -, hm, -⟩ := this
  refine ⟨hc, hm, fun wa => ?_⟩
  simp only [final_ok] at hc hm
  simp only [State.archMem, State.lookup, State.line, hc, hm]

theorem exec_ran {i : Instr} {s t : State} (hi : MemoryInv s) (h : exec i s = .next t) (ht : t.status = .running) :
    Ran s t := by
  obtain ⟨-, -, x, y, hx, hy, hf⟩ := exec_running h ht
  have i0 : MemoryInv (s.inDecode (encode i)) := hi.congr rfl rfl
  have m1 := beforeDecode_mem i0 hx
  obtain ⟨f1, -, -, -, -, f6, -, -, -⟩ := beforeDecode_frame hx
  have fy := decode_frame t0 (lookupInstr i) x
  rw [hy] at fy
  have m2 := decode_mem (by rw [f6]; rfl) m1.1 hy
  obtain ⟨c1, c2, c3⟩ := fetch_mem hf
  have ff := fetch_final t0 y
  rw [hf] at ff
  obtain ⟨g1, -, g3, g4, -, -, -, -⟩ := ff
  refine ⟨m2.1.congr c1 c2, fun wa => ?_, g4.trans (fy.mw.trans m1.2.2), g3.trans (fy.em.trans f6),
    g1.trans (fy.regs.trans f1)⟩
  rw [c3, m2.2, m1.2.1]
  rfl

/-! ## The registers that are pending -/

/-- A register when everything before Decode has finished: the youngest entry that writes it decides. -/
theorem pending_get (s : State) (r : Sizes.t0.Reg) : (pending s).get r =
    if s.de.port.dstM = some r then
      (if s.em.flags.store = true ∧ Sizes.t0.wordAddr (executedE t0 s.de) = Sizes.t0.wordAddr s.em.e then s.em.a
        else s.archMem (Sizes.t0.wordAddr (executedE t0 s.de)))
    else if s.de.port.dstE = some r then executedE t0 s.de
    else if s.em.port.dstM = some r then s.archMem (Sizes.t0.wordAddr s.em.e)
    else if s.em.port.dstE = some r then s.em.e
    else readReg (writtenBack s) r := by
  unfold pending Arch.get EM.finish
  simp only [readReg_writeDst]
  rfl

theorem pending_mem (s : State) (wa : Sizes.t0.WordAddr) : (pending s).mem wa =
    if s.de.flags.store = true ∧ wa = Sizes.t0.wordAddr (executedE t0 s.de) then s.de.a
    else if s.em.flags.store = true ∧ wa = Sizes.t0.wordAddr s.em.e then s.em.a else s.archMem wa := rfl

theorem arch_ext {A B : Arch} (hr : ∀ r, A.get r = B.get r) (hm : ∀ wa, A.mem wa = B.mem wa) : A = B := by
  obtain ⟨R, M⟩ := A
  obtain ⟨R', M'⟩ := B
  simp only [Arch.mk.injEq]
  exact ⟨regs_ext hr, funext hm⟩

theorem put_get (A : Arch) (r q : Sizes.t0.Reg) (v : Word) :
    (A.put r v).get q = if q = r ∧ r ≠ 0 then v else A.get q := by
  unfold Arch.put Arch.get
  by_cases h : r = 0
  · simp only [h, if_true, ne_eq, not_true_eq_false, and_false, if_false]
  · simp only [h, if_false, readReg_writeReg, ne_eq, not_false_eq_true, and_true]

/-- `E` of an entry, by its opcode and its word. -/
theorem executed_e (w : Word) (pc : Word) (o : Opcode) (fu : FuClass) (f : Flags) (p : Port .t0) (a b : Word) :
    (executed t0 ⟨w, pc, o, fu, f, p, a, b⟩).e = t0Effect o w pc a b := rfl

theorem executed_a (w : Word) (pc : Word) (o : Opcode) (fu : FuClass) (f : Flags) (p : Port .t0) (a b : Word) :
    (executed t0 ⟨w, pc, o, fu, f, p, a, b⟩).a = a := rfl

theorem index_eq_zero {r : Reg} : index r = 0 ↔ r = 0 :=
  ⟨fun e => BitVec.eq_of_toNat_eq (congrArg Fin.val e), fun e => by rw [e]; rfl⟩

theorem index_inj {r q : Reg} : index r = index q ↔ r = q :=
  ⟨fun e => BitVec.eq_of_toNat_eq (congrArg Fin.val e), fun e => by rw [e]⟩

theorem writeDst_nz (A : Arch) (r : Reg) (v : Word) : writeDst A.regs (nz r) v = (A.write r v).regs := by
  unfold nz Arch.write Arch.put
  by_cases h : r = 0
  · subst h
    rfl
  · rw [if_neg h, if_neg fun e => h (index_eq_zero.1 e)]
    rfl

theorem finish_mem {b : EM} (h : b.flags.store = false) (A : Arch) : (b.finish A).mem = A.mem := by
  funext wa
  simp [EM.finish, h]

/-- An entry with no destination and no store leaves everything. -/
theorem finish_none {b : EM} (hp : b.port = Port.allNone) (hs : b.flags.store = false) (A : Arch) : b.finish A = A := by
  refine arch_ext (fun r => ?_) fun wa => by rw [finish_mem hs]
  simp only [EM.finish, hp]
  rfl

/-- An entry whose destination is an ALU result. -/
theorem finish_alu {b : EM} {r : Reg} (hE : b.port.dstE = nz r) (hM : b.port.dstM = none) (hs : b.flags.store = false)
    (A : Arch) : b.finish A = A.write r b.e := by
  refine arch_ext (fun q => ?_) fun wa => by rw [finish_mem hs]; rfl
  rw [Arch.get, Arch.get, ← writeDst_nz]
  simp only [EM.finish, hE, hM]
  rfl

/-- A load. -/
theorem finish_load {b : EM} {r : Reg} (hE : b.port.dstE = none) (hM : b.port.dstM = nz r) (hs : b.flags.store = false)
    (A : Arch) : b.finish A = A.write r (A.mem (Sizes.t0.wordAddr b.e)) := by
  refine arch_ext (fun q => ?_) fun wa => by rw [finish_mem hs]; rfl
  rw [Arch.get, Arch.get, ← writeDst_nz]
  simp only [EM.finish, hE, hM]
  rfl

/-- A store. -/
theorem finish_store {b : EM} (hE : b.port.dstE = none) (hM : b.port.dstM = none) (hs : b.flags.store = true) (A : Arch) :
    b.finish A = { A with mem := fun wa => if wa = Sizes.t0.wordAddr b.e then b.a else A.mem wa } := by
  refine arch_ext (fun q => ?_) fun wa => ?_
  · simp only [Arch.get, EM.finish, hE, hM]
    rfl
  · simp only [EM.finish, hs, true_and]

end Sys2Proof.Machine
end

