-- ==== Sys2Proof/Tests/Slice0.lean ====
section
/-! SUPPORT. Tests: what is refused as ill-formed, words of the spec decoded, one step of each instruction with the results of
95_test_vectors.md, and for every statement with hypotheses a state that meets them. -/

namespace Sys2Proof.Tests

open Sys2Proof.Machine

/-! ## Ill-formed terms (30_encoding.md R75, R85) -/

theorem test_wf2_destination_zero_refused :
    Entry.admitted (D := .t0) ⟨.add, .ialu, Flags.clear, ⟨some 1, some 2, none, some 0, none⟩⟩ = false := by decide
theorem test_wf2_load_destination_zero_refused :
    Entry.admitted (D := .t0) ⟨.lw, .rdport, flagsLoad, ⟨none, some 1, none, none, some 0⟩⟩ = false := by decide
theorem test_wf3_equal_destinations_refused :
    Entry.admitted (D := .t0) ⟨.lw, .rdport, flagsLoad, ⟨none, some 1, none, some 2, some 2⟩⟩ = false := by decide
theorem test_wf3_different_destinations_admitted :
    Entry.admitted (D := .t0) ⟨.lw, .rdport, flagsLoad, ⟨none, some 1, none, some 3, some 2⟩⟩ = true := by decide
theorem test_wf4_two_flags_refused :
    Entry.admitted (D := .t0) ⟨.lw, .rdport, ⟨true, true, false, 0⟩, ⟨none, some 1, none, none, some 2⟩⟩ = false := by decide
theorem test_wf4_load_destination_without_load_refused :
    Entry.admitted (D := .t0) ⟨.add, .ialu, Flags.clear, ⟨some 1, some 2, none, none, some 3⟩⟩ = false := by decide
theorem test_wf6_jump_with_source_refused :
    Entry.admitted (D := .t0) ⟨.jump, .ialu, Flags.clear, ⟨some 1, none, none, none, none⟩⟩ = false := by decide
theorem test_wf6_jump_with_flag_refused :
    Entry.admitted (D := .t0) ⟨.jump, .ialu, flagsStore, Port.allNone⟩ = false := by decide
theorem test_wf9_syscall_with_port_refused :
    Entry.admitted (D := .t0) ⟨.syscall, .none, flagsSyscall, ⟨none, none, none, some 2, none⟩⟩ = false := by decide
theorem test_wf10_nop_with_destination_refused :
    Entry.admitted (D := .t0) ⟨.nop, .none, Flags.clear, ⟨none, none, none, some 2, none⟩⟩ = false := by decide
theorem test_wf10_nop_with_flag_refused : Entry.admitted (D := .t0) ⟨.nop, .none, flagsLoad, Port.allNone⟩ = false := by decide

theorem test_asm_register_32_refused : Asm.wellFormed 0 (.add 32 1 2) = false := by decide
theorem test_asm_addi_too_large_refused : Asm.wellFormed 0 (.addi 1 2 32768) = false := by decide
theorem test_asm_addi_least_accepted : Asm.wellFormed 0 (.addi 1 2 (-32768)) = true := by decide
theorem test_asm_ori_negative_refused : Asm.wellFormed 0 (.ori 1 2 (-1)) = false := by decide
theorem test_asm_lui_too_large_refused : Asm.wellFormed 0 (.lui 1 65536) = false := by decide
theorem test_asm_lw_offset_refused : Asm.wellFormed 0 (.lw 1 (-32769) 2) = false := by decide
theorem test_asm_jump_other_region_refused : Asm.wellFormed 0x00400004 (.j 0x10400010) = false := by decide
theorem test_asm_jump_misaligned_refused : Asm.wellFormed 0x00400004 (.j 0x00400012) = false := by decide
theorem test_asm_jump_assembles : assemble 0x00400004 (.j 0x00400010) = some (.j 0x0100004) := by decide
theorem test_asm_refused_is_not_assembled : assemble 0 (.li 1 32768) = none := by decide
theorem test_asm_move_is_add : assemble 0 (.move 4 7) = some (.add 4 7 0) := by decide

/-! ## Words of 95_test_vectors.md section 3, written out from the formats of 30_encoding.md R79 -/

theorem test_decode_nop : decodeWord 0b00000000000000000000000000000000 = some (.nop) := by decide
theorem test_decode_j : decodeWord 0b00000100000100000000000000000100 = some (.j 0x0100004) := by decide
theorem test_decode_add : decodeWord 0b00100000101001010011000000000000 = some (.add 6 5 5) := by decide
theorem test_decode_sub : decodeWord 0b00100100110001010011100000000000 = some (.sub 7 6 5) := by decide
theorem test_decode_and : decodeWord 0b00101000101000010100000000000000 = some (.and 8 5 1) := by decide
theorem test_decode_or : decodeWord 0b00101100010000010100100000000000 = some (.or 9 2 1) := by decide
theorem test_decode_xor : decodeWord 0b00110000101000010011100000000000 = some (.xor 7 5 1) := by decide
theorem test_decode_slt : decodeWord 0b00110100101001100100000000000000 = some (.slt 8 5 6) := by decide
theorem test_decode_addi : decodeWord 0b01000000000001011111111111111111 = some (.addi 5 0 0xFFFF) := by decide
theorem test_decode_ori : decodeWord 0b01000100001000011111111111111111 = some (.ori 1 1 0xFFFF) := by decide
theorem test_decode_lui : decodeWord 0b01001000000000010001000000000000 = some (.lui 1 0x1000) := by decide
theorem test_decode_lw : decodeWord 0b10000000001000110000000000000000 = some (.lw 3 0 1) := by decide
theorem test_decode_sw : decodeWord 0b10100000001001000000000000000100 = some (.sw 4 4 1) := by decide
theorem test_decode_link : decodeWord 0b11111000000000000000000000000000 = some (.link 0) := by decide
theorem test_decode_syscall : decodeWord 0b11111100000000000000000000000000 = some (.syscall) := by decide

theorem test_absent_op3F : decodeWord 0xFFFFFFFF = none := by decide
theorem test_absent_op0 : decodeWord 0x00000001 = none := by decide
theorem test_absent_r_low_bits : decodeWord 0x20000001 = none := by decide
theorem test_absent_lui_rs : decodeWord 0x48210000 = none := by decide
theorem test_absent_syscall_low_bit : decodeWord 0xFC000001 = none := by decide
theorem test_decode_bytes_truncated : decodeBytes [0, 0, 0] = .error .truncated := by decide
theorem test_decode_bytes_low_byte_first : decodeBytes [0x07, 0x00, 0x05, 0x40, 9] = .ok (.addi 5 0 7, [9]) := by decide
theorem test_table_word : decodeTableWord 32 0x20A53000 = some (.add 6 5 5) := by decide
theorem test_fetch_word_runs : (State.reset.withFetchWord 32 0x20A53000).instr = some (.add 6 5 5) := by decide

/-! ## One step of each instruction (95_test_vectors.md section 4 and the examples of 44_fixture_t0.md) -/

/-- The machine with an instruction's entry in ID/EX and its operands resolved. -/
def inEx (w : Word) (a b : Word) : State :=
  match t0Lookup w with
  | .op e => State.reset.setDe ⟨w, 0x00400000, e.op, e.fu, e.flags, e.port, a, b⟩
  | .link => State.reset
  | .absent => State.reset

/-- The result of Execute in the next cycle. -/
def nextE (s : State) : Option Word :=
  match step s with
  | .next t => some t.em.e
  | _ => none

/-- The registers, the fetch address and the status after one cycle. -/
def nextReg (s : State) (r : Sizes.t0.Reg) : Option Word :=
  match step s with
  | .next t => some (readReg t.regs r)
  | _ => none
def nextPc (s : State) : Option Word :=
  match step s with
  | .next t => some t.pc
  | _ => none
def nextStatus (s : State) : Option Status :=
  match step s with
  | .next t => some t.status
  | _ => none

theorem test_add_signed_wrap : nextE (inEx 0x20A53000 0x7FFFFFFF 0x00000001) = some 0x80000000 := by decide
theorem test_add_carry_lost : nextE (inEx 0x20A53000 0xFFFFFFFF 0x00000001) = some 0x00000000 := by decide
theorem test_sub_negate_minimum : nextE (inEx 0x24C53800 0x00000000 0x80000000) = some 0x80000000 := by decide
theorem test_sub_borrow : nextE (inEx 0x24C53800 0x00000005 0x00000007) = some 0xFFFFFFFE := by decide
theorem test_and : nextE (inEx 0x28A14000 0xFFFFFFFF 0x7FFFFFFF) = some 0x7FFFFFFF := by decide
theorem test_or : nextE (inEx 0x2C414800 0x80000000 0x7FFFFFFF) = some 0xFFFFFFFF := by decide
theorem test_xor : nextE (inEx 0x30A13800 0xFFFFFFFF 0x7FFFFFFF) = some 0x80000000 := by decide
theorem test_slt_minimum : nextE (inEx 0x34A64000 0x80000000 0x7FFFFFFF) = some 1 := by decide
theorem test_slt_minus_one : nextE (inEx 0x34A64000 0x00000000 0xFFFFFFFF) = some 0 := by decide
theorem test_addi_sign_extends : nextE (inEx 0x4005FFFF 0x00000000 0) = some 0xFFFFFFFF := by decide
theorem test_addi_most_negative : nextE (inEx 0x40058000 0x00000005 0) = some 0xFFFF8005 := by decide
theorem test_ori_zero_extends : nextE (inEx 0x44A68000 0x00000000 0) = some 0x00008000 := by decide
theorem test_lui_high_half : nextE (inEx 0x48018000 0 0) = some 0x80000000 := by decide
theorem test_lw_negative_displacement : nextE (inEx 0x8023FFFC 0 0x10000000) = some 0x0FFFFFFC := by decide
theorem test_sw_address_wraps : nextE (inEx 0xA0240008 0 0xFFFFFFFC) = some 0x00000004 := by decide

/-- The machine with a word in Decode. -/
def inDec (w : Word) : State := State.reset.inDecode w

theorem test_jump_target : nextPc ((inDec 0x07F00004).setFd ⟨0x07F00004, 0x10400000, 0x10400004⟩) = some 0x1FC00010 := by
  decide
theorem test_jump_to_itself : nextPc (inDec 0x04100000) = some 0x00400000 := by decide
theorem test_nop_fetches_on : nextPc ((inDec 0).setNpc 0x00400004) = some 0x00400004 := by decide
theorem test_link_raises :
    nextStatus (inDec 0xF8000000) = some (.faulted (.unsupportedFeature 0x00400000 0xF8000000 1)) := by decide
theorem test_absent_raises :
    nextStatus (inDec 0xFFFFFFFF) = some (.faulted (.unknownOpcode 0x00400000 0xFFFFFFFF 1)) := by decide

/-- The machine with a system call in MEM/WB and two registers set. -/
def atSyscall (r2 r4 : Word) : State :=
  (State.reset.setRegs (writeReg (writeReg State.reset.regs 2 r2) 4 r4)).setMw
    ⟨0xFC000000, 0x00400000, .syscall, .none, flagsSyscall, Port.allNone, 0, 0⟩

theorem test_syscall_exits : nextStatus (atSyscall 1 7) = some (.halted 7) := by decide
theorem test_syscall_continues : nextReg (atSyscall 5 7) 2 = some 0 := by decide

/-- The machine with an access in EX/MEM at an address. -/
def inMem (f : Flags) (p : Port .t0) (ea : Word) (a : Word) : State :=
  State.reset.setEm ⟨0, 0x00400000, if f.store then .sw else .lw, .rdport, f, p, a, ea, false⟩

theorem test_store_miss_writes_through :
    (match step (inMem flagsStore (portSw 4 1) 0x10000004 7) with
      | .next t => (memWord (D := .t0) t.mem 0x04000001, (t.line 0 0).data[1], (t.line 0 0).dirty, t.counters.cycleCount)
      | _ => (0, 0, true, 0)) = (7, 7, false, 10) := by decide
theorem test_load_reads_the_word :
    (match step ((inMem flagsLoad (portLw 2 1) 0x10000000 0).setMem (setMemWord (D := .t0) [] 0x04000000 0x2A)) with
      | .next t => (t.mw.m, t.counters.cacheMissCount)
      | _ => (0, 0)) = (0x2A, 1) := by decide
theorem test_misaligned_load_faults :
    nextStatus (inMem flagsLoad (portLw 2 1) 2 0) = some (.faulted (.memoryFault 2 1)) := by decide
theorem test_unmapped_line_faults_on_fill :
    nextStatus { inMem flagsLoad (portLw 2 1) 0x10000000 0 with unmapped := [⟨0x04000002, 0x40000000⟩] } =
      some (.faulted (.memoryFault 0x10000008 10)) := by decide

/-- V-SQ1: with the branch-taken flag set, Decode discards a word that would be fatal. -/
theorem test_squash :
    (match decode t0 .absent ((inDec 0xFFFFFFFF).setEm ⟨0, 0, .nop, .none, Flags.clear, Port.allNone, 0, 0, true⟩) with
      | .ok _ t => (t.de.op, t.de.inst, t.de.pc, t.status)
      | .stop t => (.jump, 1, 0, t.status)) = (.nop, 0, 0x00400000, .running) := by decide

/-- Vector F6: a load in ID/EX whose register the instruction in Decode reads twice: a miss, then a hit, one word. -/
def loadUse : State :=
  (inEx 0x80220000 0 0x10000000).setMem (setMemWord (D := .t0) [] 0x04000000 0x77)

theorem test_eager_read :
    (match exec (.add 3 2 2) loadUse with
      | .next t => (t.de.a, t.de.b, t.counters.cacheMissCount, t.counters.cacheHitCount)
      | _ => (0, 0, 0, 0)) = (0x77, 0x77, 1, 1) := by decide

/-! ## A machine of other sizes with another table (00_scope.md R2, R5, R7)

Words of 16 bits, addresses that are word addresses (`OL` = 0), instructions of two words, 4 registers, a cache of 2 sets of 2
lines of 2 words. -/

abbrev tiny : Sizes where
  w         := 16
  aw        := 16
  nreg      := 4
  ol        := 0
  waw       := 16
  ilen      := 32
  instWords := 2
  targw     := 12
  nsets     := 2
  nways     := 2
  lineWords := 2
  tagw      := 14
  setw      := 1
  wayw      := 1
  offw      := 1
  waw_eq       := by decide
  slices       := by decide
  ilen_eq      := by decide
  nsets_eq     := by decide
  nways_eq     := by decide
  lineWords_eq := by decide
  nreg_pos     := by decide

/-- A no-op word that is not 0, and every other word one opcode with a class and flag bits of its own. -/
def tinyTable : Config tiny where
  iStep       := 2
  segMask     := 0
  targShift   := 0
  nopInst     := 7
  missPenalty := 5
  lookup w    := .op (if w = 7 then ⟨.nop, .other 9, Flags.clear, Port.allNone⟩
    else ⟨.other 1, .other 2, ⟨false, false, false, 6⟩, ⟨some 1, some 1, none, some 2, none⟩⟩)
  effect o _ _ a b := if o = .other 1 then a + b else 0
  targ _      := 0
  sys R m _   := if R[1] = 1 then .exit R[1] else .cont R m

theorem tinyTable_admitted : tinyTable.Admitted where
  wf1 := ⟨_, rfl, rfl⟩
  records := fun w e h => by
    simp only [tinyTable, Lookup.op.injEq] at h
    subst h
    split <;> decide
  byOpcode := fun w w' e e' h h' ho => by
    simp only [tinyTable, Lookup.op.injEq] at h h'
    subst h h'
    by_cases hw : w = 7 <;> by_cases hw' : w' = 7 <;> simp_all
  wf5A := fun w e h hs _ _ _ _ => by
    simp only [tinyTable, Lookup.op.injEq] at h
    subst h
    by_cases hw : w = 7 <;> simp_all [tinyTable]
  wf5B := fun w e h hs _ _ _ _ => by
    simp only [tinyTable, Lookup.op.injEq] at h
    subst h
    by_cases hw : w = 7 <;> simp_all [tinyTable]
  wf10 := fun _ _ _ _ => rfl
  iStep := by decide
  sys := fun R m w R' m' h hR => by
    simp only [tinyTable] at h
    split at h
    · cases h
    · cases h
      exact hR

def tinyPlatform : Platform tiny where
  entry    := 0xFFFE
  initRegs := Vector.replicate 4 3
  initMem  := setMemWord (D := tiny) (setMemWord (D := tiny) [] 0xFFFE 0x1234) 0xFFFF 0xABCD
  unmapped := []

def tinyReset : State tiny := State.resetWith tinyTable tinyPlatform

/-- An entry in MEM/WB, a system call or not, with a value in register 1. -/
def tinyWb (call : Bool) (r1 : tiny.Word) : State tiny :=
  (tinyReset.setRegs (writeReg tinyReset.regs 1 r1)).setMw
    ⟨0, 0, .other 3, .other 0, ⟨false, false, call, 0⟩, Port.allNone, 0, 0⟩

theorem test_reset_is_of_the_record : Parameters.t0.reset = State.reset := rfl
theorem test_reset_holds_the_nop_of_the_table : tinyReset.fd.inst = 7 ∧ tinyReset.de.fu = .other 9 := by decide
theorem test_fetch_joins_words_low_first :
    (match stepWith tinyTable tinyTable_admitted tinyReset with
      | .next t => (t.fd.inst, t.pc, t.npc)
      | _ => (0, 0, 0)) = (0xABCD1234, 0xFFFE, 0) := by decide
theorem test_decode_carries_class_and_other_flags :
    (match stepWith tinyTable tinyTable_admitted { tinyReset with fd := ⟨8, 0, 2⟩ } with
      | .next t => (t.de.op, t.de.fu, t.de.flags.others, t.de.a)
      | _ => (.nop, .none, 0, 0)) = (.other 1, .other 2, 6, 3) := by decide
theorem test_word_address_is_the_address : tiny.wordAddr 0xFFFF = 0xFFFF ∧ tiny.aligned 0xFFFF = true := by decide
theorem test_slices_of_other_geometry : (tiny.offOf 7).val = 1 ∧ (tiny.setOf 7).val = 1 ∧ tiny.tagOf 7 = 1 := by decide

/-! ## Witnesses: for each statement with hypotheses, and for each of its clauses, what meets them together -/

/-- The answer is a next state with the property. -/
def nextWith (o : Host.Outcome State Fault Refusal) (p : State → Bool) : Bool :=
  match o with
  | .next t => p t
  | .fault _ => false
  | .refused _ => false

/-- The part of a cycle completes. -/
def completes {D : Sizes} {α : Type} (r : Run D α) : Bool :=
  match r with
  | .ok _ _ => true
  | .stop _ => false

theorem exists_of_completes {D : Sizes} {α : Type} {r : Run D α} (h : completes r = true) : ∃ a t, r = .ok a t := by
  unfold completes at h
  split at h
  · exact ⟨_, _, rfl⟩
  · cases h

/-- The cycle ends and the machine runs on. -/
def runsOn (o : Host.Outcome State Fault Refusal) : Bool := nextWith o fun t => t.status == .running

theorem exists_noMemoryFault {o : Host.Outcome State Fault Refusal} (h : runsOn o = true) :
    ∃ t, o = .next t ∧ noMemoryFault t := by
  unfold runsOn nextWith at h
  split at h
  · next t =>
    refine ⟨t, rfl, fun a c e => ?_⟩
    simp [e] at h
  all_goals cases h

/-! ### Encoding -/

theorem witness_EncodeDecode : decodeWord 0xA0240004 = some (.sw 4 4 1) ∧
    decodeBytes [0x04, 0x00, 0x24, 0xA0, 1, 2] = .ok (.sw 4 4 1, [1, 2]) := by decide

theorem witness_OpcodeMap_match :
    (⟨0x20000000, 0xFC0007FF, some .add, Flags.clear⟩ : SpecRow) ∈ specRows ∧
      (⟨0x20000000, 0xFC0007FF, some .add, Flags.clear⟩ : SpecRow).matches 0x23FFF800 := by decide
theorem witness_OpcodeMap_link :
    (⟨0xF8000000, 0xFC000000, none, Flags.clear⟩ : SpecRow) ∈ specRows ∧
      (⟨0xF8000000, 0xFC000000, none, Flags.clear⟩ : SpecRow).matches 0xFBFFFFFF := by decide
theorem witness_OpcodeMap_none : ∀ r ∈ specRows, ¬ r.matches 0x23FFFC00 := by decide

theorem witness_AssemblerOperands_label :
    (Asm.j 0x0FFFFFFC).wellFormed 0x00000000 = true ∧ (Asm.j 0xF0000000).wellFormed 0xFFFFFFFC = true := by decide
theorem witness_AssemblerOperands_addi :
    (Asm.addi 31 0 (-32768)).wellFormed 0 = true ∧ (Asm.addi 0 31 32767).wellFormed 0 = true := by decide
theorem witness_AssemblerOperands_ori :
    (Asm.ori 31 0 0).wellFormed 0 = true ∧ (Asm.ori 0 31 65535).wellFormed 0 = true := by decide
theorem witness_AssemblerOperands_lui : (Asm.lui 31 0).wellFormed 0 = true ∧ (Asm.lui 0 65535).wellFormed 0 = true := by
  decide
theorem witness_AssemblerOperands_lw :
    (Asm.lw 31 (-32768) 0).wellFormed 0 = true ∧ (Asm.lw 0 32767 31).wellFormed 0 = true := by decide

/-! ### Reset -/

theorem witness_ResetValues : (31 : Sizes.t0.Reg) ≠ Sizes.t0.r0 := by decide
theorem witness_ResetInvariants :
    Memory.wf .t0 Platform.default.initMem = true ∧ Platform.default.entry.toNat % t0.iStep.toNat = 0 ∧
      Memory.wf tiny tinyPlatform.initMem = true ∧ tinyPlatform.entry.toNat % tinyTable.iStep.toNat = 0 := by decide
theorem witness_FirstCycle_anyTable : tinyTable.Admitted ∧
    tinyPlatform.entry.toNat % tinyTable.iStep.toNat = 0 ∧ tinyReset.instMapped (tiny.wordAddr tinyPlatform.entry) = true :=
  ⟨tinyTable_admitted, by decide, by decide⟩
theorem witness_FirstCycle : Platform.default.entry.toNat % 4 = 0 ∧
    (State.resetWith t0 Platform.default).mapped (Sizes.t0.wordAddr Platform.default.entry) = true := by decide

theorem reset_pipelineInv : PipelineInv State.reset :=
  ⟨by decide, by decide, by decide, by decide, by decide, by decide, by decide⟩
theorem loadUse_pipelineInv : PipelineInv loadUse :=
  ⟨by decide, by decide, by decide, by decide, by decide, by decide, by decide⟩

/-- A state whose lines are all invalid and clean and whose memory is canonical has the memory invariants. -/
theorem memoryInv_of_empty {D : Sizes} {s : State D} (hm : Memory.wf D s.mem = true)
    (hv : ∀ i w, (s.line i w).valid = false) (hd : ∀ i w, (s.line i w).dirty = false) : MemoryInv s where
  wf := hm
  lines := ⟨fun i w _ h => absurd ((hv i w).symm.trans h) (by decide), fun i w _ => hd i w⟩
  coherent := fun i w h => absurd ((hv i w).symm.trans h) (by decide)

theorem tinyReset_pipelineInv : PipelineInv tinyReset :=
  ⟨by decide, by decide, by decide, by decide, by decide, by decide, by decide⟩
theorem tinyReset_memoryInv : MemoryInv tinyReset := memoryInv_of_empty (by decide) (by decide) (by decide)

theorem reset_memoryInv : MemoryInv State.reset := memoryInv_of_empty (by decide) (by decide) (by decide)
theorem loadUse_memoryInv : MemoryInv loadUse := memoryInv_of_empty (by decide) (by decide) (by decide)

/-! ### The step -/

theorem witness_StoppedTakesNoCycle :
    (State.reset.setStatus (.halted 7)).status = .halted 7 ∧
      (State.reset.setStatus (.faulted (.memoryFault 2 1))).status = .faulted (.memoryFault 2 1) := by decide
theorem witness_StepRunsDecoded : decodeBytes (wordBytes (inDec 0x20A53000).fd.inst) = .ok (.add 6 5 5, []) := by decide
theorem witness_CycleAccounting : nextWith (exec (.add 3 2 2) loadUse) (fun t => t.counters.cacheMissCount == 1) = true := by
  decide
theorem witness_TimeIsNotObserved :
    State.reset.status = .running ∧
      State.reset.forgetTime = (State.reset.setCounters ⟨5, 4, 3, 2, 1, 6, 7⟩).forgetTime ∧
      State.reset ≠ State.reset.setCounters ⟨5, 4, 3, 2, 1, 6, 7⟩ := by decide

/-! ### Writeback -/

/-- The machine with an entry in MEM/WB that has both destinations, as no instruction of T0 has. -/
def inWb : State :=
  State.reset.setMw ⟨0, 0x00400000, .lw, .rdport, flagsLoad, ⟨none, some 1, none, some 3, some 2⟩, 0x33, 0x22⟩

theorem witness_WritebackOnAnyTable_noOp : tinyTable.Admitted ∧ tinyReset.mw.op = .nop :=
  ⟨tinyTable_admitted, by decide⟩
theorem witness_WritebackOnAnyTable_commit :
    tinyTable.Admitted ∧ (tinyWb false 1).mw.op ≠ .nop ∧ (tinyWb false 1).mw.flags.syscall = false :=
  ⟨tinyTable_admitted, by decide, by decide⟩
theorem witness_WritebackOnAnyTable_exit :
    (tinyWb true 1).mw.op ≠ .nop ∧ (tinyWb true 1).mw.flags.syscall = true ∧
      tinyTable.sys (commit (tinyWb true 1).mw (tinyWb true 1).regs) (tinyWb true 1).mem (tinyWb true 1).mw.inst =
        .exit 1 := ⟨by decide, by decide, rfl⟩
theorem witness_WritebackOnAnyTable_continue :
    (tinyWb true 5).mw.op ≠ .nop ∧ (tinyWb true 5).mw.flags.syscall = true ∧
      ∃ R m, tinyTable.sys (commit (tinyWb true 5).mw (tinyWb true 5).regs) (tinyWb true 5).mem
        (tinyWb true 5).mw.inst = .cont R m := ⟨by decide, by decide, _, _, rfl⟩
theorem witness_WritebackOnAnyTable_stops :
    completes (writeback tinyTable (beginCycle (tinyWb true 1))) = false := by decide

theorem witness_RegisterFrame_commit :
    nextWith (exec .nop inWb) (fun t => readReg t.regs 2 == 0x22 && readReg t.regs 3 == 0x33) = true ∧
    inWb.mw.port.dstM = some 2 ∧ inWb.mw.port.dstE = some 3 := by decide
theorem witness_RegisterFrame_continue :
    nextWith (exec (.add 2 2 2) (atSyscall 5 7)) (fun t => readReg t.regs 2 == 0) = true ∧
    callsSys (atSyscall 5 7).mw = true ∧ exits (atSyscall 5 7) = false := by decide
theorem witness_ExitHalts : (atSyscall 1 7).status = .running ∧ exits (atSyscall 1 7) = true ∧
    nextWith (exec (.j 4) (atSyscall 1 7)) (fun t => t.status == .halted 7) = true := by decide

/-! ### Memory and Execute -/

theorem witness_MemoryWritesMw_store : runsOn (exec .nop (inMem flagsStore (portSw 4 1) 0x10000004 7)) = true := by decide
theorem witness_MemoryWritesMw_load : runsOn (exec .nop (inMem flagsLoad (portLw 2 1) 0xFFFFFFFC 0)) = true := by decide
theorem witness_MemoryWritesMw_neither : runsOn (exec .nop loadUse) = true := by decide
theorem witness_ExecuteWritesEm : runsOn (exec .nop loadUse) = true ∧ loadUse.de.op = .lw := by decide
theorem witness_ExecuteWritesEm_noOp : runsOn (exec .syscall State.reset) = true ∧ State.reset.de.op = .nop := by decide

theorem witness_ExecuteWritesEm_anyTable : tinyTable.Admitted ∧ tinyReset.de.op = .nop :=
  ⟨tinyTable_admitted, by decide⟩

/-! ### Completion, with and without an eager read, at the first and the last register -/

theorem witness_RegisterOperationsComplete : canComplete (.add 0 31 0) State.reset ∧
    canComplete (.add 31 2 2) loadUse ∧ eagerRead loadUse (portOf (.add 31 2 2)).srcA ∧
    eagerRead loadUse (portOf (.add 31 2 2)).srcB :=
  ⟨by decide, by decide, by decide, by decide⟩
theorem witness_ImmediateOperationsComplete : canComplete (.addi 0 31 0x8000) State.reset ∧
    canComplete (.addi 31 2 0x7FFF) loadUse ∧ eagerRead loadUse (portOf (.addi 31 2 0x7FFF)).srcA ∧
    canComplete (.lui 0 0xFFFF) State.reset ∧ canComplete (.lui 31 0) loadUse :=
  ⟨by decide, by decide, by decide, by decide, by decide⟩
theorem witness_LoadStoreComplete : canComplete (.lw 0 0xFFFF 31) State.reset ∧
    canComplete (.lw 31 0 2) loadUse ∧ eagerRead loadUse (portOf (.lw 31 0 2)).srcB ∧
    canComplete (.sw 0 0x8000 31) State.reset ∧ canComplete (.sw 2 0 2) loadUse ∧
    eagerRead loadUse (portOf (.sw 2 0 2)).srcA :=
  ⟨by decide, by decide, by decide, by decide, by decide, by decide⟩
theorem witness_NopAndSyscallComplete : canComplete .nop State.reset ∧ canComplete .nop loadUse :=
  ⟨by decide, by decide⟩
theorem witness_JumpCompletes : canComplete (.j 0) State.reset ∧ canComplete (.j 0x3FFFFFF) loadUse :=
  ⟨by decide, by decide⟩

theorem witness_LinkRaises : readyToDecode loadUse := by decide
theorem witness_LinkRaises_only :
    nextStatus (inDec 0xFBFFFFFF) = some (.faulted (.unsupportedFeature 0x00400000 0xFBFFFFFF 1)) := by decide
theorem witness_AbsentRaises : readyToDecode (inDec 0xFC000001) ∧ (inDec 0xFC000001).instr = none := by decide
theorem witness_AbsentRaises_only :
    nextStatus (inDec 0x20000001) = some (.faulted (.unknownOpcode 0x00400000 0x20000001 1)) := by decide
theorem witness_FetchAdvances : runsOn (exec (.j 0x3FFFFFF) State.reset) = true ∧ runsOn (exec .nop loadUse) = true := by
  decide

/-! ### MemoryFault -/

theorem witness_MisalignedAccess :
    (0x00000001 : Word).extractLsb' 0 2 ≠ 0 ∧ (0xFFFFFFFE : Word).extractLsb' 0 2 ≠ 0 ∧
      (0xFFFFFFFF : Word).extractLsb' 0 2 ≠ 0 := by decide
theorem witness_AccessCompletes : cacheMapped State.reset ∧ cacheMapped tinyReset := ⟨by decide, by decide⟩

/-- A platform whose last line but one and everything below it is not mapped, with a load in EX/MEM. -/
def holed (ea : Word) : State := { inMem flagsLoad (portLw 2 1) ea 0 with unmapped := [⟨0, 0x3FFFFFFC⟩] }

theorem witness_MemoryStageFaults_misaligned :
    (inMem flagsStore (portSw 4 1) 0x10000003 7).status = .running ∧
      exits (inMem flagsStore (portSw 4 1) 0x10000003 7) = false ∧
      (inMem flagsStore (portSw 4 1) 0x10000003 7).em.flags.store = true ∧
      Sizes.t0.aligned (inMem flagsStore (portSw 4 1) 0x10000003 7).em.e = false := by decide
theorem witness_MemoryStageFaults_unmapped :
    (holed 0xFFFFFFEC).status = .running ∧ exits (holed 0xFFFFFFEC) = false ∧
      (holed 0xFFFFFFEC).em.flags.load = true ∧ (holed 0xFFFFFFEC).lookup (Sizes.t0.wordAddr (holed 0xFFFFFFEC).em.e) = none ∧
      (holed 0xFFFFFFEC).mapped (Sizes.t0.wordAddr (holed 0xFFFFFFEC).em.e) = false := by decide
theorem witness_EagerReadFaults :
    readyToDecode (inEx 0x80220000 0 0x10000002) ∧ Sizes.t0.aligned (executedE t0 (inEx 0x80220000 0 0x10000002).de) = false ∧
      eagerRead (inEx 0x80220000 0 0x10000002) (portOf (.add 3 2 1)).srcA ∧
      ¬ eagerRead (inEx 0x80220000 0 0x10000002) (portOf (.add 3 2 1)).srcB ∧
      ¬ eagerRead (inEx 0x80220000 0 0x10000002) (portOf (.lw 3 0 2)).srcA ∧
      eagerRead (inEx 0x80220000 0 0x10000002) (portOf (.lw 3 0 2)).srcB := by decide
theorem witness_FetchFaults_misaligned :
    readyToDecode (State.reset.setNpc 0x00400002) ∧ operandReady (State.reset.setNpc 0x00400002) (portOf .nop).srcA ∧
      operandReady (State.reset.setNpc 0x00400002) (portOf .nop).srcB ∧
      ¬ canFetch (State.reset.setNpc 0x00400002) (fetchAddr .nop (State.reset.setNpc 0x00400002)) := by decide
theorem witness_FetchFaults_unmapped_target :
    readyToDecode { loadUse with unmapped := [⟨0, 1⟩] } ∧
      operandReady { loadUse with unmapped := [⟨0, 1⟩] } (portOf (.j 0)).srcA ∧
      operandReady { loadUse with unmapped := [⟨0, 1⟩] } (portOf (.j 0)).srcB ∧
      ¬ canFetch { loadUse with unmapped := [⟨0, 1⟩] } (fetchAddr (.j 0) { loadUse with unmapped := [⟨0, 1⟩] }) := by
  decide
theorem witness_MemoryFaultRecords :
    nextStatus (inMem flagsLoad (portLw 2 1) 3 0) = some (.faulted (.memoryFault 3 1)) := by decide

/-! ### The backing store and the cache -/

theorem witness_BackendPorts : Memory.wf .t0 loadUse.mem = true ∧ loadUse.mapped 0 = true ∧
    loadUse.mapped 0x3FFFFFFF = true ∧ Memory.wf .t0 (holed 0).mem = true ∧ (holed 0).mapped 0 = false ∧
    (holed 0).mapped 0x3FFFFFFB = false ∧ (holed 0).mapped 0x3FFFFFFC = true := by decide

theorem witness_InstructionFetch_faults :
    (2 : Sizes.t0.Addr).toNat % t0.iStep.toNat ≠ 0 ∧ (5 : tiny.Addr).toNat % tinyTable.iStep.toNat ≠ 0 ∧
      ∃ k < tiny.instWords, { tinyReset with unmapped := [⟨1, 2⟩] }.mapped
        (tiny.wordAddr 0 + BitVec.ofNat tiny.waw k) = false := ⟨by decide, by decide, 1, by decide, by decide⟩
theorem witness_InstructionFetch_words :
    (0xFFFE : tiny.Addr).toNat % tinyTable.iStep.toNat = 0 ∧
      ∀ k < tiny.instWords, tinyReset.mapped (tiny.wordAddr 0xFFFE + BitVec.ofNat tiny.waw k) = true := by decide
theorem witness_InstructionFetch_low_bits : (0xFFFFFFFD : Sizes.t0.Addr).extractLsb' 0 Sizes.t0.ol ≠ 0 := by decide
theorem witness_InstructionFetch_t0 : canFetch State.reset 0 ∧ canFetch State.reset 0xFFFFFFFC := by decide

/-- The machine with one line of set 0, which the cursor points at, valid. -/
def oneLine (dirty : Bool) : State := State.reset.setLine 0 0 ⟨#v[1, 2, 3, 4], 5, dirty, true⟩

theorem witness_ReadHit : (oneLine false).lookup 0x140 = some 0 ∧ (oneLine true).lookup 0x143 = some 0 := by decide
theorem witness_WriteHit : (oneLine false).lookup 0x140 = some 0 ∧ (oneLine true).lookup 0x143 = some 0 := by decide
theorem witness_ReadMiss : (∃ v t, readWord t0 0x3FFFFFC3 (oneLine true) = .ok v t) ∧
    (oneLine true).lookup 0x3FFFFFC3 = none ∧ ((oneLine true).line 0 ((oneLine true).cursor 0)).dirty = true ∧
    (∃ v t, readWord t0 0 State.reset = .ok v t) ∧ State.reset.lookup 0 = none :=
  ⟨exists_of_completes (by decide), by decide, by decide, exists_of_completes (by decide), by decide⟩
theorem witness_WriteMiss : Memory.wf .t0 (oneLine true).mem = true ∧
    (∃ u t, writeWord t0 0x3FFFFFC3 9 (oneLine true) = .ok u t) ∧ (oneLine true).lookup 0x3FFFFFC3 = none :=
  ⟨by decide, exists_of_completes (by decide), by decide⟩
theorem witness_Eviction_dirty : Memory.wf .t0 (oneLine true).mem = true ∧ (∃ u t, fill 0x40 (oneLine true) = .ok u t) ∧
    ((oneLine true).line 0 ((oneLine true).cursor 0)).valid = true ∧
    ((oneLine true).line 0 ((oneLine true).cursor 0)).dirty = true :=
  ⟨by decide, exists_of_completes (by decide), by decide, by decide⟩
theorem witness_Eviction_clean : (∃ u t, fill 0x40 (oneLine false) = .ok u t) ∧
    ((oneLine false).line 0 ((oneLine false).cursor 0)).valid = true ∧
    ((oneLine false).line 0 ((oneLine false).cursor 0)).dirty = false :=
  ⟨exists_of_completes (by decide), by decide, by decide⟩
theorem witness_Eviction_invalid : (∃ u t, fill 0x3FFFFFFC State.reset = .ok u t) ∧
    (State.reset.line 15 (State.reset.cursor 15)).valid = false :=
  ⟨exists_of_completes (by decide), by decide⟩
theorem witness_ReadMiss_unmapped : (holed 0).lookup 0 = none ∧ (holed 0).mapped 0 = false := by decide
theorem witness_WriteMiss_unmapped : (holed 0).lookup 0x3FFFFFFB = none ∧ (holed 0).mapped 0x3FFFFFFB = false := by
  decide
theorem witness_RepeatedRead : ∃ v t, readWord t0 0x3FFFFFFF State.reset = .ok v t := exists_of_completes (by decide)
/-- With every word mapped a fill completes. -/
theorem fill_completes {s : State} (h : s.unmapped = []) (b : Sizes.t0.WordAddr) :
    fill b s = .ok () (s.filled b) ∧ (s.filled b).unmapped = [] := by
  have hm : ∀ wa, s.mapped wa = true := fun wa => by rw [State.mapped, h]; rfl
  exact ⟨fill_eq_ok.2 ⟨fun _ _ _ => hm _, fun _ => hm _, rfl⟩, h⟩

/-- Six fills of set 0, each after the one before. -/
def fills : Nat → State
  | 0 => State.reset
  | k + 1 => (fills k).filled (BitVec.ofNat 30 (64 * k))

theorem fills_unmapped (k : Nat) : (fills k).unmapped = [] := by
  induction k with
  | zero => rfl
  | succ k ih => exact (fill_completes ih _).2

theorem witness_RoundRobin : ∃ (b : Nat → Sizes.t0.WordAddr) (s : Nat → State),
    (∀ k < 6, Sizes.t0.setOf (b k) = Sizes.t0.setOf (b 0)) ∧ (∀ k < 6, fill (b k) (s k) = .ok () (s (k + 1))) :=
  ⟨fun k => BitVec.ofNat 30 (64 * k), fills, by decide, fun k _ => (fill_completes (fills_unmapped k) _).1⟩

/-! ### Frames and invariants -/

/-- The machine with a store in EX/MEM, which has the memory invariants. -/
theorem store_memoryInv : MemoryInv (inMem flagsStore (portSw 4 1) 0x10000004 7) :=
  memoryInv_of_empty (by decide) (by decide) (by decide)

theorem witness_ArchMemFrame : MemoryInv (inMem flagsStore (portSw 4 1) 0x10000004 7) ∧
    (∃ t, exec (.add 3 4 4) (inMem flagsStore (portSw 4 1) 0x10000004 7) = .next t ∧ noMemoryFault t) ∧
    exits (inMem flagsStore (portSw 4 1) 0x10000004 7) = false :=
  ⟨store_memoryInv, exists_noMemoryFault (by decide), by decide⟩
theorem witness_ArchMemFrame_exit : MemoryInv (atSyscall 1 7) ∧
    nextWith (exec .nop (atSyscall 1 7)) (fun t => t.status == .halted 7) = true ∧ exits (atSyscall 1 7) = true :=
  ⟨memoryInv_of_empty (by decide) (by decide) (by decide), by decide, by decide⟩
theorem witness_BackingStoreFrame : MemoryInv (inMem flagsStore (portSw 4 1) 0x10000004 7) ∧
    runsOn (exec .nop (inMem flagsStore (portSw 4 1) 0x10000004 7)) = true ∧
    0x10000003 / 4 ≠ (Sizes.t0.wordAddr (inMem flagsStore (portSw 4 1) 0x10000004 7).em.e).toNat ∧
    0x10000008 / 4 ≠ (Sizes.t0.wordAddr (inMem flagsStore (portSw 4 1) 0x10000004 7).em.e).toNat :=
  ⟨store_memoryInv, by decide, by decide, by decide⟩
theorem witness_CanonicalMemoryKept : Memory.wf .t0 loadUse.mem = true ∧ runsOn (step loadUse) = true := by decide

theorem witness_PipelineInvKept : (∃ t, stepWith tinyTable tinyTable_admitted tinyReset = .next t) ∧
    PipelineInv tinyReset ∧ PipelineInv loadUse ∧ runsOn (step loadUse) = true :=
  ⟨⟨_, rfl⟩, tinyReset_pipelineInv, loadUse_pipelineInv, by decide⟩
theorem witness_MemoryInvKept_anyTable : (∃ t, stepWith tinyTable tinyTable_admitted tinyReset = .next t ∧ noMemoryFault t) ∧
    MemoryInv tinyReset ∧ ∀ R m w R' m', tinyTable.sys R m w = .cont R' m' → m' = m := by
  refine ⟨⟨_, rfl, fun a c e => ?_⟩, tinyReset_memoryInv, fun R m w R' m' h => ?_⟩
  · cases e
  · simp only [tinyTable] at h
    split at h
    · cases h
    · cases h
      rfl
theorem witness_MemoryInvKept : MemoryInv (inMem flagsStore (portSw 4 1) 0x10000004 7) ∧
    ∃ t, step (inMem flagsStore (portSw 4 1) 0x10000004 7) = .next t ∧ noMemoryFault t :=
  ⟨store_memoryInv, exists_noMemoryFault (by decide)⟩
theorem witness_PcInvKept : PcInv t0 State.reset ∧ runsOn (step State.reset) = true :=
  ⟨⟨by decide, by decide, by decide⟩, by decide⟩

/-! ### No-ops, the squash, the sequential machine -/

theorem witness_NoOpsDoNothing_anyTable : tinyTable.Admitted ∧ PipelineInv tinyReset ∧ tinyReset.mw.op = .nop ∧
    tinyReset.em.op = .nop ∧ tinyReset.de.op = .nop :=
  ⟨tinyTable_admitted, tinyReset_pipelineInv, by decide, by decide, by decide⟩
theorem witness_NoOpsDoNothing : PipelineInv State.reset ∧ State.reset.mw.op = .nop ∧ State.reset.em.op = .nop ∧
    State.reset.de.op = .nop := ⟨reset_pipelineInv, by decide, by decide, by decide⟩
theorem witness_Squash_anyTable : tinyTable.Admitted ∧ completes (beforeDecode tinyTable tinyReset) = true :=
  ⟨tinyTable_admitted, by decide⟩
theorem witness_Squash : (State.reset.setEm ⟨0, 0, .nop, .none, Flags.clear, Port.allNone, 0, 0, true⟩).em.taken = true ∧
    completes (beforeDecode t0 (State.reset.setEm ⟨0, 0, .nop, .none, Flags.clear, Port.allNone, 0, 0, true⟩)) = true := by
  decide
theorem witness_EagerReadIsTheLoad : PipelineInv loadUse ∧
    nextWith (exec (.add 3 2 2) loadUse) (fun t => runsOn (step t)) = true ∧
    eagerRead loadUse (portOf (.add 3 2 2)).srcA ∧ eagerRead loadUse (portOf (.add 3 2 2)).srcB :=
  ⟨loadUse_pipelineInv, by decide, by decide, by decide⟩
theorem witness_OperandsAreSequential : PipelineInv loadUse ∧ MemoryInv loadUse ∧
    runsOn (exec (.add 3 2 1) loadUse) = true ∧ (portOf (.add 3 2 1)).srcA = some 2 ∧
    (portOf (.add 3 2 1)).srcB = some 1 := ⟨loadUse_pipelineInv, loadUse_memoryInv, by decide, by decide, by decide⟩
theorem witness_PipelineRefinesSequential : PipelineInv loadUse ∧ MemoryInv loadUse ∧ loadUse.em.flags.syscall = false ∧
    canComplete (.sw 2 4 2) loadUse := ⟨loadUse_pipelineInv, loadUse_memoryInv, by decide, by decide⟩
theorem witness_InstructionRetires : PipelineInv loadUse ∧ MemoryInv loadUse ∧
    ∀ i ∈ [Instr.add 3 2 2, .lw 31 1 2, .sw 2 1 2, .nop], nextWith (exec i loadUse) (fun t => nextWith (step t) fun t =>
      nextWith (step t) fun t => runsOn (step t)) = true := ⟨loadUse_pipelineInv, loadUse_memoryInv, by decide⟩

/-- The machine with the call number in register 2 and the argument in register 4. -/
def calling (r2 r4 : Word) : State := State.reset.setRegs (writeReg (writeReg State.reset.regs 2 r2) 4 r4)

theorem calling_pipelineInv (r2 r4 : Word) : PipelineInv (calling r2 r4) where
  reg0 := by
    show readReg (writeReg (writeReg State.reset.regs 2 r2) 4 r4) Sizes.t0.r0 = 0
    rw [readReg_writeReg, readReg_writeReg]
    rfl
  de := reset_pipelineInv.de
  em := reset_pipelineInv.em
  mw := reset_pipelineInv.mw
  emNop := fun _ => rfl
  mwNop := fun _ => ⟨rfl, rfl⟩
  taken := rfl

theorem calling_memoryInv (r2 r4 : Word) : MemoryInv (calling r2 r4) :=
  memoryInv_of_empty rfl (show ∀ i w, (State.reset.line i w).valid = false by decide)
    (show ∀ i w, (State.reset.line i w).dirty = false by decide)

theorem witness_SystemCallRetires_exit : PipelineInv (calling 1 7) ∧ MemoryInv (calling 1 7) ∧
    (calling 1 7).em.flags.syscall = false ∧ (calling 1 7).de.flags.syscall = false ∧
    nextWith (exec .syscall (calling 1 7)) (fun t => nextWith (step t) fun t => runsOn (step t)) = true ∧
    (pending (calling 1 7)).get 2 = 1 :=
  ⟨calling_pipelineInv 1 7, calling_memoryInv 1 7, by decide, by decide, by decide, by decide⟩
theorem witness_SystemCallRetires_continue : PipelineInv (calling 5 7) ∧ MemoryInv (calling 5 7) ∧
    (calling 5 7).em.flags.syscall = false ∧ (calling 5 7).de.flags.syscall = false ∧
    nextWith (exec .syscall (calling 5 7)) (fun t => nextWith (step t) fun t => runsOn (step t)) = true ∧
    (pending (calling 5 7)).get 2 ≠ 1 :=
  ⟨calling_pipelineInv 5 7, calling_memoryInv 5 7, by decide, by decide, by decide, by decide⟩

/-- The machine with a system call that goes on in EX/MEM, the entry in MEM/WB being a no-op. -/
def callInMem : State :=
  (calling 5 7).setEm ⟨0xFC000000, 0x00400000, .syscall, .none, flagsSyscall, Port.allNone, 0, 0, false⟩

/-- The machine with a system call that goes on in ID/EX. -/
def callInEx : State :=
  (calling 5 7).setDe ⟨0xFC000000, 0x00400000, .syscall, .none, flagsSyscall, Port.allNone, 0, 0⟩

theorem witness_SystemCallResultIsLate_before :
    PipelineInv callInMem ∧ PipelineInv callInEx ∧
    ∀ s ∈ [callInMem, callInEx], runsOn (exec (.add 3 2 1) s) = true ∧ s.em.port.dstE ≠ some 2 ∧
      s.em.port.dstM ≠ some 2 ∧ s.de.port.dstE ≠ some 2 ∧ s.de.port.dstM ≠ some 2 ∧
      (s.em.flags.syscall = true ∨ s.de.flags.syscall = true) ∧ s.mw.flags.syscall = false :=
  ⟨⟨by decide, by decide, by decide, by decide, by decide, by decide, by decide⟩,
    ⟨by decide, by decide, by decide, by decide, by decide, by decide, by decide⟩, by decide⟩
theorem witness_SystemCallResultIsLate_after :
    PipelineInv (atSyscall 5 7) ∧ runsOn (exec (.add 3 2 1) (atSyscall 5 7)) = true ∧
      (atSyscall 5 7).em.port.dstE ≠ some 2 ∧ (atSyscall 5 7).em.port.dstM ≠ some 2 ∧
      (atSyscall 5 7).de.port.dstE ≠ some 2 ∧ (atSyscall 5 7).de.port.dstM ≠ some 2 ∧
      (atSyscall 5 7).mw.flags.syscall = true :=
  ⟨⟨by decide, by decide, by decide, by decide, by decide, by decide, by decide⟩, by decide⟩

end Sys2Proof.Tests
end

section
/-! PROOFS. The family 20_memory.md: the word ports of the backing store, misaligned data accesses, and the decomposition of
word addresses. -/

namespace Sys2Proof

variable {D : Sizes}

theorem aligned_eq_false_iff (ea : D.Addr) : D.aligned ea = false ↔ ea.extractLsb' 0 D.ol ≠ 0 := beq_eq_false_iff_ne

/-- T0's line base clears the two offset bits (42_cache.md R151). -/
theorem lineBase_t0 (wa : Sizes.t0.WordAddr) : Sizes.t0.lineBase wa = wa &&& ~~~3#30 := by
  have hmask : BitVec.allOnes 30 <<< 2 = ~~~3#30 := by decide
  rw [← hmask]
  exact BitVec.shiftLeft_ushiftRight

/-- Settles O39: the base of a word address's tag and set is its line base, and the offset is what the line base leaves
out. -/
theorem addressRoundTrip : Obligations.AddressRoundTrip := by
  refine ⟨fun D wa => ⟨?_, lineWord_self wa⟩, fun wa => ?_⟩
  · rw [← lineBase_eq, lineBase_toNat, D.lineWords_eq]
  · rw [← lineBase_eq, lineBase_t0]

end Sys2Proof

namespace Sys2Proof.Machine

variable {D : Sizes} {α : Type}

/-! ## What the memory operations do where they fault -/

/-- `raise MemoryFault` writes the status and nothing else (60_exceptions.md R221, R224). -/
theorem raiseMemoryFault_eq (a : D.Addr) (s : State D) : (raiseMemoryFault a s : Run D α) =
    .stop { s with status := .faulted (.memoryFault a s.counters.cycleCount) } := rfl

theorem dRead_of_misaligned (C : Config D) {ea : D.Addr} (s : State D) (h : D.aligned ea = false) :
    dRead C ea s = raiseMemoryFault ea s := by
  rw [dRead, if_neg (by simp [h])]

theorem dWrite_of_misaligned (C : Config D) {ea : D.Addr} (v : D.Word) (s : State D) (h : D.aligned ea = false) :
    dWrite C ea v s = raiseMemoryFault ea s := by
  rw [dWrite, if_neg (by simp [h])]

theorem backendRead_of_unmapped {wa : D.WordAddr} {s : State D} (h : s.mapped wa = false) :
    backendRead wa s = raiseMemoryFault (D.byteAddr wa) s := by
  rw [backendRead, if_neg (by simp [h])]

theorem backendWrite_of_unmapped {wa : D.WordAddr} (v : D.Word) {s : State D} (h : s.mapped wa = false) :
    backendWrite wa v s = raiseMemoryFault (D.byteAddr wa) s := by
  rw [backendWrite, if_neg (by simp [h])]

/-! ## The statements of the family -/

/-- Settles O31: the alignment test of an access comes before the cache is looked at. -/
theorem misalignedAccess : Obligations.MisalignedAccess := by
  intro D C ea v s h
  have hea : D.aligned ea = false := (aligned_eq_false_iff ea).2 h
  rw [dRead_of_misaligned C s hea, dWrite_of_misaligned C v s hea]
  exact ⟨raiseMemoryFault_eq ea s, raiseMemoryFault_eq ea s⟩

/-- Settles O37: at a mapped word by the laws of a word write, at any other because both ports raise. -/
theorem backendPorts : Obligations.BackendPorts := by
  intro D wa v s hwf
  refine ⟨fun hmapped => ⟨?read, setMemWord s.mem wa v, ?write, ?wf, ?word, ?frame⟩, fun hunmapped => ?fault⟩
  case read => exact backendRead_eq_ok.2 ⟨hmapped, rfl, rfl⟩
  case write => exact backendWrite_eq_ok.2 ⟨hmapped, rfl⟩
  case wf => exact setMemWord_wf wa v hwf
  case word => rw [memWord_setMemWord hwf, if_pos rfl]
  case frame => exact fun b => readByte_setMemWord_ne s.mem wa v
  case fault =>
    rw [backendRead_of_unmapped hunmapped, backendWrite_of_unmapped v hunmapped]
    exact ⟨raiseMemoryFault_eq (D.byteAddr wa) s, raiseMemoryFault_eq (D.byteAddr wa) s⟩

end Sys2Proof.Machine
end

section
/-! PROOFS. The family 30_encoding.md: the opcode map of R81, by comparing the decoder's rows with the spec's one by one, and
the reserved encodings of R82, by the decoder's chain of field tests. -/

namespace Sys2Proof.Machine

/-! ## The decoder's rows and the spec's (R81) -/

/-- A row of the decoder says what a row of the spec's table says: the same words, and for them the same answer. -/
structure RowAgrees (r : OpRow) (s : SpecRow) : Prop where
  pattern : r.pattern = s.pattern
  mask    : r.mask = s.mask
  answer  : ∀ w, s.answers (lookupInstr (r.build w))

theorem RowAgrees.matches_iff {r : OpRow} {s : SpecRow} (h : RowAgrees r s) (w : Word) :
    w &&& r.mask = r.pattern ↔ s.matches w := by
  rw [h.pattern, h.mask]

theorem rowAgrees_of_op {m : String} {p k : Word} {build : Word → Instr} {o : Opcode} {f : Flags}
    (h : ∀ w, ∃ e, lookupInstr (build w) = .op e ∧ e.op = o ∧ e.flags = f) :
    RowAgrees ⟨m, p, k, build⟩ ⟨p, k, some o, f⟩ := ⟨rfl, rfl, h⟩

/-- The two tables agree row by row. -/
theorem opRows_agree : List.Forall₂ RowAgrees opRows specRows := by
  simp only [opRows, specRows, List.forall₂_cons, List.Forall₂.nil, and_true]
  refine ⟨?nop, ?j, ?add, ?sub, ?and, ?or, ?xor, ?slt, ?addi, ?ori, ?lui, ?lw, ?sw, ?link, ?syscall⟩
  case link => exact ⟨rfl, rfl, fun _ => rfl⟩
  all_goals exact rowAgrees_of_op fun _ => ⟨_, rfl, rfl, rfl⟩

/-- Of a word that two rows match, the bits under both masks are given by either pattern. -/
theorem SpecRow.not_both_match {r r' : SpecRow} (h : r.pattern &&& r'.mask ≠ r'.pattern &&& r.mask) (w : Word) :
    ¬ (r.matches w ∧ r'.matches w) := by
  rintro ⟨hr, hr'⟩
  apply h
  rw [← hr, ← hr', BitVec.and_assoc, BitVec.and_assoc, BitVec.and_comm r.mask]

theorem specRows_disjoint : specRows.Pairwise fun r r' => ∀ w, ¬ (r.matches w ∧ r'.matches w) := by
  have hbits : specRows.Pairwise fun r r' => r.pattern &&& r'.mask ≠ r'.pattern &&& r.mask := by decide
  exact hbits.imp SpecRow.not_both_match

/-- Where no two rows of the spec match one word, the first row that covers a word is the one that matches it. -/
theorem find_row_answers {rows : List OpRow} {srows : List SpecRow} {w : Word} {s : SpecRow}
    (hagree : List.Forall₂ RowAgrees rows srows)
    (hdisj : srows.Pairwise fun r r' => ∀ w, ¬ (r.matches w ∧ r'.matches w)) (hs : s ∈ srows) (hw : s.matches w) :
    ∃ i, (rows.find? (·.covers w)).map (·.build w) = some i ∧ s.answers (lookupInstr i) := by
  induction hagree with
  | nil => cases hs
  | cons hr _ ih =>
    obtain ⟨hhead, htail⟩ := List.pairwise_cons.1 hdisj
    rw [find_row (hr.matches_iff w) rfl rfl]
    rcases List.mem_cons.1 hs with rfl | hs
    · rw [if_pos hw]
      exact ⟨_, rfl, hr.answer w⟩
    · rw [if_neg fun hc => hhead s hs w ⟨hc, hw⟩]
      exact ih htail hs

/-- Where no row of the spec matches a word, no row covers it. -/
theorem find_row_eq_none {rows : List OpRow} {srows : List SpecRow} {w : Word}
    (hagree : List.Forall₂ RowAgrees rows srows) (hw : ∀ s ∈ srows, ¬ s.matches w) :
    (rows.find? (·.covers w)).map (·.build w) = none := by
  induction hagree with
  | nil => rfl
  | cons hr _ ih =>
    obtain ⟨hhead, htail⟩ := List.forall_mem_cons.1 hw
    rw [find_row (hr.matches_iff w) rfl rfl, if_neg hhead]
    exact ih htail

/-! ## The table's answer -/

theorem t0Lookup_of_some {w : Word} {i : Instr} (h : decodeWord w = some i) : t0Lookup w = lookupInstr i := by
  rw [t0Lookup, h]

theorem t0Lookup_of_none {w : Word} (h : decodeWord w = none) : t0Lookup w = .absent := by
  rw [t0Lookup, h]

theorem lookupInstr_ne_absent (i : Instr) : lookupInstr i ≠ .absent := by
  cases i <;> simp [lookupInstr]

theorem t0Lookup_eq_absent_iff (w : Word) : t0Lookup w = .absent ↔ decodeWord w = none := by
  refine ⟨fun h => ?_, t0Lookup_of_none⟩
  cases hd : decodeWord w with
  | none => rfl
  | some i => exact absurd ((t0Lookup_of_some hd).symm.trans h) (lookupInstr_ne_absent i)

/-- Settles O3: the decoder's rows agree with the spec's, and two rows differ in a bit that both masks keep. -/
theorem opcodeMap : Obligations.OpcodeMap := by
  refine ⟨fun w s hs hw => ?matching, fun w hw => ?noMatch, specRows_disjoint⟩
  case matching =>
    obtain ⟨i, hd, hanswer⟩ := find_row_answers opRows_agree specRows_disjoint hs hw
    rwa [t0Lookup_of_some hd]
  case noMatch => exact t0Lookup_of_none (find_row_eq_none opRows_agree hw)

/-! ## The reserved encodings (R82) -/

/-- The words that fail every field test of the decoder. -/
theorem decodeWord_eq_none_iff (w : Word) : decodeWord w = none ↔
    ¬ (fieldOp w = 0x00 ∧ fieldTarg w = 0) ∧ fieldOp w ≠ 0x01 ∧
    ¬ (fieldOp w = 0x08 ∧ fieldLow w = 0) ∧ ¬ (fieldOp w = 0x09 ∧ fieldLow w = 0) ∧
    ¬ (fieldOp w = 0x0A ∧ fieldLow w = 0) ∧ ¬ (fieldOp w = 0x0B ∧ fieldLow w = 0) ∧
    ¬ (fieldOp w = 0x0C ∧ fieldLow w = 0) ∧ ¬ (fieldOp w = 0x0D ∧ fieldLow w = 0) ∧
    fieldOp w ≠ 0x10 ∧ fieldOp w ≠ 0x11 ∧ ¬ (fieldOp w = 0x12 ∧ fieldRs w = 0) ∧
    fieldOp w ≠ 0x20 ∧ fieldOp w ≠ 0x28 ∧ fieldOp w ≠ 0x3E ∧
    ¬ (fieldOp w = 0x3F ∧ fieldTarg w = 0) := by
  have hnop : w = 0 ↔ fieldOp w = 0x00 ∧ fieldTarg w = 0 := eq_op_iff w 0x00
  have hsyscall : w = 0xFC000000 ↔ fieldOp w = 0x3F ∧ fieldTarg w = 0 := eq_op_iff w 0x3F
  simp only [decodeWord_eq, ite_some_eq_none, hnop, hsyscall, ne_eq, and_true]

/-- Settles O4: once it is known which of the fields that must be 0 are 0, both sides say which values `op` can have. -/
theorem reservedEncodings : Obligations.ReservedEncodings := by
  intro w
  rw [t0Lookup_eq_absent_iff, decodeWord_eq_none_iff]
  unfold fieldOp fieldTarg fieldLow fieldRs
  generalize w.extractLsb' 26 6 = op
  by_cases htarg : w.extractLsb' 0 26 = 0 <;>
  by_cases hlow : w.extractLsb' 0 11 = 0 <;>
  by_cases hrs : w.extractLsb' 21 5 = 0 <;>
  · simp only [htarg, hlow, hrs, ne_eq, not_true_eq_false, not_false_eq_true, and_true, and_false,
      or_false, false_or, true_and]
    bv_omega

end Sys2Proof.Machine
end

section
/-! PROOFS. The family 40_pipeline_engine.md: how Writeback ends, what Execute leaves in EX/MEM, and the squash. -/

namespace Sys2Proof.Machine

variable {D : Sizes}

/-! ## Writeback (R103 to R105) -/

theorem retires_eq_false_iff (b : MW D) : retires b = false ↔ b.op = .nop := by
  simp [retires]

theorem retires_eq_true_iff (b : MW D) : retires b = true ↔ b.op ≠ .nop := by
  simp [retires]

/-- The state after the register commit, as Writeback leaves it for an entry that is no call. -/
def State.committed (s : State D) : State D := s.setRegs (commit s.mw s.regs)

/-- The state in which the collaborator is called: the commit is done and the entry is counted. -/
def State.counted (s : State D) : State D := s.committed.setCounters s.counters.countInsn

theorem writeback_of_nop (C : Config D) {s : State D} (hop : s.mw.op = .nop) : writeback C s = .ok () s.committed := by
  have hret : retires s.mw = false := (retires_eq_false_iff s.mw).2 hop
  rw [writeback, setRegs_mw, hret]
  rfl

theorem writeback_of_retires (C : Config D) {s : State D} (hop : s.mw.op ≠ .nop) (hcall : s.mw.flags.syscall = false) :
    writeback C s = .ok () s.counted := by
  have hret : retires s.mw = true := (retires_eq_true_iff s.mw).2 hop
  have hsys : callsSys s.mw = false := by rw [callsSys, hcall, Bool.and_false]
  simp only [writeback, setRegs_mw, setCounters_mw, hret, hsys, if_true, Bool.false_eq_true, if_false]
  rfl

/-- What the collaborator's answer does to the machine: it halts, or has its registers and its backing store replaced. -/
def answerCall (r : SysResult D) (s : State D) : Run D Unit :=
  match r with
  | .exit code => halt code s
  | .cont R m => .ok () ((s.setRegs R).setMem m)

/-- A system call is counted before the collaborator answers. -/
theorem writeback_of_call (C : Config D) {s : State D} (hop : s.mw.op ≠ .nop) (hcall : s.mw.flags.syscall = true) :
    writeback C s = answerCall (C.sys (commit s.mw s.regs) s.mem s.mw.inst) s.counted := by
  have hret : retires s.mw = true := (retires_eq_true_iff s.mw).2 hop
  have hsys : callsSys s.mw = true := by rw [callsSys, hret, hcall, Bool.and_true]
  simp only [writeback, setRegs_mw, setCounters_mw, hret, hsys, if_true]
  rfl

theorem beforeDecode_of_writeback_stop {C : Config D} {s t : State D} (h : writeback C (beginCycle s) = .stop t) :
    beforeDecode C s = .stop t := by
  rw [beforeDecode, h, bind_stop]

/-- Settles O18: Writeback case by case, by the entry's opcode, its system-call flag and the collaborator's answer; a
cycle that Writeback stops is stopped before Decode. -/
theorem writebackOnAnyTable : Obligations.WritebackOnAnyTable := by
  intro D C s _
  refine ⟨?noOp, ?counted, ?exit, ?goesOn, ?stops⟩
  case noOp => exact writeback_of_nop C
  case counted => exact writeback_of_retires C
  case exit =>
    intro code hop hcall hr
    rw [writeback_of_call C hop hcall, hr]
    rfl
  case goesOn =>
    intro R2 m2 hop hcall hr
    rw [writeback_of_call C hop hcall, hr]
    rfl
  case stops =>
    intro l t h
    rw [cycle, beforeDecode_of_writeback_stop h, bind_stop]

/-! ## Execute (R107, R108) -/

/-- A table whose effect for the no-op is 0 (30_encoding.md R75, WF10) leaves 0 in EX/MEM for it. -/
theorem executed_e_of_nop {C : Config D} (hC : ∀ w pc a b, C.effect .nop w pc a b = 0) {b : DE D} (hop : b.op = .nop) :
    (executed C b).e = 0 := by
  change C.effect b.op b.inst b.pc b.a b.b = 0
  rw [hop, hC]

theorem t0_effect_nop (w pc a b : Word) : t0.effect .nop w pc a b = 0 := rfl

/-- No stage after Execute writes EX/MEM. -/
theorem exec_em {i : Instr} {s t : State} (h : exec i s = .next t) (ht : t.status = .running) :
    t.em = executed t0 s.de := by
  obtain ⟨-, -, x, y, hx, hy, hz⟩ := exec_running h ht
  obtain ⟨-, -, -, -, -, hExecute, -, -, -⟩ := beforeDecode_frame hx
  have hDecode : y.em = x.em := by
    have hframe := decode_frame t0 (lookupInstr i) x
    rw [hy] at hframe
    exact hframe.em
  have hFetch : t.em = y.em := by
    obtain ⟨-, -, hem, -⟩ := fetch_final t0 y
    rwa [hz] at hem
  calc t.em = y.em := hFetch
    _ = x.em := hDecode
    _ = executed t0 s.de := hExecute

/-- Settles O22: Execute is one write of EX/MEM, and the stages after it leave that alone. -/
theorem executeWritesEm : Obligations.ExecuteWritesEm := by
  refine ⟨fun D C s hC => ⟨rfl, executed_e_of_nop hC.wf10⟩, fun i s t h ht => ?_⟩
  rw [exec_em h ht]
  exact ⟨rfl, executed_e_of_nop t0_effect_nop⟩

/-! ## The squash (R111) -/

theorem decode_of_squashed (C : Config D) (l : Lookup D) {s : State D} (h : s.em.taken = true) :
    decode C l s = .ok () (s.setDe (DE.bubble C s.fd.pc)) := by
  have hs : squashed s = true := h
  unfold decode
  rw [if_pos hs]

/-- The three stages before Decode end with Execute, which clears the branch-taken flag. -/
theorem taken_of_beforeDecode {C : Config D} {s x : State D} {u : Unit} (h : beforeDecode C s = .ok u x) :
    x.em.taken = false := by
  unfold beforeDecode at h
  simp only [bind_eq_ok] at h
  obtain ⟨_, _, -, _, y, -, hx⟩ := h
  cases hx
  exact executed_taken C y.de

/-- Settles O54: the squash test comes before the table's answer is looked at, and Execute clears the flag that it reads. -/
theorem squash : Obligations.Squash := by
  intro D C _
  exact ⟨fun l _ h => decode_of_squashed C l h, fun _ _ h => taken_of_beforeDecode h⟩

end Sys2Proof.Machine
end

section
/-! PROOFS. The family 42_cache.md: hits and misses of `read_word` and `write_word`, and the eviction of a fill's victim. -/

namespace Sys2Proof.Machine

variable {D : Sizes}

/-! ## Hits (R154, R157) -/

theorem readWord_of_hit (C : Config D) {wa : D.WordAddr} {w : D.Way} {s : State D} (h : s.lookup wa = some w) :
    readWord C wa s = .ok (s.line (D.setOf wa) w).data[D.offOf wa] (s.setCounters s.counters.countHit) :=
  readWord_eq_ok.2 (.inl ⟨w, h, rfl, rfl⟩)

/-- The state after a write hit in slot `w`. -/
def State.wordWritten (s : State D) (wa : D.WordAddr) (w : D.Way) (v : D.Word) : State D :=
  (s.setLine (D.setOf wa) w ((s.line (D.setOf wa) w).written (D.offOf wa) v)).setCounters s.counters.countHit

theorem writeWord_of_hit (C : Config D) {wa : D.WordAddr} {w : D.Way} (v : D.Word) {s : State D}
    (h : s.lookup wa = some w) : writeWord C wa v s = .ok () (s.wordWritten wa w v) :=
  writeWord_eq_ok.2 (.inl ⟨w, h, rfl⟩)

theorem wordWritten_line_same (s : State D) (wa : D.WordAddr) (w : D.Way) (v : D.Word) :
    (s.wordWritten wa w v).line (D.setOf wa) w = (s.line (D.setOf wa) w).written (D.offOf wa) v :=
  setLine_line_self s _ w _

theorem wordWritten_line_other (s : State D) {wa : D.WordAddr} {w : D.Way} (v : D.Word) {j : D.SetIx} {x : D.Way}
    (h : ¬ (j = D.setOf wa ∧ x = w)) : (s.wordWritten wa w v).line j x = s.line j x := by
  rw [State.wordWritten, setCounters_line, setLine_line, if_neg h]

theorem wordWritten_cursor (s : State D) (wa : D.WordAddr) (w : D.Way) (v : D.Word) (j : D.SetIx) :
    (s.wordWritten wa w v).cursor j = s.cursor j :=
  setLine_cursor s _ j w _

/-- Settles O40: the hit case of `read_word`. -/
theorem readHit : Obligations.ReadHit := by
  intro D C wa w s h
  exact readWord_of_hit C h

/-- Settles O42: the hit case of `write_word` replaces one line and counts the hit. -/
theorem writeHit : Obligations.WriteHit := by
  intro D C wa w v s h
  refine ⟨s.wordWritten wa w v, writeWord_of_hit C v h, ?_⟩
  rw [wordWritten_line_same]
  refine ⟨?word, rfl, rfl, rfl, rfl, rfl, ?words, ?lines, ?cursors⟩
  case word => rw [written_data, if_pos rfl]
  case words =>
    intro k hk
    rw [written_data, if_neg hk.symm]
  case lines => exact fun _ _ => wordWritten_line_other s v
  case cursors => exact wordWritten_cursor s wa w v

/-! ## The counters and the backing store after an eviction (R161, R162) -/

/-- An eviction counts a valid victim once, and once more, as a write-back, if it is dirty too. -/
theorem evictCounters_eq (c : Counters) (L : CacheLine D) : evictCounters c L = { c with
    cacheReplaceCount := c.cacheReplaceCount + (if L.valid = true then 1 else 0)
    cacheWbCount := c.cacheWbCount + (if L.valid = true ∧ L.dirty = true then 1 else 0) } := by
  unfold evictCounters
  cases hv : L.valid with
  | false => rfl
  | true =>
    cases hd : L.dirty with
    | false => rfl
    | true => rfl

theorem evictMem_of_dirty (m : Memory) {L : CacheLine D} (i : D.SetIx) (hv : L.valid = true) (hd : L.dirty = true) :
    evictMem m L i = writeBackMem m L i := if_pos ⟨hv, hd⟩

theorem evictMem_of_clean (m : Memory) {L : CacheLine D} (i : D.SetIx) (hd : L.dirty = false) : evictMem m L i = m :=
  if_neg fun h => by simp [hd] at h

theorem evictMem_of_invalid (m : Memory) {L : CacheLine D} (i : D.SetIx) (hv : L.valid = false) : evictMem m L i = m :=
  if_neg fun h => by simp [hv] at h

/-- The words of a line follow its base without wrapping. -/
theorem lineWord_baseOf_toNat (t : D.Tag) (i : D.SetIx) (k : D.Off) :
    (D.lineWord (D.baseOf t i) k).toNat = (D.baseOf t i).toNat + k.val := by
  rw [lineWord_toNat, baseOf_toNat, Nat.add_assoc]

/-- The write-back of a line changes no byte outside the line's words. -/
theorem readByte_writeBackMem_ne (m : Memory) (L : CacheLine D) (i : D.SetIx) {a : Nat}
    (h : a < D.wordBytes * (D.baseOf L.tag i).toNat ∨
      D.wordBytes * ((D.baseOf L.tag i).toNat + D.lineWords) ≤ a) :
    readByte (writeBackMem m L i) a = readByte m a := by
  refine readByte_foldl_ne _ _ _ m fun k _ => ?_
  rw [lineWord_baseOf_toNat, ← Nat.mul_succ]
  rcases h with hbelow | habove
  · exact .inl (Nat.lt_of_lt_of_le hbelow (Nat.mul_le_mul_left _ (Nat.le_add_right _ _)))
  · have hk : (D.baseOf L.tag i).toNat + k.val + 1 ≤ (D.baseOf L.tag i).toNat + D.lineWords :=
      Nat.add_le_add_left k.isLt _
    exact .inr (Nat.le_trans (Nat.mul_le_mul_left _ hk) habove)

/-! ## The state after a fill (R160, R163) -/

theorem filled_counters (s : State D) (b : D.WordAddr) :
    (s.filled b).counters = evictCounters s.counters (s.line (D.setOf b) (s.cursor (D.setOf b))) := rfl

theorem filled_cursor (s : State D) (b : D.WordAddr) (j : D.SetIx) : (s.filled b).cursor j =
    if j = D.setOf b then D.nextWay (s.cursor (D.setOf b)) else s.cursor j := by
  unfold State.filled
  simp only [setLine_cursor, setCounters_cursor, setMem_cursor, setCursor_cursor]

theorem filled_cursor_val (s : State D) (b : D.WordAddr) :
    ((s.filled b).cursor (D.setOf b)).val = ((s.cursor (D.setOf b)).val + 1) % D.nways := by
  rw [filled_cursor, if_pos rfl, Sizes.nextWay]

theorem filled_line_other (s : State D) (b : D.WordAddr) {j : D.SetIx} {w : D.Way}
    (h : ¬ (j = D.setOf b ∧ w = s.cursor (D.setOf b))) : (s.filled b).line j w = s.line j w := by
  rw [filled_line, if_neg h]

/-- Settles O44: the counters and the backing store of a completed fill are those of its eviction, taken by the victim's
flags. -/
theorem eviction : Obligations.Eviction := by
  intro D b s t hwf hfill L
  obtain ⟨-, -, rfl⟩ := fill_eq_ok.1 hfill
  have hmem : (s.filled b).mem = evictMem s.mem L (D.setOf b) := filled_mem s b
  have hcounters : (s.filled b).counters = evictCounters s.counters L := filled_counters s b
  rw [hmem, hcounters, evictCounters_eq]
  refine ⟨fun hv hd => ?dirty, fun hv hd => ?clean, fun hv => ?invalid, filled_cursor_val s b,
    fun _ _ => filled_line_other s b⟩
  case dirty =>
    rw [evictMem_of_dirty s.mem _ hv hd]
    exact ⟨memWord_writeBack hwf L _, fun _ => readByte_writeBackMem_ne s.mem L _, by simp [hv, hd], by simp [hv]⟩
  case clean => exact ⟨evictMem_of_clean s.mem _ hd, by simp [hd], by simp [hv]⟩
  case invalid => exact ⟨evictMem_of_invalid s.mem _ hv, by simp [hv]⟩

/-! ## The fill of a word that missed -/

/-- What the fill for a missed word leaves in the cache: the victim's slot holds the line of the word as the backing
store has it, the cursor has advanced, and no other line or cursor has changed (R155, R158, R163). -/
structure LineFilled (s t : State D) (wa : D.WordAddr) : Prop where
  line    : t.line (D.setOf wa) (s.cursor (D.setOf wa)) = filledLine t.mem (D.lineBase wa)
  lines   : ∀ i w, ¬ (i = D.setOf wa ∧ w = s.cursor (D.setOf wa)) → t.line i w = s.line i w
  cursor  : (t.cursor (D.setOf wa)).val = ((s.cursor (D.setOf wa)).val + 1) % D.nways
  cursors : ∀ i, i ≠ D.setOf wa → t.cursor i = s.cursor i

theorem filled_lineFilled (s : State D) (wa : D.WordAddr) : LineFilled s (s.filled (D.lineBase wa)) wa := by
  have hset : D.setOf (D.lineBase wa) = D.setOf wa := setOf_lineBase wa
  constructor
  case line => rw [filled_line, filled_mem, hset, if_pos ⟨rfl, rfl⟩]
  case lines =>
    intro i w h
    exact filled_line_other s _ (by rwa [hset])
  case cursor =>
    have h := filled_cursor_val s (D.lineBase wa)
    rwa [hset] at h
  case cursors =>
    intro i h
    rw [filled_cursor, hset, if_neg h]

/-- The filled line, word by word and at the word that missed. -/
theorem LineFilled.contents {s t : State D} {wa : D.WordAddr} (h : LineFilled s t wa) :
    (t.line (D.setOf wa) (s.cursor (D.setOf wa))).valid = true ∧
    (t.line (D.setOf wa) (s.cursor (D.setOf wa))).dirty = false ∧
    (t.line (D.setOf wa) (s.cursor (D.setOf wa))).tag = D.tagOf wa ∧
    (t.line (D.setOf wa) (s.cursor (D.setOf wa))).data[D.offOf wa] = memWord t.mem wa ∧
    ∀ k : D.Off, (t.line (D.setOf wa) (s.cursor (D.setOf wa))).data[k] =
      memWord t.mem (D.lineWord (D.baseOf (D.tagOf wa) (D.setOf wa)) k) := by
  rw [h.line]
  have hdata : ∀ k : D.Off, (filledLine t.mem (D.lineBase wa)).data[k] =
      memWord t.mem (D.lineWord (D.baseOf (D.tagOf wa) (D.setOf wa)) k) := by
    intro k
    rw [filledLine_data, lineBase_eq]
  have hword := hdata (D.offOf wa)
  rw [lineWord_self] at hword
  exact ⟨rfl, rfl, tagOf_lineBase wa, hword, hdata⟩

/-- The victim of a fill after a miss does not hold the word that missed, so its eviction leaves that word of the backing
store alone. -/
theorem memWord_filled_of_miss {s : State D} {wa : D.WordAddr} (hmiss : s.lookup wa = none) :
    memWord (s.filled (D.lineBase wa)).mem wa = memWord s.mem wa := by
  rw [filled_mem, setOf_lineBase]
  exact memWord_evict_ne _ _ _ _ fun hv e => lookup_eq_none.1 hmiss _ hv e.1.symm

/-! ## Misses (R155, R158) -/

/-- The state in which a miss makes its access to the backing store: the miss is counted. -/
def State.missed (C : Config D) (s : State D) : State D := s.setCounters (s.counters.countMiss C.missPenalty)

/-- The state in which a write miss fills: the miss is counted and the word is in the backing store. -/
def State.writtenThrough (C : Config D) (s : State D) (wa : D.WordAddr) (v : D.Word) : State D :=
  (s.missed C).setMem (setMemWord s.mem wa v)

theorem readWord_of_unmapped (C : Config D) {wa : D.WordAddr} {s : State D} (hmiss : s.lookup wa = none)
    (h : s.mapped wa = false) : readWord C wa s = raiseMemoryFault (D.byteAddr wa) (s.missed C) := by
  have hr : backendRead wa (s.missed C) = raiseMemoryFault (D.byteAddr wa) (s.missed C) := backendRead_of_unmapped h
  unfold readWord
  rw [hmiss]
  exact congrArg (Run.bind · _) hr

theorem writeWord_of_unmapped (C : Config D) {wa : D.WordAddr} (v : D.Word) {s : State D} (hmiss : s.lookup wa = none)
    (h : s.mapped wa = false) : writeWord C wa v s = raiseMemoryFault (D.byteAddr wa) (s.missed C) := by
  have hw : backendWrite wa v (s.missed C) = raiseMemoryFault (D.byteAddr wa) (s.missed C) := backendWrite_of_unmapped v h
  unfold writeWord
  rw [hmiss]
  exact congrArg (Run.bind · _) hw

/-- A read miss that completes answers the backing store's word and ends with the fill. -/
theorem readWord_miss {C : Config D} {wa : D.WordAddr} {s t : State D} {v : D.Word} (hmiss : s.lookup wa = none)
    (h : readWord C wa s = .ok v t) : v = memWord s.mem wa ∧ t = (s.missed C).filled (D.lineBase wa) := by
  rcases readWord_eq_ok.1 h with ⟨w, hhit, -⟩ | ⟨-, -, -, -, hv, ht⟩
  · cases hmiss.symm.trans hhit
  · exact ⟨hv, ht⟩

/-- A write miss that completes has written the word through and ends with the fill. -/
theorem writeWord_miss {C : Config D} {wa : D.WordAddr} {s t : State D} {v : D.Word} (hmiss : s.lookup wa = none)
    (h : writeWord C wa v s = .ok () t) :
    t = (s.writtenThrough C wa v).filled (D.lineBase wa) := by
  rcases writeWord_eq_ok.1 h with ⟨w, hhit, -⟩ | ⟨-, -, -, -, ht⟩
  · cases hmiss.symm.trans hhit
  · exact ht

/-- Settles O41: the read answers before the fill, and the victim is not the line of the word read. -/
theorem readMiss : Obligations.ReadMiss := by
  intro D C wa s hmiss victim
  refine ⟨rfl, fun hunmapped => readWord_of_unmapped C hmiss hunmapped, fun t v hread => ?completes⟩
  obtain ⟨rfl, rfl⟩ := readWord_miss hmiss hread
  have hmiss' : (s.missed C).lookup wa = none := hmiss
  have hfilled := filled_lineFilled (s.missed C) wa
  obtain ⟨hvalid, hdirty, htag, hword, hdata⟩ := hfilled.contents
  have hcounters : ((s.missed C).filled (D.lineBase wa)).counters =
      evictCounters (s.missed C).counters victim := by
    rw [filled_counters, setOf_lineBase]
    rfl
  rw [hcounters, evictCounters_eq]
  exact ⟨rfl, rfl, rfl, rfl, rfl, rfl, rfl, hfilled.cursor, (filled_present hmiss').1,
    ⟨hvalid, hdirty, htag, hword.trans (memWord_filled_of_miss hmiss'), hdata⟩, hfilled.lines, hfilled.cursors⟩

/-- Settles O43: the word is in the backing store before the fill, and the victim is not its line. -/
theorem writeMiss : Obligations.WriteMiss := by
  intro D C wa v s hmiss
  refine ⟨rfl, fun hunmapped => writeWord_of_unmapped C v hmiss hunmapped, fun t hwf hwrite => ?completes⟩
  obtain rfl := writeWord_miss hmiss hwrite
  have hmiss' : (s.writtenThrough C wa v).lookup wa = none := hmiss
  have hfilled := filled_lineFilled (s.writtenThrough C wa v) wa
  obtain ⟨hvalid, hdirty, htag, hword, hdata⟩ := hfilled.contents
  have hmem : memWord ((s.writtenThrough C wa v).filled (D.lineBase wa)).mem wa = v := by
    rw [memWord_filled_of_miss hmiss']
    exact (memWord_setMemWord hwf wa wa v).trans (if_pos rfl)
  rw [filled_counters, evictCounters_eq]
  exact ⟨⟨hvalid, hdirty, htag, hword.trans hmem, hdata⟩, hmem, rfl, rfl, rfl, rfl, hfilled.cursor, hfilled.lines,
    hfilled.cursors⟩

end Sys2Proof.Machine
end

section
/-! PROOFS. The family 60_exceptions.md: the exit of Writeback's system call and the two errors of Decode's table lookup, each
from how a cycle can end (`cycleStep_status`) and from what it does when it ends so. -/

namespace Sys2Proof.Machine

variable {D : Sizes}

/-! ## How a cycle ends (R224, R232) -/

theorem cycle_stop_of_cycleStep {l : Lookup .t0} {s t : State} (h : cycleStep t0 l s = .next t) (ht : t.status ≠ .running) :
    cycle t0 l s = .stop t := by
  obtain ⟨hs, rfl⟩ := running_of_next h
  have hhonest := cycle_honest l s
  cases hc : cycle t0 l s with
  | stop x => rfl
  | ok u x =>
    rw [hc] at hhonest ht
    exact absurd (((honest_ok s x u).1 hhonest).trans hs) ht

/-- The status in which a cycle of T0 leaves the machine, with the one cause of each but a MemoryFault. -/
theorem cycleStep_status {l : Lookup .t0} {s t : State} (h : cycleStep t0 l s = .next t) :
    t.status = .running ∨
    (exits s = true ∧ t.status = .halted (readReg (committedRegs s) 4)) ∨
    (∃ a, t.status = .faulted (.memoryFault a t.counters.cycleCount)) ∨
    (l = .absent ∧ t.status = .faulted (.unknownOpcode s.fd.pc s.fd.inst t.counters.cycleCount)) ∨
    (l = .link ∧ t.status = .faulted (.unsupportedFeature s.fd.pc s.fd.inst t.counters.cycleCount)) := by
  by_cases ht : t.status = .running
  · exact .inl ht
  refine .inr ?_
  rcases cycle_cause (cycle_stop_of_cycleStep h ht) with
    ⟨hexit, rfl⟩ | ⟨-, hmem⟩ | ⟨-, hl, x, hx, rfl⟩ | ⟨-, hl, x, hx, rfl⟩
  case inl => exact .inl ⟨hexit, rfl⟩
  case inr.inl => exact .inr (.inl hmem)
  case inr.inr.inl =>
    obtain ⟨-, -, -, hfd, -⟩ := beforeDecode_frame hx
    exact .inr (.inr (.inl ⟨hl, by rw [hfd]; rfl⟩))
  case inr.inr.inr =>
    obtain ⟨-, -, -, hfd, -⟩ := beforeDecode_frame hx
    exact .inr (.inr (.inr ⟨hl, by rw [hfd]; rfl⟩))

theorem exits_of_halted {l : Lookup .t0} {s t : State} {code : Word} (h : cycleStep t0 l s = .next t)
    (ht : t.status = .halted code) : exits s = true := by
  rcases cycleStep_status h with hs | ⟨hexit, -⟩ | ⟨_, hs⟩ | ⟨-, hs⟩ | ⟨-, hs⟩
  case inr.inl => exact hexit
  all_goals cases ht.symm.trans hs

theorem absent_of_unknownOpcode {l : Lookup .t0} {s t : State} {pc inst : Word} {c : Nat} (h : cycleStep t0 l s = .next t)
    (ht : t.status = .faulted (.unknownOpcode pc inst c)) :
    l = .absent ∧ pc = s.fd.pc ∧ inst = s.fd.inst ∧ c = t.counters.cycleCount := by
  rcases cycleStep_status h with hs | ⟨-, hs⟩ | ⟨_, hs⟩ | ⟨hl, hs⟩ | ⟨-, hs⟩
  all_goals cases ht.symm.trans hs
  exact ⟨hl, rfl, rfl, rfl⟩

theorem link_of_unsupportedFeature {l : Lookup .t0} {s t : State} {pc inst : Word} {c : Nat}
    (h : cycleStep t0 l s = .next t) (ht : t.status = .faulted (.unsupportedFeature pc inst c)) :
    l = .link ∧ pc = s.fd.pc ∧ inst = s.fd.inst ∧ c = t.counters.cycleCount := by
  rcases cycleStep_status h with hs | ⟨-, hs⟩ | ⟨_, hs⟩ | ⟨-, hs⟩ | ⟨hl, hs⟩
  all_goals cases ht.symm.trans hs
  exact ⟨hl, rfl, rfl, rfl⟩

/-! ## The step, by the word in IF/ID (R112) -/

theorem step_of_instr {s : State} {i : Instr} (h : s.instr = some i) : step s = exec i s := by
  rw [step, h]

theorem step_of_absent {s : State} (h : s.instr = none) : step s = cycleStep t0 .absent s := by
  rw [step, h, execAbsent]

theorem cycleStep_of_halted {C : Config D} {l : Lookup D} {s : State D} {code : D.Word} (h : s.status = .halted code) :
    cycleStep C l s = .fault (.halted code) := by
  rw [cycleStep, h]

theorem step_of_halted {s : State} {code : Word} (h : s.status = .halted code) : step s = .fault (.halted code) := by
  cases hi : s.instr with
  | none => rw [step_of_absent hi, cycleStep_of_halted h]
  | some i =>
    have hdecode : (s.inDecode (encode i)).status = .halted code := h
    rw [step_of_instr hi, exec_eq, cycleStep_of_halted hdecode]

/-! ## The exit (R232) -/

theorem cycle_of_exits (l : Lookup .t0) {s : State} (h : exits s = true) : cycle t0 l s = .stop s.exited := by
  have hw : writeback t0 (beginCycle s) = .stop s.exited := by rw [writeback_t0, if_pos h]
  rw [cycle, beforeDecode_of_writeback_stop hw, bind_stop]

/-- The exit looks at MEM/WB and the registers alone. -/
theorem exits_inDecode (s : State) (w : Word) : exits (s.inDecode w) = exits s := rfl

theorem exec_of_exits (i : Instr) {s : State} (hs : s.status = .running) (h : exits s = true) :
    exec i s = .next (s.inDecode (encode i)).exited := by
  have hrunning : (s.inDecode (encode i)).status = .running := hs
  rw [exec_eq, cycleStep_running hrunning, cycle_of_exits _ ((exits_inDecode s _).trans h), final_stop]

/-- Settles O20: Writeback's exit stops every instruction's cycle in `State.exited`, and it is the one cause of a status
`Halted`. -/
theorem exitHalts : Obligations.ExitHalts := by
  intro i s hs
  refine ⟨fun hexit => ⟨exec_of_exits i hs hexit, fun t ht => step_of_halted ?_⟩, fun t code h ht => ?_⟩
  · cases (exec_of_exits i hs hexit).symm.trans ht
    rfl
  · rw [exec_eq] at h
    exact (exits_inDecode s _).symm.trans (exits_of_halted h ht)

/-! ## The errors of the table lookup (R222, R223) -/

theorem decode_of_link (C : Config D) {s : State D} (h : s.em.taken = false) :
    decode C .link s = raise (.unsupportedFeature s.fd.pc s.fd.inst s.counters.cycleCount) s := by
  have hs : squashed s = false := h
  rw [decode, hs]
  rfl

theorem decode_of_absent (C : Config D) {s : State D} (h : s.em.taken = false) :
    decode C .absent s = raise (.unknownOpcode s.fd.pc s.fd.inst s.counters.cycleCount) s := by
  have hs : squashed s = false := h
  rw [decode, hs]
  rfl

/-- The end of a cycle that Decode stopped with an error before it wrote anything: the diagnostic has the cycle count of that
moment, and ID/EX, IF/ID, pc and npc are those the cycle began with. -/
structure DecodeRaised (err : Nat → FatalError) (s t : State) : Prop where
  status : t.status = .faulted (err t.counters.cycleCount)
  de     : t.de = s.de
  fd     : t.fd = s.fd
  pc     : t.pc = s.pc
  npc    : t.npc = s.npc

/-- Where Decode raises an error for IF/ID, a cycle whose earlier stages complete ends with it. -/
theorem cycleStep_raises {l : Lookup .t0} {s : State} {err : Nat → FatalError} (hready : readyToDecode s)
    (hdecode : ∀ x : State, x.em.taken = false → x.fd = s.fd → decode t0 l x = raise (err x.counters.cycleCount) x) :
    ∃ t, cycleStep t0 l s = .next t ∧ DecodeRaised err s t := by
  obtain ⟨x, hx, -⟩ := beforeDecode_complete hready
  obtain ⟨-, hpc, hnpc, hfd, hde, -⟩ := beforeDecode_frame hx
  have hcycle : (cycle t0 l s).final = x.setStatus (.faulted (err x.counters.cycleCount)) := by
    rw [cycle, hx, bind_ok, hdecode x (taken_of_beforeDecode hx) hfd, bind_raise, final_raise]
  refine ⟨_, cycleStep_running hready.1, ?_⟩
  rw [hcycle]
  exact ⟨rfl, hde, hfd, hpc, hnpc⟩

theorem eq_link_of_lookupInstr {i : Instr} (h : lookupInstr i = .link) : ∃ x, i = .link x := by
  cases i
  case link x => exact ⟨x, rfl⟩
  all_goals cases h

/-- Of the decoder's tests only the fourteenth, LINK's, answers a LINK, and it passes on all bits but the opcode. -/
theorem encode_link_of_decodeWord {w : Word} {x : BitVec 26} (h : decodeWord w = some (.link x)) : encode (.link x) = w := by
  rw [decodeWord_eq] at h
  iterate 13
    obtain ⟨-, hrow⟩ | h := ite_some_cases h
    · cases hrow
  obtain ⟨hop, hrow⟩ | h := ite_some_cases h
  · cases hrow
    rw [encode, ← hop, encodeJ_fields]
  · obtain ⟨-, hrow⟩ | hnone := ite_some_cases h
    · cases hrow
    · cases hnone

/-- Settles O28: LINK's table answer is the one for which Decode raises UnsupportedFeature. -/
theorem linkRaises : Obligations.LinkRaises := by
  refine ⟨fun x s hready => ?raises, fun s t pc inst c h ht => ?only⟩
  case raises =>
    have hready' := (readyToDecode_inDecode (encode (.link x))).2 hready
    obtain ⟨t, h, hraised⟩ := cycleStep_raises (l := .link)
      (err := .unsupportedFeature s.fd.pc (encode (.link x))) hready'
      fun y htaken hfd => by rw [decode_of_link t0 htaken, hfd]; rfl
    have hfd : t.fd.pc = s.fd.pc := by rw [hraised.fd]; rfl
    exact ⟨t, (exec_eq _ s).trans h, hraised.status, hraised.de, hfd, hraised.pc, hraised.npc⟩
  case only =>
    cases hi : s.instr with
    | none =>
      rw [step_of_absent hi] at h
      obtain ⟨hl, -⟩ := link_of_unsupportedFeature h ht
      cases hl
    | some i =>
      rw [step_of_instr hi, exec_eq] at h
      obtain ⟨hl, hpc, hinst, hc⟩ := link_of_unsupportedFeature h ht
      obtain ⟨x, rfl⟩ := eq_link_of_lookupInstr hl
      exact ⟨⟨x, rfl⟩, hpc, hinst.trans (encode_link_of_decodeWord hi), hc⟩

/-- Settles O29: ABSENT is the one table answer for which Decode raises UnknownOpcode, and no instruction's word has it. -/
theorem absentRaises : Obligations.AbsentRaises := by
  refine ⟨fun s hready hi => ?raises, fun s t pc inst c h ht => ?only⟩
  case raises =>
    rw [step_of_absent hi]
    obtain ⟨t, h, hraised⟩ := cycleStep_raises (l := .absent) (err := .unknownOpcode s.fd.pc s.fd.inst) hready
      fun x htaken hfd => by rw [decode_of_absent t0 htaken, hfd]
    exact ⟨t, h, hraised.status, hraised.de, hraised.fd, hraised.pc, hraised.npc⟩
  case only =>
    cases hi : s.instr with
    | none =>
      rw [step_of_absent hi] at h
      exact ⟨rfl, (absent_of_unknownOpcode h ht).2⟩
    | some i =>
      rw [step_of_instr hi, exec_eq] at h
      exact absurd (absent_of_unknownOpcode h ht).1 (lookupInstr_ne_absent i)

end Sys2Proof.Machine
end

section
/-! PROOFS. The round trip of decoder and encoder, assembler operands and the reach of a jump (30_encoding.md Part B). -/

namespace Sys2Proof

open Sys2Proof.Machine

/-! ## Decoding an encoded instruction (R79, R81) -/

theorem wordOfBytes_wordBytes (w : Word) :
    wordOfBytes (w.extractLsb' 0 8) (w.extractLsb' 8 8) (w.extractLsb' 16 8) (w.extractLsb' 24 8) = w := by
  apply BitVec.eq_of_getLsbD_eq
  intro i hi
  simp only [wordOfBytes, BitVec.getLsbD_append, BitVec.getLsbD_extractLsb']
  interval_cases i <;> simp

theorem decodeBytes_wordBytes {w : Word} {i : Instr} (h : decodeWord w = some i) (rest : List Byte) :
    decodeBytes (wordBytes w ++ rest) = .ok (i, rest) := by
  simp only [wordBytes, List.cons_append, List.nil_append, decodeBytes, wordOfBytes_wordBytes, h]

theorem decodeTableWord_toNat {w : Word} {i : Instr} (h : decodeWord w = some i) :
    decodeTableWord 32 w.toNat = some i := by
  have hbytes := decodeBytes_wordBytes h []
  rw [List.append_nil] at hbytes
  simp only [decodeTableWord, tableWord_toNat, hbytes]

/-- The decoder's chain of field tests, with the two whole words as fields too. -/
theorem decodeWord_encode (i : Instr) : decodeWord (encode i) = some i := by
  have hnop : ∀ w : Word, w = 0 ↔ fieldOp w = 0x00 ∧ fieldTarg w = 0 := fun w => eq_op_iff w 0x00
  have hsyscall : ∀ w : Word, w = 0xFC000000 ↔ fieldOp w = 0x3F ∧ fieldTarg w = 0 := fun w => eq_op_iff w 0x3F
  simp only [decodeWord_eq, hnop, hsyscall]
  cases i <;> simp [encode]

/-- Settles O1: the fields of an encoded word pass the test of its own row and of no row before it; the bytes of a word
make the word. -/
theorem decodeEncode : Obligations.DecodeEncode := fun i rest =>
  ⟨decodeWord_encode i, decodeBytes_wordBytes (decodeWord_encode i) rest, decodeTableWord_toNat (decodeWord_encode i)⟩

/-! ## Encoding what a word decodes to -/

theorem encodeR_of_mask {w : Word} (op : BitVec 6) (h : w &&& 0xFC0007FF#32 = op ++ 0#26) :
    encodeR op (fieldRd w) (fieldRs w) (fieldRt w) = w := by
  obtain ⟨rfl, hlow⟩ := (mask_low w op).1 h
  exact encodeR_fields hlow

theorem encodeI_of_mask {w : Word} (op : BitVec 6) (h : w &&& 0xFC000000#32 = op ++ 0#26) :
    encodeI op (fieldRt w) (fieldRs w) (fieldImm w) = w := by
  obtain rfl := (mask_op w op).1 h
  exact encodeI_fields w

theorem encodeJ_of_mask {w : Word} (op : BitVec 6) (h : w &&& 0xFC000000#32 = op ++ 0#26) :
    encodeJ op (fieldTarg w) = w := by
  obtain rfl := (mask_op w op).1 h
  exact encodeJ_fields w

/-- LUI's row asks its field `rs` to be 0, which is what the encoder writes there. -/
theorem encodeI_of_mask_rs {w : Word} (op : BitVec 6) (h : w &&& 0xFFE00000#32 = op ++ 0#26) :
    encodeI op (fieldRt w) 0 (fieldImm w) = w := by
  obtain ⟨rfl, hrs⟩ := (mask_rs w op).1 h
  rw [← hrs]
  exact encodeI_fields w

/-- A word that a row covers is the encoding of what the row builds from its fields. -/
theorem encode_build (w : Word) : ∀ r ∈ opRows, w &&& r.mask = r.pattern → encode (r.build w) = w := by
  simp only [opRows, List.forall_mem_cons]
  refine ⟨?nop, ?j, ?add, ?sub, ?and, ?or, ?xor, ?slt, ?addi, ?ori, ?lui, ?lw, ?sw, ?link, ?syscall, by simp⟩
  case nop => exact fun h => ((mask_all w _).1 h).symm
  case syscall => exact fun h => ((mask_all w _).1 h).symm
  case j => exact encodeJ_of_mask 0x01
  case link => exact encodeJ_of_mask 0x3E
  case lui => exact encodeI_of_mask_rs 0x12
  case addi => exact encodeI_of_mask 0x10
  case ori => exact encodeI_of_mask 0x11
  case lw => exact encodeI_of_mask 0x20
  case sw => exact encodeI_of_mask 0x28
  case add => exact encodeR_of_mask 0x08
  case sub => exact encodeR_of_mask 0x09
  case and => exact encodeR_of_mask 0x0A
  case or => exact encodeR_of_mask 0x0B
  case xor => exact encodeR_of_mask 0x0C
  case slt => exact encodeR_of_mask 0x0D

theorem encode_of_decodeWord {w : Word} {i : Instr} (h : decodeWord w = some i) : encode i = w := by
  obtain ⟨r, hfind, rfl⟩ := Option.map_eq_some_iff.1 h
  exact encode_build w r (List.mem_of_find?_eq_some hfind) (by simpa [OpRow.covers] using List.find?_some hfind)

theorem eq_wordBytes_of_decodeBytes {bytes rest : List Byte} {i : Instr} (h : decodeBytes bytes = .ok (i, rest)) :
    bytes = wordBytes (encode i) ++ rest := by
  unfold decodeBytes at h
  split at h
  · next b0 b1 b2 b3 tail =>
    split at h
    · next hd =>
      cases h
      rw [encode_of_decodeWord hd, wordBytes_wordOfBytes]
      rfl
    · cases h
  · cases h

/-- Settles O2: every row builds an instruction that encodes to the word the row covers. -/
theorem encodeDecode : Obligations.EncodeDecode :=
  ⟨fun _ _ => encode_of_decodeWord, fun _ _ _ => eq_wordBytes_of_decodeBytes⟩

/-- Settles O5, by evaluating the decoder on the twelve words. -/
theorem sampleWords : Obligations.SampleWords := by
  unfold Obligations.SampleWords
  decide

/-! ## Ports (R83) -/

/-- Settles O6: the Port of an instruction is the one in its row. -/
theorem ports : Obligations.Ports := by
  intro rd rs rt imm targ nz
  simp only [List.forall_mem_cons]
  exact ⟨⟨rfl, rfl, rfl, rfl, rfl, rfl, by simp⟩, ⟨rfl, rfl, by simp⟩, rfl, rfl, rfl, ⟨rfl, rfl, rfl, by simp⟩⟩

/-! ## Jumps (R76, R85) -/

/-- T0's jump target: the four high bits of the jump's own address, the target field, two zero bits. -/
theorem jumpTarget_t0 (pc : Word) (targ : BitVec 26) :
    jumpTarget t0 pc targ = pc.extractLsb' 28 4 ++ targ ++ 0#2 := by
  apply BitVec.eq_of_getLsbD_eq
  intro i hi
  simp only [jumpTarget, t0, BitVec.getLsbD_or, BitVec.getLsbD_and, BitVec.getLsbD_shiftLeft, BitVec.getLsbD_append,
    BitVec.getLsbD_extractLsb', BitVec.truncate_eq_setWidth, BitVec.getLsbD_setWidth]
  interval_cases i <;> simp

/-- An address is its four high bits, the field that a jump to it has, and its two low bits. -/
theorem addr_fields (a : Word) : a.extractLsb' 28 4 ++ a.extractLsb' 2 26 ++ a.extractLsb' 0 2 = a := by
  apply BitVec.eq_of_getLsbD_eq
  intro i hi
  simp only [BitVec.getLsbD_append, BitVec.getLsbD_extractLsb']
  interval_cases i <;> simp

theorem jumpTarget_of_labelOk {pc label : Word} (h : label.extractLsb' 28 4 = pc.extractLsb' 28 4)
    (hlow : label.extractLsb' 0 2 = 0) : jumpTarget t0 pc (label.extractLsb' 2 26) = label := by
  rw [jumpTarget_t0, ← h]
  conv_rhs => rw [← addr_fields label, hlow]
  rfl

theorem jumpTarget_high (pc : Word) (targ : BitVec 26) :
    (jumpTarget t0 pc targ).extractLsb' 28 4 = pc.extractLsb' 28 4 := by
  rw [jumpTarget_t0]
  apply BitVec.eq_of_getLsbD_eq
  intro i hi
  simp only [BitVec.getLsbD_append, BitVec.getLsbD_extractLsb']
  interval_cases i <;> simp

theorem jumpTarget_mod_four (pc : Word) (targ : BitVec 26) : (jumpTarget t0 pc targ).toNat % 4 = 0 := by
  rw [jumpTarget_t0, BitVec.toNat_append, Nat.shiftLeft_eq]
  simp

theorem low_bits_eq_zero_iff (a : Word) : a.extractLsb' 0 2 = 0 ↔ a.toNat % 4 = 0 := by
  simp [← BitVec.toNat_inj, BitVec.extractLsb'_toNat]

/-- Settles O8: the target of a jump has its own address's high bits and two zero bits, and every such address has the
target field that reaches it. -/
theorem jumpReach : Obligations.JumpReach := by
  intro pc a
  constructor
  · rintro ⟨targ, rfl⟩
    exact ⟨jumpTarget_high pc targ, jumpTarget_mod_four pc targ⟩
  · rintro ⟨hhigh, hlow⟩
    exact ⟨a.extractLsb' 2 26, jumpTarget_of_labelOk hhigh ((low_bits_eq_zero_iff a).2 hlow)⟩

/-! ## Immediates (R80, R85) -/

theorem sextImm_ofInt {imm : Int} (h : simmOk imm = true) : (sextImm (BitVec.ofInt 16 imm)).toInt = imm := by
  simp only [simmOk, Bool.and_eq_true, decide_eq_true_eq] at h
  rw [sextImm, BitVec.toInt_signExtend_of_le (by decide), BitVec.toInt_ofInt]
  exact Int.bmod_eq_of_le (by omega) (by omega)

theorem toNat_ofInt_of_uimmOk {imm : Int} (h : uimmOk imm = true) : ((BitVec.ofInt 16 imm).toNat : Int) = imm := by
  simp only [uimmOk, Bool.and_eq_true, decide_eq_true_eq] at h
  rw [BitVec.toNat_ofInt]
  omega

theorem zextImm_toNat (v : BitVec 16) : (zextImm v).toNat = v.toNat := by
  have := v.isLt
  simp only [zextImm, BitVec.truncate_eq_setWidth, BitVec.toNat_setWidth]
  omega

theorem upperImm_toNat (v : BitVec 16) : (upperImm v).toNat = v.toNat * 65536 := by
  rw [upperImm, BitVec.toNat_append, Nat.shiftLeft_eq]
  simp

/-- Settles O7: a line in range assembles to its own fields, a label in range is put together again by the jump, and an
immediate in range is not changed by the 16 bits it is cut to. -/
theorem assemblerOperands : Obligations.AssemblerOperands := by
  refine ⟨fun pc label h => ?label, fun pc rt rs imm h => ?addi, fun pc rt rs imm h => ?ori, fun pc rt imm h => ?lui,
    fun pc rt rs imm h => ?access⟩
  case label =>
    refine ⟨label.extractLsb' 2 26, by rw [assemble, if_pos h], ?_⟩
    simp only [Asm.wellFormed, labelOk, Bool.and_eq_true, beq_iff_eq] at h
    exact jumpTarget_of_labelOk h.1 h.2
  case addi =>
    refine ⟨BitVec.ofInt 16 imm, by rw [assemble, if_pos h]; rfl, ?_⟩
    simp only [Asm.wellFormed, Bool.and_eq_true] at h
    exact sextImm_ofInt h.2
  case ori =>
    refine ⟨BitVec.ofInt 16 imm, by rw [assemble, if_pos h]; rfl, ?_⟩
    simp only [Asm.wellFormed, Bool.and_eq_true] at h
    rw [zextImm_toNat, toNat_ofInt_of_uimmOk h.2]
  case lui =>
    refine ⟨BitVec.ofInt 16 imm, by rw [assemble, if_pos h]; rfl, ?_⟩
    simp only [Asm.wellFormed, Bool.and_eq_true] at h
    rw [upperImm_toNat, Nat.cast_mul, toNat_ofInt_of_uimmOk h.2]
    rfl
  case access =>
    have hsw : (Asm.sw rt imm rs).wellFormed pc = true := h
    refine ⟨BitVec.ofInt 16 imm, by rw [assemble, if_pos h]; rfl, by rw [assemble, if_pos hsw]; rfl, ?_⟩
    simp only [Asm.wellFormed, Bool.and_eq_true] at h
    exact sextImm_ofInt h.2

end Sys2Proof
end

section
/-! PROOFS. The opcode table T0 is admitted (30_encoding.md R75), and the step on it is the engine's (40_pipeline_engine.md
R100). -/

namespace Sys2Proof.Machine

variable {D : Sizes}

/-! ## What the decoder answers -/

theorem decodeWord_of_t0Lookup {w : Word} {e : Entry .t0} (h : t0Lookup w = .op e) :
    ∃ i, decodeWord w = some i ∧ lookupInstr i = .op e := by
  cases hd : decodeWord w with
  | none => rw [t0Lookup_of_none hd] at h; cases h
  | some i => exact ⟨i, rfl, (t0Lookup_of_some hd).symm.trans h⟩

/-- The record of every instruction is admitted. -/
theorem row_admitted (i : Instr) : Laws.RowAdmitted.Statement i := by
  cases i with
  | nop => exact Laws.RowAdmitted.nop
  | j targ => exact Laws.RowAdmitted.j targ
  | add rd rs rt => exact Laws.RowAdmitted.add rd rs rt
  | sub rd rs rt => exact Laws.RowAdmitted.sub rd rs rt
  | and rd rs rt => exact Laws.RowAdmitted.and rd rs rt
  | or rd rs rt => exact Laws.RowAdmitted.or rd rs rt
  | xor rd rs rt => exact Laws.RowAdmitted.xor rd rs rt
  | slt rd rs rt => exact Laws.RowAdmitted.slt rd rs rt
  | addi rt rs imm => exact Laws.RowAdmitted.addi rt rs imm
  | ori rt rs imm => exact Laws.RowAdmitted.ori rt rs imm
  | lui rt imm => exact Laws.RowAdmitted.lui rt imm
  | lw rt imm rs => exact Laws.RowAdmitted.lw rt imm rs
  | sw rt imm rs => exact Laws.RowAdmitted.sw rt imm rs
  | link x => exact Laws.RowAdmitted.link x
  | syscall => exact Laws.RowAdmitted.syscall

/-! ## What depends on the opcode alone -/

/-- The class and the flags that T0 gives an opcode (30_encoding.md R81, R84). -/
def opcodeFacts : Opcode → FuClass × Flags
  | .nop => (.none, Flags.clear)
  | .lw => (.rdport, flagsLoad)
  | .sw => (.wrport, flagsStore)
  | .syscall => (.none, flagsSyscall)
  | _ => (.ialu, Flags.clear)

theorem row_opcodeFacts {i : Instr} {e : Entry .t0} (h : lookupInstr i = .op e) : (e.fu, e.flags) = opcodeFacts e.op := by
  cases i <;> cases h <;> rfl

/-- An effect that reads operand A belongs to an instruction with a source A. -/
theorem effect_congr_a {i : Instr} {e : Entry .t0} (h : lookupInstr i = .op e) (hA : e.port.srcA = none) (w pc a a' b : Word) :
    t0Effect e.op w pc a b = t0Effect e.op w pc a' b := by
  cases i <;> cases h
  case nop | j | lui | lw | sw | syscall => rfl
  all_goals cases hA

/-- An effect that reads operand B belongs to an instruction with a source B. -/
theorem effect_congr_b {i : Instr} {e : Entry .t0} (h : lookupInstr i = .op e) (hB : e.port.srcB = none) (w pc a b b' : Word) :
    t0Effect e.op w pc a b = t0Effect e.op w pc a b' := by
  cases i <;> cases h
  case nop | j | lui | addi | ori | syscall => rfl
  all_goals cases hB

/-- Settles O9: what the table asks of a word it asks of the instruction the word decodes to. -/
theorem tableAdmitted : Obligations.TableAdmitted where
  wf1 := ⟨rowNop, by decide, rfl⟩
  records w e h := by
    obtain ⟨i, -, hi⟩ := decodeWord_of_t0Lookup h
    exact row_admitted i e hi
  byOpcode w w' e e' h h' hop := by
    obtain ⟨i, -, hi⟩ := decodeWord_of_t0Lookup h
    obtain ⟨i', -, hi'⟩ := decodeWord_of_t0Lookup h'
    exact Prod.mk.inj ((row_opcodeFacts hi).trans ((congrArg opcodeFacts hop).trans (row_opcodeFacts hi').symm))
  wf5A w e h hA pc a a' b := by
    obtain ⟨i, -, hi⟩ := decodeWord_of_t0Lookup h
    exact effect_congr_a hi hA w pc a a' b
  wf5B w e h hB pc a b b' := by
    obtain ⟨i, -, hi⟩ := decodeWord_of_t0Lookup h
    exact effect_congr_b hi hB w pc a b b'
  wf10 := t0_effect_nop
  iStep := by decide
  sys R m w R' m' h h0 := by
    change (if readReg R 2 = 1 then _ else _) = _ at h
    split at h
    · cases h
    · cases h
      exact (readReg_writeReg R 2 Sizes.t0.r0 0).trans ((if_neg (by decide)).trans h0)

/-! ## The step and the engine's cycle -/

/-- An instruction's word in IF/ID is the instruction's own encoding. -/
theorem inDecode_encode {s : State} {i : Instr} (h : s.instr = some i) : s.inDecode (encode i) = s := by
  rw [encode_of_decodeWord h]
  rfl

/-- Every step is a cycle with what the table answers for the word in IF/ID. -/
theorem step_eq_cycleStep (s : State) : step s = cycleStep t0 (t0Lookup s.fd.inst) s := by
  cases hi : s.instr with
  | none => rw [step_of_absent hi, t0Lookup_of_none hi]
  | some i => rw [step_of_instr hi, exec_eq, inDecode_encode hi, t0Lookup_of_some hi]

/-- Settles O15: the dispatch by instruction and the table's lookup by word meet in the decoder. -/
theorem stepIsEngine : Obligations.StepIsEngine := ⟨tableAdmitted, step_eq_cycleStep⟩

theorem cycleStep_of_faulted {C : Config D} {l : Lookup D} {s : State D} {e : FatalError D} (h : s.status = .faulted e) :
    cycleStep C l s = .fault (.faulted e) := by
  rw [cycleStep, h]

/-- Settles O13: the status is looked at before the cycle. -/
theorem stoppedTakesNoCycle : Obligations.StoppedTakesNoCycle := by
  refine fun s i => ⟨fun code h => ?_, fun e h => ?_⟩
  · have hdecode : (s.inDecode (encode i)).status = .halted code := h
    exact ⟨step_of_halted h, by rw [exec_eq, cycleStep_of_halted hdecode]⟩
  · have hdecode : (s.inDecode (encode i)).status = .faulted e := h
    rw [step_eq_cycleStep, exec_eq]
    exact ⟨cycleStep_of_faulted h, cycleStep_of_faulted hdecode⟩

theorem instr_of_decodeBytes {s : State} {i : Instr} (h : decodeBytes (wordBytes s.fd.inst) = .ok (i, [])) :
    s.instr = some i := by
  have hbytes := eq_wordBytes_of_decodeBytes h
  rw [List.append_nil] at hbytes
  have hword : s.fd.inst = encode i := by
    rw [← wordOfBytes_wordBytes s.fd.inst, ← wordOfBytes_wordBytes (encode i)]
    simp only [wordBytes, List.cons.injEq, and_true] at hbytes
    obtain ⟨h0, h1, h2, h3⟩ := hbytes
    rw [h0, h1, h2, h3]
  rw [State.instr, hword, decodeWord_encode]

theorem instr_withFetchWord (s : State) (i : Instr) : (s.withFetchWord 32 (encode i).toNat).instr = some i := by
  have hword : (s.withFetchWord 32 (encode i).toNat).fd.inst = encode i := tableWord_toNat (encode i)
  rw [State.instr, hword, decodeWord_encode]

/-- The meaning of an instruction does not look at the word that was in IF/ID. -/
theorem exec_inDecode (i : Instr) (s : State) (w : Word) : exec i (s.inDecode w) = exec i s := by
  rw [exec_eq, exec_eq]
  rfl

/-- Settles O14: the bytes of the word in IF/ID decode as the word does. -/
theorem stepRunsDecoded : Obligations.StepRunsDecoded := by
  refine ⟨fun s i h => step_of_instr (instr_of_decodeBytes h), fun s i => ?_⟩
  rw [step_of_instr (instr_withFetchWord s i)]
  exact exec_inDecode i s _

end Sys2Proof.Machine
end

section
/-! PROOFS. No-ops in every stage (43_opcode_classes.md R170), the state after reset and its first cycle
(70_reset_and_hazards.md R250, R251). -/

namespace Sys2Proof.Machine

variable {D : Sizes}

/-! ## No-ops stage by stage -/

theorem commit_of_allNone {b : MW D} (h : b.port = Port.allNone) (R : RegFile D) : commit b R = R := by
  rw [commit, h]
  rfl

theorem writeback_of_inv_nop (C : Config D) {s : State D} (hinv : PipelineInv s) (hop : s.mw.op = .nop) :
    writeback C s = .ok () s := by
  obtain ⟨hport, -⟩ := hinv.mwFacts.nop hop
  rw [writeback_of_nop C hop, State.committed, commit_of_allNone hport]
  rfl

theorem dataAccess_of_neither (C : Config D) {s : State D} (hstore : s.em.flags.store = false)
    (hload : s.em.flags.load = false) : dataAccess C s = .ok 0 s := by
  rw [dataAccess, hstore, hload]
  rfl

/-- An entry that is neither a load nor a store passes through Memory. -/
theorem memory_of_neither (C : Config D) {s : State D} (hstore : s.em.flags.store = false)
    (hload : s.em.flags.load = false) : memory C s = .ok () (s.setMw (copyToMw s.em 0)) :=
  memory_eq_ok.2 ⟨0, _, dataAccess_of_neither C hstore hload, rfl⟩

theorem memory_of_nop (C : Config D) {s : State D} (hinv : PipelineInv s) (hop : s.em.op = .nop) :
    memory C s = .ok () (s.setMw ⟨s.em.inst, s.em.pc, .nop, s.em.fu, Flags.clear, Port.allNone, 0, 0⟩) := by
  obtain ⟨hport, hflags⟩ := hinv.emFacts.nop hop
  rw [memory_of_neither C (by rw [hflags]; rfl) (by rw [hflags]; rfl), copyToMw, hop, hflags, hport, hinv.emNop hop]

theorem executed_of_nop {C : Config D} (hC : C.Admitted) {b : DE D} (hb : b.entry.admitted = true) (hop : b.op = .nop) :
    executed C b = ⟨b.inst, b.pc, .nop, b.fu, Flags.clear, Port.allNone, b.a, 0, false⟩ := by
  obtain ⟨hport, hflags⟩ := (admitted_facts hb).nop hop
  have he : executedE C b = 0 := executed_e_of_nop hC.wf10 hop
  change b.port = Port.allNone at hport
  change b.flags = Flags.clear at hflags
  rw [executed, he, hflags, hport, hop]
  rfl

/-- An opcode with no source and no jump enters ID/EX with operands 0. -/
theorem decode_of_noSource (C : Config D) {e : Entry D} {s : State D} (htaken : s.em.taken = false)
    (hport : e.port = Port.allNone) (hop : e.op ≠ .jump) :
    decode C (.op e) s = .ok () (s.setDe (copyToDe s.fd e 0 0)) := by
  refine (decode_op_eq_ok htaken).2 ⟨0, s.setDe (copyToDe s.fd e s.de.a s.de.b), 0,
    s.setDe (copyToDe s.fd e 0 s.de.b), ?_, ?_, (if_neg hop).symm⟩
  · rw [hport]
    rfl
  · rw [hport]
    rfl

/-- Decode of the no-op word (WF1, WF10). -/
theorem decode_of_nopInst {C : Config D} (hC : C.Admitted) {s : State D} (htaken : s.em.taken = false) :
    decode C (C.lookup C.nopInst) s =
      .ok () (s.setDe ⟨s.fd.inst, s.fd.pc, .nop, C.nopFu, Flags.clear, Port.allNone, 0, 0⟩) := by
  obtain ⟨e, hlookup, hop⟩ := hC.wf1
  obtain ⟨hport, hflags⟩ := (admitted_facts (hC.records _ _ hlookup)).nop hop
  have hfu : C.nopFu = e.fu := by rw [Config.nopFu, hlookup]
  rw [hlookup, decode_of_noSource C htaken hport (by simp [hop]), copyToDe, hop, hport, hflags, hfu]

/-- Settles O53, stage by stage, by what an admitted no-op's record is. -/
theorem noOpsDoNothing : Obligations.NoOpsDoNothing := fun _ C _ hC hinv =>
  ⟨writeback_of_inv_nop C hinv, memory_of_nop C hinv, executed_of_nop hC hinv.de, decode_of_nopInst hC hinv.taken⟩

/-! ## The state after reset -/

theorem resetWith_line (C : Config D) (p : Platform D) (i : D.SetIx) (w : D.Way) :
    (State.resetWith C p).line i w = CacheLine.empty := by
  simp [State.line, State.resetWith, CacheSet.empty]

theorem resetWith_cursor (C : Config D) (p : Platform D) (i : D.SetIx) : (State.resetWith C p).cursor i = D.way0 := by
  simp [State.cursor, State.resetWith, CacheSet.empty]

/-- Settles O10, field by field. -/
theorem resetValues : Obligations.ResetValues := by
  refine ⟨fun D C p => ⟨rfl, rfl, rfl, rfl, rfl, rfl, fun i w => ⟨?line, ?cursor⟩, rfl, ?zero, fun r hr => ?other,
    rfl, rfl, rfl⟩, rfl, rfl, by decide⟩
  case line => exact resetWith_line C p i w
  case cursor => rw [resetWith_cursor]; rfl
  case zero => exact (readReg_writeReg p.initRegs D.r0 D.r0 0).trans (if_pos rfl)
  case other => exact (readReg_writeReg p.initRegs D.r0 r 0).trans (if_neg hr)

/-- The record of a bubble is admitted. -/
theorem bubble_admitted (fu : FuClass) : (Entry.mk (D := D) .nop fu Flags.clear Port.allNone).admitted = true := by
  simp [Entry.admitted, Port.dstNotZero, Port.dstDistinct, Flags.exclusive, Entry.dstMOnlyLoad, Entry.jumpBare,
    Entry.syscallBare, Entry.nopBare, Flags.clear, Port.allNone]

theorem resetWith_pipelineInv (C : Config D) (p : Platform D) : PipelineInv (State.resetWith C p) where
  reg0  := (readReg_writeReg p.initRegs D.r0 D.r0 0).trans (if_pos rfl)
  de    := bubble_admitted _
  em    := bubble_admitted _
  mw    := bubble_admitted _
  emNop := fun _ => rfl
  mwNop := fun _ => ⟨rfl, rfl⟩
  taken := rfl

/-- No line is valid after reset. -/
theorem resetWith_memoryInv (C : Config D) {p : Platform D} (hwf : Memory.wf D p.initMem = true) :
    MemoryInv (State.resetWith C p) where
  wf := hwf
  lines :=
    { unique := fun i w w' hv => by rw [resetWith_line] at hv; cases hv
      clean := fun i w _ => by rw [resetWith_line]; rfl }
  coherent := fun i w hv => by rw [resetWith_line] at hv; cases hv

theorem resetWith_pcInv {C : Config D} {p : Platform D} (h : p.entry.toNat % C.iStep.toNat = 0) :
    PcInv C (State.resetWith C p) := ⟨h, h, h⟩

/-- Settles O11: bubbles are admitted no-ops, no line is valid, and every address is `ENTRY`. -/
theorem resetInvariants : Obligations.ResetInvariants :=
  ⟨fun _ C p => ⟨resetWith_pipelineInv C p, resetWith_memoryInv C, resetWith_pcInv⟩,
    resetWith_pipelineInv _ _, resetWith_memoryInv _ rfl, resetWith_pcInv (by decide)⟩

/-! ## The first cycle -/

theorem writeReg_self {R : RegFile D} {r : D.Reg} {v : D.Word} (h : readReg R r = v) : writeReg R r v = R := by
  rw [← h]
  exact Vector.set_getElem_self _

theorem beginCycle_of_zero {s : State D} (h : readReg s.regs D.r0 = 0) :
    beginCycle s = s.setCounters s.counters.tick := by
  rw [beginCycle, writeReg_self h]
  rfl

/-- The state of the first cycle when Fetch is reached: bubbles move on as bubbles. -/
theorem cycle_of_reset {C : Config D} (hC : C.Admitted) (p : Platform D) :
    cycle C (C.lookup C.nopInst) (State.resetWith C p) =
      fetch C ((State.resetWith C p).setCounters ⟨1, 0, 0, 0, 0, 0, 0⟩) := by
  have hinv := resetWith_pipelineInv C p
  have hbegin : beginCycle (State.resetWith C p) = (State.resetWith C p).setCounters ⟨1, 0, 0, 0, 0, 0, 0⟩ :=
    beginCycle_of_zero hinv.reg0
  have hinv' : PipelineInv ((State.resetWith C p).setCounters ⟨1, 0, 0, 0, 0, 0, 0⟩) :=
    ⟨hinv.reg0, hinv.de, hinv.em, hinv.mw, hinv.emNop, hinv.mwNop, hinv.taken⟩
  generalize hs : (State.resetWith C p).setCounters ⟨1, 0, 0, 0, 0, 0, 0⟩ = s at hbegin hinv' ⊢
  have hmemory : memory C s = .ok () s := by
    rw [memory_of_nop C hinv' (by rw [← hs]; rfl), ← hs]
    rfl
  have hexecute : execute C s = s := by
    rw [execute, executed_of_nop hC hinv'.de (by rw [← hs]; rfl), ← hs]
    rfl
  have hdecode : decode C (C.lookup C.nopInst) s = .ok () s := by
    rw [decode_of_nopInst hC hinv'.taken, ← hs]
    rfl
  rw [cycle, beforeDecode, hbegin, writeback_of_inv_nop C hinv' (by rw [← hs]; rfl), bind_ok, hmemory, bind_ok, hexecute,
    bind_ok, hdecode, bind_ok]

theorem firstCycle_anyTable {C : Config D} (hC : C.Admitted) {p : Platform D} (hentry : p.entry.toNat % C.iStep.toNat = 0)
    (hmapped : (State.resetWith C p).instMapped (D.wordAddr p.entry) = true) :
    stepWith C hC (State.resetWith C p) =
      .next (((State.resetWith C p).setCounters ⟨1, 0, 0, 0, 0, 0, 0⟩).fetched C) := by
  have hlookup : (State.resetWith C p).fd.inst = C.nopInst := rfl
  have hstatus : (State.resetWith C p).status = .running := rfl
  rw [stepWith, hlookup, cycleStep_running hstatus, cycle_of_reset hC, fetch_eq, if_pos ⟨hentry, hmapped⟩, final_ok]

/-- Settles O12: the first cycle moves bubbles and fetches, and T0's step is the engine's. -/
theorem firstCycle : Obligations.FirstCycle := by
  refine ⟨fun D C hC p hentry hmapped => firstCycle_anyTable hC hentry hmapped, fun p hentry hmapped => ?_⟩
  obtain ⟨hC, hstep⟩ := stepIsEngine
  rw [hstep, firstCycle_anyTable hC hentry ((instMapped_t0 _ _).trans hmapped), State.fetched, memInst_t0]
  rfl

end Sys2Proof.Machine
end

section
/-! PROOFS. What every cycle keeps, however it ends: PipelineInv stage by stage (10_state.md R11, R20, R22), PcInv (R14) and
the canonical form of the backing store (R28). -/

namespace Sys2Proof.Machine

variable {D : Sizes} {C : Config D} {s t : State D}

/-! ## PipelineInv -/

/-- PipelineInv looks at register 0 and three buffers. -/
theorem PipelineInv.congr (h : PipelineInv s) (hregs : readReg t.regs D.r0 = 0) (hde : t.de = s.de) (hem : t.em = s.em)
    (hmw : t.mw = s.mw) : PipelineInv t where
  reg0  := hregs
  de    := hde ▸ h.de
  em    := hem ▸ h.em
  mw    := hmw ▸ h.mw
  emNop := hem ▸ h.emNop
  mwNop := hmw ▸ h.mwNop
  taken := hem ▸ h.taken

theorem PipelineInv.setStatus (h : PipelineInv s) (x : Status D) : PipelineInv (s.setStatus x) := h.congr h.reg0 rfl rfl rfl

theorem beginCycle_pipelineInv (h : PipelineInv s) : PipelineInv (beginCycle s) :=
  h.congr ((readReg_writeReg s.regs D.r0 D.r0 0).trans (if_pos rfl)) rfl rfl rfl

/-- An admitted entry does not write register 0 (WF2). -/
theorem PipelineInv.commit_zero (h : PipelineInv s) : readReg (commit s.mw s.regs) D.r0 = 0 := by
  rw [readReg_commit, if_neg h.mwFacts.dstM, if_neg h.mwFacts.dstE, h.reg0]

theorem writeback_pipelineInv (hC : C.Admitted) (h : PipelineInv s) : PipelineInv (writeback C s).final := by
  have hcounted : PipelineInv s.counted := h.congr h.commit_zero rfl rfl rfl
  by_cases hop : s.mw.op = .nop
  · rw [writeback_of_nop C hop]
    exact h.congr h.commit_zero rfl rfl rfl
  cases hcall : s.mw.flags.syscall with
  | false =>
    rw [writeback_of_retires C hop hcall]
    exact hcounted
  | true =>
    rw [writeback_of_call C hop hcall]
    cases hr : C.sys (commit s.mw s.regs) s.mem s.mw.inst with
    | exit code => exact hcounted.setStatus _
    | cont R m => exact h.congr (hC.sys _ _ _ _ _ hr h.commit_zero) rfl rfl rfl

/-- A copied entry that is no no-op meets PipelineInv whatever `M` it has; the copy of a no-op has its own. -/
theorem memory_pipelineInv (h : PipelineInv s) : PipelineInv (memory C s).final := by
  by_cases hop : s.em.op = .nop
  · rw [memory_of_nop C h hop, final_ok]
    exact ⟨h.reg0, h.de, h.em, bubble_admitted _, h.emNop, fun _ => ⟨rfl, rfl⟩, h.taken⟩
  · obtain ⟨x, b, hframe, hfinal, hb⟩ := memory_final C s
    have hmw : x.mw = copyToMw s.em s.mw.m := hframe.mw
    have hcopy : ∃ v, b = copyToMw s.em v := by
      rcases hb with rfl | ⟨v, rfl⟩
      · exact ⟨_, hmw⟩
      · exact ⟨v, by rw [hmw]; rfl⟩
    obtain ⟨v, rfl⟩ := hcopy
    have hx : PipelineInv (x.setMw s.mw) :=
      h.congr (by rw [setMw_regs, hframe.regs]; exact h.reg0) hframe.de hframe.em rfl
    rw [hfinal]
    exact ⟨hx.reg0, hx.de, hx.em, h.em, hx.emNop, fun hnop => absurd hnop hop, hx.taken⟩

theorem execute_pipelineInv (hC : C.Admitted) (h : PipelineInv s) : PipelineInv (execute C s) :=
  ⟨h.reg0, h.de, h.de, h.mw, executed_e_of_nop hC.wf10, h.mwNop, rfl⟩

/-- The record in ID/EX while and after an opcode's operands are resolved. -/
theorem fillDe_entry (C : Config D) (e : Entry D) (s : State D) : (fillDe C e s).final.de.entry = e := by
  have hresolve : ∀ (src : Option D.Reg) (x : State D), (resolve C src x).final.de = x.de :=
    fun src x => (resolve_run C src x).frame.de
  unfold fillDe
  refine bind_final (P := fun x => x.de.entry = e) (by rw [hresolve]; rfl) fun a x _ hx => ?_
  exact bind_final (P := fun x => x.de.entry = e) (by rw [hresolve]; exact hx) fun b y _ hy => hy

/-- Decode leaves in ID/EX a bubble, the record of the table's answer, or what was there. -/
theorem decode_entry (C : Config D) (l : Lookup D) (s : State D) :
    (decode C l s).final.de.entry = ⟨.nop, C.nopFu, Flags.clear, Port.allNone⟩ ∨
    (decode C l s).final.de = s.de ∨ l = .op (decode C l s).final.de.entry := by
  unfold decode
  split
  · exact .inl rfl
  · split
    · exact .inr (.inl rfl)
    · exact .inr (.inl rfl)
    · next e =>
      refine .inr (.inr (congrArg Lookup.op ?_))
      refine (bind_final (P := fun x => x.de.entry = e) (fillDe_entry C e s) fun _ x _ hx => ?_).symm
      split <;> exact hx

theorem decode_pipelineInv {l : Lookup D} (hl : ∀ e, l = .op e → e.admitted = true) (h : PipelineInv s) :
    PipelineInv (decode C l s).final := by
  have hframe := decode_frame C l s
  have hde : (decode C l s).final.de.entry.admitted = true := by
    rcases decode_entry C l s with hbubble | hsame | hop
    · rw [hbubble]
      exact bubble_admitted _
    · rw [hsame]
      exact h.de
    · exact hl _ hop
  exact ⟨by rw [hframe.regs]; exact h.reg0, hde, hframe.em ▸ h.em, hframe.mw ▸ h.mw, hframe.em ▸ h.emNop,
    hframe.mw ▸ h.mwNop, hframe.em ▸ h.taken⟩

theorem fetch_pipelineInv (h : PipelineInv s) : PipelineInv (fetch C s).final := by
  obtain ⟨hregs, hde, hem, hmw, -⟩ := fetch_final C s
  exact h.congr (by rw [hregs]; exact h.reg0) hde hem hmw

theorem cycle_pipelineInv (hC : C.Admitted) {l : Lookup D} (hl : ∀ e, l = .op e → e.admitted = true) (h : PipelineInv s) :
    PipelineInv (cycle C l s).final := by
  refine bind_final ?before fun _ x _ hx => bind_final (decode_pipelineInv hl hx) fun _ y _ hy => fetch_pipelineInv hy
  refine bind_final (writeback_pipelineInv hC (beginCycle_pipelineInv h)) fun _ x _ hx => ?_
  exact bind_final (memory_pipelineInv hx) fun _ y _ hy => execute_pipelineInv hC hy

theorem stepWith_pipelineInv (hC : C.Admitted) (h : PipelineInv s) (hstep : stepWith C hC s = .next t) : PipelineInv t := by
  obtain ⟨-, rfl⟩ := running_of_next hstep
  exact cycle_pipelineInv hC (fun e => hC.records _ e) h

theorem step_pipelineInv {s t : State} (h : PipelineInv s) (hstep : step s = .next t) : PipelineInv t := by
  obtain ⟨hC, heq⟩ := stepIsEngine
  exact stepWith_pipelineInv hC h ((heq s).symm.trans hstep)

theorem exec_pipelineInv {i : Instr} {s t : State} (h : PipelineInv s) (hexec : exec i s = .next t) : PipelineInv t := by
  rw [exec_eq] at hexec
  obtain ⟨-, rfl⟩ := running_of_next hexec
  exact cycle_pipelineInv tableAdmitted (row_admitted i) (h.congr h.reg0 rfl rfl rfl)

/-- Settles O50: each stage keeps the invariant, whichever way it ends. -/
theorem pipelineInvKept : Obligations.PipelineInvKept :=
  ⟨fun _ _ hC _ _ => stepWith_pipelineInv hC, fun _ _ => step_pipelineInv⟩

/-! ## PcInv -/

/-- PcInv looks at three addresses. -/
theorem PcInv.congr (h : PcInv C s) (hpc : t.pc = s.pc) (hnpc : t.npc = s.npc) (hfd : t.fd.pc = s.fd.pc) : PcInv C t :=
  ⟨hpc ▸ h.pc, hnpc ▸ h.npc, hfd ▸ h.fd⟩

theorem writeback_pcInv {s : State} (h : PcInv t0 s) : PcInv t0 (writeback t0 (beginCycle s)).final := by
  rw [writeback_t0]
  split <;> exact h.congr rfl rfl rfl

theorem memory_pcInv (h : PcInv C s) : PcInv C (memory C s).final := by
  obtain ⟨x, b, hframe, hfinal, -⟩ := memory_final C s
  rw [hfinal]
  exact h.congr hframe.pc hframe.npc (congrArg FD.pc hframe.fd)

/-- Filling ID/EX leaves the fetch address alone. -/
theorem fillDe_npc (C : Config D) (e : Entry D) (s : State D) : (fillDe C e s).final.npc = s.npc := by
  have hresolve : ∀ (src : Option D.Reg) (x : State D), (resolve C src x).final.npc = x.npc :=
    fun src x => (resolve_run C src x).frame.npc
  unfold fillDe
  refine bind_final (P := fun x => x.npc = s.npc) (by rw [hresolve]; rfl) fun a x _ hx => ?_
  exact bind_final (P := fun x => x.npc = s.npc) (by rw [hresolve]; exact hx) fun b y _ hy => hy

/-- Decode leaves the fetch address alone or makes it a jump target (R114). -/
theorem decode_final_npc (C : Config D) (l : Lookup D) (s : State D) :
    (decode C l s).final.npc = s.npc ∨ ∃ pc targ, (decode C l s).final.npc = jumpTarget C pc targ := by
  unfold decode
  split
  · exact .inl rfl
  · split
    · exact .inl rfl
    · exact .inl rfl
    · next e =>
      refine bind_final (P := fun x => x.npc = s.npc ∨ ∃ pc targ, x.npc = jumpTarget C pc targ)
        (.inl (fillDe_npc C e s)) fun _ x _ hx => ?_
      split
      · exact .inr ⟨_, _, rfl⟩
      · exact hx

theorem decode_pcInv {s : State} (l : Lookup .t0) (h : PcInv t0 s) : PcInv t0 (decode t0 l s).final := by
  have hframe := decode_frame t0 l s
  refine ⟨hframe.pc ▸ h.pc, ?_, hframe.fdPc ▸ h.fd⟩
  rcases decode_final_npc t0 l s with hnpc | ⟨pc, targ, hnpc⟩
  · exact hnpc ▸ h.npc
  · rw [hnpc]
    exact jumpTarget_mod_four pc targ

theorem add_four_mod_four {a : Word} (h : a.toNat % 4 = 0) : (a + 4).toNat % 4 = 0 := by
  rw [BitVec.toNat_add]
  change (a.toNat + 4) % 2 ^ 32 % 4 = 0
  omega

/-- Fetch moves on from the fetch address, and stays at it where it faults. -/
theorem fetch_pcInv {s : State} (h : PcInv t0 s) : PcInv t0 (fetch t0 s).final := by
  rw [fetch_eq]
  split
  · exact ⟨h.npc, add_four_mod_four h.npc, h.npc⟩
  · exact ⟨h.npc, h.npc, h.fd⟩

theorem cycle_pcInv {s : State} (l : Lookup .t0) (h : PcInv t0 s) : PcInv t0 (cycle t0 l s).final := by
  refine bind_final ?before fun _ x _ hx => bind_final (decode_pcInv l hx) fun _ y _ hy => fetch_pcInv hy
  refine bind_final (writeback_pcInv h) fun _ x _ hx => ?_
  exact bind_final (memory_pcInv hx) fun _ y _ hy => hy.congr rfl rfl rfl

/-- Settles O52: the fetch address moves by 4 or to a jump target, which is a multiple of 4. -/
theorem pcInvKept : Obligations.PcInvKept := by
  intro s t h hstep
  rw [step_eq_cycleStep] at hstep
  obtain ⟨-, rfl⟩ := running_of_next hstep
  exact cycle_pcInv _ h

/-! ## Properties of cache and backing store that every statement of a cycle keeps -/

/-- A property of cache and backing store that is kept by each single update a data access makes of them: so it is kept
by an access that a MemoryFault stops half way, too. -/
structure DataInvariant (P : State D → Prop) : Prop where
  congr   : ∀ {s t : State D}, P s → t.cache = s.cache → t.mem = s.mem → P t
  write   : ∀ {s : State D} (wa : D.WordAddr) (v : D.Word), P s → P (s.setMem (setMemWord s.mem wa v))
  cursor  : ∀ {s : State D} (i : D.SetIx) (w : D.Way), P s → P (s.setCursor i w)
  install : ∀ {s : State D} (b : D.WordAddr) (w : D.Way), s.lookup b = none → P s →
    P (s.setLine (D.setOf b) w { s.line (D.setOf b) w with tag := D.tagOf b, dirty := false, valid := true })
  data    : ∀ {s : State D} (i : D.SetIx) (w : D.Way) (k : D.Off) (v : D.Word), P s →
    P (s.setLine i w ((s.line i w).setData k v))
  written : ∀ {s : State D} (wa : D.WordAddr) (w : D.Way) (v : D.Word), s.lookup wa = some w → P s →
    P (s.setLine (D.setOf wa) w ((s.line (D.setOf wa) w).written (D.offOf wa) v))

section
variable {P : State D → Prop} (hP : DataInvariant P)
include hP

theorem DataInvariant.backendWrite (wa : D.WordAddr) (v : D.Word) (h : P s) : P (backendWrite wa v s).final := by
  unfold Machine.backendWrite
  split
  · exact hP.write wa v h
  · exact hP.congr h rfl rfl

theorem DataInvariant.backendRead (wa : D.WordAddr) (h : P s) : P (backendRead wa s).final := by
  unfold Machine.backendRead
  split
  · exact h
  · exact hP.congr h rfl rfl

theorem DataInvariant.evict (L : CacheLine D) (i : D.SetIx) (h : P s) : P (evict L i s).final := by
  unfold Machine.evict
  split
  · split
    · refine bind_final ?_ fun _ x _ hx => hP.congr hx rfl rfl
      exact forEach_final (fun k x hx => hP.backendWrite _ _ hx) _ _ (hP.congr h rfl rfl)
    · exact hP.congr h rfl rfl
  · exact h

end

/-- An eviction writes to the backing store only. -/
theorem evict_cache (L : CacheLine D) (i : D.SetIx) (s : State D) : (evict L i s).final.cache = s.cache := by
  unfold evict
  split
  · split
    · refine bind_final (P := fun x => x.cache = s.cache) ?_ fun _ x _ hx => hx
      refine forEach_final (P := fun x => x.cache = s.cache) (fun k x hx => ?_) _ _ rfl
      unfold backendWrite
      split <;> exact hx
    · rfl
  · rfl

section
variable {P : State D → Prop} (hP : DataInvariant P)
include hP

/-- The line is installed before its words are loaded, so a fill that stops half way leaves an installed line. -/
theorem DataInvariant.fill {b : D.WordAddr} (hmiss : s.lookup b = none) (h : P s) : P (fill b s).final := by
  unfold Machine.fill
  refine bind_final (hP.evict _ _ (hP.cursor _ _ h)) fun _ x hevict hx => ?_
  have hcache : x.cache = (s.setCursor (D.setOf b) (D.nextWay (s.cursor (D.setOf b)))).cache := by
    have h := evict_cache (s.line (D.setOf b) (s.cursor (D.setOf b))) (D.setOf b)
      (s.setCursor (D.setOf b) (D.nextWay (s.cursor (D.setOf b))))
    rwa [hevict] at h
  have hlines : ∀ w, x.line (D.setOf b) w = s.line (D.setOf b) w := fun w => by
    rw [← setCursor_line s (D.setOf b) (D.setOf b) (D.nextWay (s.cursor (D.setOf b))) w, State.line, hcache]
    rfl
  refine forEach_final (fun k y hy => ?_) _ _ (hP.install b _ ((lookup_congr rfl rfl hlines).trans hmiss) hx)
  exact bind_final (hP.backendRead _ hy) fun v z _ hz => hP.data _ _ k v hz

theorem DataInvariant.readWord (C : Config D) (wa : D.WordAddr) (h : P s) : P (readWord C wa s).final := by
  cases hl : s.lookup wa with
  | some w =>
    rw [readWord_of_hit C hl]
    exact hP.congr h rfl rfl
  | none =>
    unfold Machine.readWord
    rw [hl]
    refine bind_final (hP.backendRead wa (hP.congr h rfl rfl)) fun v x hread hx => ?_
    obtain ⟨-, -, rfl⟩ := backendRead_eq_ok.1 hread
    exact bind_final (hP.fill (miss_congr hl (tagOf_lineBase wa) (setOf_lineBase wa)) hx) fun _ y _ hy => hy

theorem DataInvariant.writeWord (C : Config D) (wa : D.WordAddr) (v : D.Word) (h : P s) :
    P (writeWord C wa v s).final := by
  cases hl : s.lookup wa with
  | some w =>
    rw [writeWord_of_hit C v hl]
    exact hP.congr (hP.written wa w v hl h) rfl rfl
  | none =>
    unfold Machine.writeWord
    rw [hl]
    refine bind_final (hP.backendWrite wa v (hP.congr h rfl rfl)) fun _ x hwrite hx => ?_
    obtain ⟨-, rfl⟩ := backendWrite_eq_ok.1 hwrite
    exact hP.fill (miss_congr hl (tagOf_lineBase wa) (setOf_lineBase wa)) hx

theorem DataInvariant.dRead (C : Config D) (ea : D.Addr) (h : P s) : P (dRead C ea s).final := by
  unfold Machine.dRead
  split
  · exact hP.readWord C _ h
  · exact hP.congr h rfl rfl

theorem DataInvariant.dWrite (C : Config D) (ea : D.Addr) (v : D.Word) (h : P s) : P (dWrite C ea v s).final := by
  unfold Machine.dWrite
  split
  · exact hP.writeWord C _ v h
  · exact hP.congr h rfl rfl

theorem DataInvariant.memory (C : Config D) (h : P s) : P (memory C s).final := by
  rw [memory_eq]
  refine bind_final ?_ fun v x _ hx => hP.congr hx rfl rfl
  have h' : P (s.setMw (copyToMw s.em s.mw.m)) := hP.congr h rfl rfl
  unfold dataAccess
  split
  · exact bind_final (hP.dWrite C _ _ h') fun _ x _ hx => hx
  · split
    · exact hP.dRead C _ h'
    · exact h'

theorem DataInvariant.resolve (C : Config D) (src : Option D.Reg) (h : P s) : P (resolve C src s).final := by
  unfold Machine.resolve
  split
  · exact h
  · split
    · exact h
    · split
      · exact hP.dRead C _ h
      · split
        · exact h
        · split <;> exact h

theorem DataInvariant.decode (C : Config D) (l : Lookup D) (h : P s) : P (decode C l s).final := by
  unfold Machine.decode
  split
  · exact hP.congr h rfl rfl
  · split
    · exact hP.congr h rfl rfl
    · exact hP.congr h rfl rfl
    · next e =>
      refine bind_final ?_ fun _ x _ hx => ?_
      · refine bind_final (hP.resolve C _ (hP.congr h rfl rfl)) fun a x _ hx => ?_
        exact bind_final (hP.resolve C _ (hP.congr hx rfl rfl)) fun b y _ hy => hP.congr hy rfl rfl
      · split
        · exact hP.congr hx rfl rfl
        · exact hx

theorem DataInvariant.fetch (C : Config D) (h : P s) : P (fetch C s).final := by
  obtain ⟨-, -, -, -, hcache, -, hmem, -⟩ := fetch_final C s
  exact hP.congr h hcache hmem

/-- What Writeback keeps, the cycle keeps. -/
theorem DataInvariant.cycle (C : Config D) (l : Lookup D) (h : P (writeback C (beginCycle s)).final) :
    P (cycle C l s).final := by
  refine bind_final ?before fun _ x _ hx => bind_final (hP.decode C l hx) fun _ y _ hy => hP.fetch C hy
  exact bind_final h fun _ x _ hx => bind_final (hP.memory C hx) fun _ y _ hy => hP.congr hy rfl rfl

end

/-! ## The canonical form of the backing store -/

theorem wf_dataInvariant (D : Sizes) : DataInvariant fun s : State D => Memory.wf D s.mem = true where
  congr h _ hmem := hmem ▸ h
  write wa v h := setMemWord_wf wa v h
  cursor _ _ h := h
  install _ _ _ h := h
  data _ _ _ _ h := h
  written _ _ _ _ h := h

/-- T0's Writeback leaves cache and backing store alone, even where it exits. -/
theorem writeback_t0_data (s : State) : (writeback t0 (beginCycle s)).final.cache = s.cache ∧
    (writeback t0 (beginCycle s)).final.mem = s.mem := by
  rw [writeback_t0]
  split <;> exact ⟨rfl, rfl⟩

/-- Settles O49: every write of the backing store is a word write, which keeps the canonical form. -/
theorem canonicalMemoryKept : Obligations.CanonicalMemoryKept := by
  intro s t h hstep
  rw [step_eq_cycleStep] at hstep
  obtain ⟨-, rfl⟩ := running_of_next hstep
  refine (wf_dataInvariant .t0).cycle t0 _ ?_
  rw [(writeback_t0_data s).2]
  exact h

end Sys2Proof.Machine
end

section
/-! PROOFS. The cache invariants (10_state.md R25) and the frames of the memory a program sees and of the backing store
(20_memory.md R52; 42_cache.md R161, R162). -/

namespace Sys2Proof.Machine

variable {D : Sizes} {C : Config D} {s t u : State D} {α β : Type}

/-! ## LinesInv, however a cycle ends -/

/-- One line replaced by a line whose tag no other valid line of its set has. -/
theorem LinesInv.setLine (h : LinesInv s) {i : D.SetIx} {w : D.Way} {L : CacheLine D}
    (hunique : L.valid = true → ∀ w', w' ≠ w → (s.line i w').valid = true → (s.line i w').tag ≠ L.tag)
    (hclean : L.valid = false → L.dirty = false) : LinesInv (s.setLine i w L) := by
  refine ⟨fun j x x' => ?_, fun j x => ?_⟩
  · rw [setLine_line, setLine_line]
    split
    · next hx =>
      split
      · next hx' => exact fun _ _ _ => hx.2.trans hx'.2.symm
      · next hx' =>
        intro hL hv ht
        obtain ⟨rfl, rfl⟩ := hx
        exact absurd ht.symm (hunique hL x' (fun e => hx' ⟨rfl, e⟩) hv)
    · next hx =>
      split
      · next hx' =>
        intro hv hL ht
        obtain ⟨rfl, rfl⟩ := hx'
        exact absurd ht (hunique hL x (fun e => hx ⟨rfl, e⟩) hv)
      · exact h.unique j x x'
  · rw [setLine_line]
    split
    · exact hclean
    · exact h.clean j x

/-- One line replaced by a line with the same tag that is valid just when it was. -/
theorem LinesInv.setLine_same (h : LinesInv s) {i : D.SetIx} {w : D.Way} {L : CacheLine D}
    (htag : L.tag = (s.line i w).tag) (hvalid : L.valid = (s.line i w).valid) (hclean : L.valid = false → L.dirty = false) :
    LinesInv (s.setLine i w L) :=
  h.setLine (fun hL w' hne hv ht => hne (h.unique i w' w hv (hvalid ▸ hL) (ht.trans htag))) hclean

theorem linesInv_dataInvariant (D : Sizes) : DataInvariant (LinesInv : State D → Prop) where
  congr {s t} h hcache _ := by
    have hline : ∀ i w, t.line i w = s.line i w := fun i w => by simp only [State.line, hcache]
    refine ⟨fun i w w' => ?_, fun i w => ?_⟩
    · rw [hline, hline]
      exact h.unique i w w'
    · rw [hline]
      exact h.clean i w
  write _ _ h := ⟨h.unique, h.clean⟩
  cursor i w h := by
    refine ⟨fun j x x' => ?_, fun j x => ?_⟩
    · rw [setCursor_line, setCursor_line]
      exact h.unique j x x'
    · rw [setCursor_line]
      exact h.clean j x
  install _ _ hmiss h := h.setLine (fun _ w' _ hv => lookup_eq_none.1 hmiss w' hv) fun _ => rfl
  data i w _ _ h := h.setLine_same rfl rfl (h.clean i w)
  written wa w v hl h :=
    h.setLine_same rfl rfl fun hv => absurd ((lookup_eq_some hl).1.symm.trans hv) (by decide)

theorem writeback_cache (C : Config D) (s : State D) : (writeback C s).final.cache = s.cache := by
  by_cases hop : s.mw.op = .nop
  · rw [writeback_of_nop C hop]
    rfl
  cases hcall : s.mw.flags.syscall with
  | false =>
    rw [writeback_of_retires C hop hcall]
    rfl
  | true =>
    rw [writeback_of_call C hop hcall]
    cases C.sys (commit s.mw s.regs) s.mem s.mw.inst <;> rfl

theorem writeback_mem (hsys : ∀ R m w R' m', C.sys R m w = .cont R' m' → m' = m) (s : State D) :
    (writeback C s).final.mem = s.mem := by
  by_cases hop : s.mw.op = .nop
  · rw [writeback_of_nop C hop]
    rfl
  cases hcall : s.mw.flags.syscall with
  | false =>
    rw [writeback_of_retires C hop hcall]
    rfl
  | true =>
    rw [writeback_of_call C hop hcall]
    cases hr : C.sys (commit s.mw s.regs) s.mem s.mw.inst with
    | exit code => rfl
    | cont R m => exact hsys _ _ _ _ _ hr

/-- A tag is installed only where no valid line of the set has it. -/
theorem cycle_linesInv (l : Lookup D) (h : LinesInv s) : LinesInv (cycle C l s).final := by
  have hbegin : LinesInv (beginCycle s) := ⟨h.unique, h.clean⟩
  have hlines : ∀ i w, (writeback C (beginCycle s)).final.line i w = (beginCycle s).line i w := fun i w => by
    simp only [State.line, writeback_cache]
  refine (linesInv_dataInvariant D).cycle C l ⟨fun i w w' => ?_, fun i w => ?_⟩
  · rw [hlines, hlines]
    exact hbegin.unique i w w'
  · rw [hlines]
    exact hbegin.clean i w

/-! ## Runs that a MemoryFault may cut short -/

/-- The run ends in a state with the property, unless a MemoryFault stopped it. -/
def Run.Leaves (P : State D → Prop) (r : Run D α) : Prop :=
  match r with
  | .ok _ t => P t
  | .stop t => noMemoryFault t → P t

theorem leaves_final {P : State D → Prop} {r : Run D α} (h : r.Leaves P) (hf : noMemoryFault r.final) : P r.final := by
  cases r with
  | ok a t => exact h
  | stop t => exact h hf

theorem leaves_of_final {P : State D → Prop} {r : Run D α} (h : P r.final) : r.Leaves P := by
  cases r with
  | ok a t => exact h
  | stop t => exact fun _ => h

theorem leaves_of_cause {P : State D → Prop} {r : Run D α} (hok : ∀ a t, r = .ok a t → P t)
    (hstop : ∀ t, r = .stop t → MemoryStopped t) : r.Leaves P := by
  cases r with
  | ok a t => exact hok a t rfl
  | stop t =>
    obtain ⟨a, ha⟩ := hstop t rfl
    exact fun hf => absurd ha (hf a _)

theorem Run.Leaves.mono {P Q : State D → Prop} {r : Run D α} (h : r.Leaves P) (hPQ : ∀ t, P t → Q t) : r.Leaves Q := by
  cases r with
  | ok a t => exact hPQ t h
  | stop t => exact fun hf => hPQ t (h hf)

theorem bind_leaves {P Q : State D → Prop} {r : Run D α} {f : α → State D → Run D β} (hr : r.Leaves P)
    (hPQ : ∀ t, P t → Q t) (hf : ∀ a t, P t → (f a t).Leaves Q) : (r.bind f).Leaves Q := by
  cases r with
  | ok a t => exact hf a t hr
  | stop t => exact fun h => hPQ t (hr h)

/-! ## The memory a program sees, and whether the backing store agrees with it -/

/-- The backing store holds the architectural word. -/
def Synced (s : State D) (wa : D.WordAddr) : Prop := memWord s.mem wa = s.archMem wa

/-- The cache invariants hold in `t`, the architectural memory is that of `s`, and the backing store agrees with it
wherever it did in `s`. -/
structure SameMemory (s t : State D) : Prop where
  inv     : MemoryInv t
  archMem : ∀ wa, t.archMem wa = s.archMem wa
  synced  : ∀ wa, Synced s wa → Synced t wa

theorem SameMemory.of_eq (h : MemoryInv s) (hcache : t.cache = s.cache) (hmem : t.mem = s.mem) : SameMemory s t := by
  have harch : ∀ wa, t.archMem wa = s.archMem wa := fun wa => by
    simp only [State.archMem, State.lookup, State.line, hcache, hmem]
  exact ⟨h.congr hcache hmem, harch, fun wa hs => by rw [Synced, hmem, harch]; exact hs⟩

theorem SameMemory.trans (h : SameMemory s t) (k : SameMemory t u) : SameMemory s u :=
  ⟨k.inv, fun wa => (k.archMem wa).trans (h.archMem wa), fun wa hs => k.synced wa (h.synced wa hs)⟩

/-- A fill writes back a line with the words a program sees, and nothing else. -/
theorem filled_synced (h : MemoryInv s) {wa : D.WordAddr} (hmiss : s.lookup wa = none) {wb : D.WordAddr}
    (hs : Synced s wb) : Synced (s.filled (D.lineBase wa)) wb := by
  rw [Synced, filled_archMem h hmiss, filled_mem, setOf_lineBase]
  by_cases hvictim : (s.line (D.setOf wa) (s.cursor (D.setOf wa))).valid = true ∧
      D.tagOf wb = (s.line (D.setOf wa) (s.cursor (D.setOf wa))).tag ∧ D.setOf wb = D.setOf wa
  · obtain ⟨hv, ht, hset⟩ := hvictim
    rw [memWord_evict_self h.wf ht hset hv (h.coherent _ _ hv)]
    rw [← hset] at hv ht ⊢
    exact (archMem_of_line h.lines hv ht.symm).symm
  · rw [memWord_evict_ne s.mem _ _ _ fun hv e => hvictim ⟨hv, e⟩]
    exact hs

theorem readWord_sameMemory {wa : D.WordAddr} {v : D.Word} (h : MemoryInv s) (hread : readWord C wa s = .ok v t) :
    SameMemory s t := by
  obtain ⟨-, hinv, harch⟩ := readWord_archMem h hread
  refine ⟨hinv, harch, fun wb hs => ?_⟩
  rcases readWord_eq_ok.1 hread with ⟨w, -, -, rfl⟩ | ⟨hmiss, -, -, -, -, rfl⟩
  · exact hs
  · exact filled_synced (s := s.setCounters (s.counters.countMiss C.missPenalty)) (h.congr rfl rfl) hmiss hs

/-- A write keeps every other word of the backing store in agreement with the architectural memory. -/
theorem writeWord_synced {wa wb : D.WordAddr} {v : D.Word} {a : Unit} (h : MemoryInv s)
    (hwrite : writeWord C wa v s = .ok a t) (hne : wb ≠ wa) (hs : Synced s wb) : Synced t wb := by
  obtain ⟨-, harch⟩ := writeWord_archMem h hwrite
  rcases writeWord_eq_ok.1 hwrite with ⟨w, hhit, rfl⟩ | ⟨hmiss, -, -, -, rfl⟩
  · rw [Synced, harch, if_neg hne]
    exact hs
  · have hcounted : MemoryInv (s.setCounters (s.counters.countMiss C.missPenalty)) := h.congr rfl rfl
    refine filled_synced (setMem_miss_inv hcounted v hmiss) hmiss ?_
    rw [Synced, archMem_setMem_miss hcounted v hmiss, if_neg hne, setMem_mem]
    exact (memWord_setMemWord_ne s.mem v hne).trans hs

/-! ## Stage by stage -/

/-- What Memory has done: the store in EX/MEM is the one change of the architectural memory. -/
structure StoreMade (s t : State D) : Prop where
  inv     : MemoryInv t
  archMem : ∀ wa, t.archMem wa =
    if s.em.flags.store = true ∧ wa = D.wordAddr (D.effAddr s.em.e) then s.em.a else s.archMem wa
  synced  : ∀ wa, ¬ (s.em.flags.store = true ∧ wa = D.wordAddr (D.effAddr s.em.e)) → Synced s wa → Synced t wa

theorem StoreMade.trans (h : StoreMade s t) (k : SameMemory t u) : StoreMade s u :=
  ⟨k.inv, fun wa => (k.archMem wa).trans (h.archMem wa), fun wa hne hs => k.synced wa (h.synced wa hne hs)⟩

theorem dataAccess_storeMade {v : D.Word} (h : MemoryInv s) (hd : dataAccess C s = .ok v t) : StoreMade s t := by
  obtain ⟨hinv, harch, -⟩ := dataAccess_mem h hd
  refine ⟨hinv, harch, fun wa hne hs => ?_⟩
  unfold dataAccess at hd
  split at hd
  · next hstore =>
    obtain ⟨_, x, hwrite, hx⟩ := bind_eq_ok.1 hd
    cases hx
    exact writeWord_synced h (dWrite_eq_ok.1 hwrite).2 (fun e => hne ⟨hstore, e⟩) hs
  · split at hd
    · exact (readWord_sameMemory h (dRead_eq_ok.1 hd).2).synced wa hs
    · cases hd
      exact hs

theorem memory_leaves (h : MemoryInv s) : (memory C s).Leaves (StoreMade s) := by
  refine leaves_of_cause (fun _ t hok => ?_) fun _ => memory_cause
  obtain ⟨v, x, hd, rfl⟩ := memory_eq_ok.1 hok
  have hcopied : MemoryInv (s.setMw (copyToMw s.em s.mw.m)) := h.congr rfl rfl
  have hx := dataAccess_storeMade hcopied hd
  exact StoreMade.trans ⟨hx.inv, hx.archMem, hx.synced⟩ (.of_eq hx.inv rfl rfl)

theorem resolve_leaves (src : Option D.Reg) (h : MemoryInv s) : (resolve C src s).Leaves (SameMemory s) := by
  refine leaves_of_cause (fun v t hok => ?_) (resolve_run C src s).cause
  obtain ⟨⟨rfl, -⟩ | ⟨r, -, -, -, hread⟩, -⟩ := resolve_eq_ok hok
  · exact .of_eq h rfl rfl
  · exact readWord_sameMemory h (dRead_eq_ok.1 hread).2

theorem fillDe_leaves (e : Entry D) (h : MemoryInv s) : (fillDe C e s).Leaves (SameMemory s) := by
  have hcopied : SameMemory s (s.setDe (copyToDe s.fd e s.de.a s.de.b)) := .of_eq h rfl rfl
  refine bind_leaves (resolve_leaves _ hcopied.inv) (fun _ => hcopied.trans) fun a x hx => ?_
  have hx' : SameMemory s (x.setDe (x.de.setA a)) := (hcopied.trans hx).trans (.of_eq hx.inv rfl rfl)
  refine bind_leaves (resolve_leaves _ hx'.inv) (fun _ => hx'.trans) fun b y hy => ?_
  exact (hx'.trans hy).trans (.of_eq hy.inv rfl rfl)

theorem decode_leaves (l : Lookup D) (h : MemoryInv s) : (decode C l s).Leaves (SameMemory s) := by
  unfold decode
  split
  · exact leaves_of_final (.of_eq h rfl rfl)
  · split
    · exact leaves_of_final (.of_eq h rfl rfl)
    · exact leaves_of_final (.of_eq h rfl rfl)
    · next e =>
      refine bind_leaves (fillDe_leaves e h) (fun _ hx => hx) fun _ x hx => ?_
      split
      · exact hx.trans (.of_eq hx.inv rfl rfl)
      · exact hx

theorem fetch_leaves (h : MemoryInv s) : (fetch C s).Leaves (SameMemory s) := by
  obtain ⟨-, -, -, -, hcache, -, hmem, -⟩ := fetch_final C s
  exact leaves_of_final (.of_eq h hcache hmem)

/-- Decode and Fetch after the stages before them. -/
theorem cycle_leaves {P : State D → Prop} (l : Lookup D) (hP : ∀ x y, P x → SameMemory x y → P y)
    (hinv : ∀ x, P x → MemoryInv x) (h : (beforeDecode C s).Leaves P) : (cycle C l s).Leaves P := by
  refine bind_leaves h (fun _ hx => hx) fun _ x hx => ?_
  refine bind_leaves (decode_leaves l (hinv x hx)) (fun y => hP x y hx) fun _ y hy => ?_
  exact (fetch_leaves hy.inv).mono fun z => hP y z (hP x y hx hy)

/-- The three stages before Decode, where the collaborator leaves the backing store alone. -/
theorem beforeDecode_leaves_memoryInv (hsys : ∀ R m w R' m', C.sys R m w = .cont R' m' → m' = m) (h : MemoryInv s) :
    (beforeDecode C s).Leaves MemoryInv := by
  have hwriteback : MemoryInv (writeback C (beginCycle s)).final :=
    h.congr (writeback_cache C (beginCycle s)) (writeback_mem hsys (beginCycle s))
  refine bind_leaves (leaves_of_final hwriteback) (fun _ hx => hx) fun _ x hx => ?_
  exact bind_leaves (memory_leaves hx) (fun _ hy => hy.inv) fun _ y hy => hy.inv.congr rfl rfl

theorem cycle_memoryInv (hsys : ∀ R m w R' m', C.sys R m w = .cont R' m' → m' = m) (l : Lookup D) (h : MemoryInv s)
    (hf : noMemoryFault (cycle C l s).final) : MemoryInv (cycle C l s).final :=
  leaves_final (cycle_leaves l (fun _ _ _ hxy => hxy.inv) (fun _ hx => hx) (beforeDecode_leaves_memoryInv hsys h)) hf

/-- T0's collaborator leaves the backing store alone. -/
theorem t0_sys_mem (R : RegFile .t0) (m : Memory) (w : Word) (R' : RegFile .t0) (m' : Memory)
    (h : t0.sys R m w = .cont R' m') : m' = m := by
  change (if readReg R 2 = 1 then _ else _) = _ at h
  split at h
  · cases h
  · cases h
    rfl

theorem stepWith_memoryInv (hC : C.Admitted) (h : stepWith C hC s = .next t) : (LinesInv s → LinesInv t) ∧
    ((∀ R m w R' m', C.sys R m w = .cont R' m' → m' = m) → MemoryInv s → noMemoryFault t → MemoryInv t) := by
  obtain ⟨-, rfl⟩ := running_of_next h
  exact ⟨cycle_linesInv _, fun hsys => cycle_memoryInv hsys _⟩

/-- Settles O51: each statement of a cycle keeps LinesInv, and each that completes keeps the rest. -/
theorem memoryInvKept : Obligations.MemoryInvKept := by
  refine ⟨fun _ _ hC _ _ => stepWith_memoryInv hC, fun s t hstep => ?_⟩
  obtain ⟨hC, heq⟩ := stepIsEngine
  obtain ⟨hlines, hmemory⟩ := stepWith_memoryInv hC ((heq s).symm.trans hstep)
  exact ⟨hlines, hmemory t0_sys_mem⟩

/-! ## The frames of a cycle of T0 -/

theorem beforeDecode_storeMade {s : State} (h : MemoryInv s) (hexit : exits s = false) :
    (beforeDecode t0 s).Leaves (StoreMade s) := by
  have hwriteback : MemoryInv s.wroteBack := h.congr rfl rfl
  rw [beforeDecode, writeback_t0, if_neg (by rw [hexit]; decide), bind_ok]
  refine bind_leaves (memory_leaves hwriteback) (fun x hx => ⟨hx.inv, hx.archMem, hx.synced⟩) fun _ x hx => ?_
  exact StoreMade.trans ⟨hx.inv, hx.archMem, hx.synced⟩ (.of_eq hx.inv rfl rfl)

/-- A cycle that no MemoryFault ends does the store in EX/MEM to the memory a program sees, and no more; one that Writeback
stops does not even that. -/
theorem exec_storeMade {i : Instr} {s t : State} (h : MemoryInv s) (hexec : exec i s = .next t) (hf : noMemoryFault t) :
    (exits s = true ∧ SameMemory s t) ∨ (exits s = false ∧ StoreMade s t) := by
  have hdecode : MemoryInv (s.inDecode (encode i)) := h.congr rfl rfl
  rw [exec_eq] at hexec
  obtain ⟨-, rfl⟩ := running_of_next hexec
  cases hexit : exits s with
  | true =>
    rw [cycle_of_exits _ ((exits_inDecode s _).trans hexit)]
    exact .inl ⟨rfl, .of_eq h rfl rfl⟩
  | false =>
    refine .inr ⟨rfl, ?_⟩
    have hbefore := beforeDecode_storeMade hdecode ((exits_inDecode s _).trans hexit)
    have hend := leaves_final
      (cycle_leaves (lookupInstr i) (fun _ _ => StoreMade.trans) (fun _ hx => hx.inv) hbefore) hf
    exact ⟨hend.inv, hend.archMem, hend.synced⟩

/-- Settles O47: fills and evictions move words without changing what a program sees. -/
theorem archMemFrame : Obligations.ArchMemFrame := by
  intro i s t h hexec hf wa
  rcases exec_storeMade h hexec hf with ⟨hexit, hsame⟩ | ⟨hexit, hstore⟩
  · rw [hexit, hsame.archMem]
    simp
  · rw [hexit, hstore.archMem]
    simp

/-! ## Words and bytes -/

/-- No byte is listed beyond the end of the backing store. -/
theorem readByte_of_memBytes_le {m : Memory} (h : Memory.wf D m = true) {a : Nat} (ha : D.memBytes ≤ a) :
    readByte m a = unlistedByte := by
  induction m with
  | nil => rfl
  | cons c m ih =>
    obtain ⟨k, v⟩ := c
    obtain ⟨-, hk, -, hm⟩ := wf_cons.1 h
    rw [readByte, if_neg (by omega), ih hm]

theorem readBytes_lt (m : Memory) (a n : Nat) : readBytes m a n < 2 ^ (8 * n) := by
  induction n generalizing a with
  | zero => simp [readBytes]
  | succ n ih =>
    have hbyte := (readByte m a).isLt
    have hrest := ih (a + 1)
    rw [readBytes, Nat.mul_succ, Nat.pow_add]
    omega

/-- A run of bytes is told by the number it makes. -/
theorem readByte_of_readBytes_eq {m m' : Memory} {a n : Nat} (h : readBytes m' a n = readBytes m a n) {i : Nat} (hi : i < n) :
    readByte m' (a + i) = readByte m (a + i) := by
  induction n generalizing a i with
  | zero => omega
  | succ n ih =>
    rw [readBytes, readBytes] at h
    have hbyte := (readByte m a).isLt
    have hbyte' := (readByte m' a).isLt
    cases i with
    | zero => exact BitVec.eq_of_toNat_eq (by rw [Nat.add_zero]; omega)
    | succ i =>
      have hrest := ih (a := a + 1) (i := i) (by omega) (by omega)
      rwa [Nat.add_right_comm] at hrest

/-- A byte of T0's backing store is told by its word. -/
theorem readByte_of_memWord_eq {m m' : Memory} {wa : Sizes.t0.WordAddr} (h : memWord m' wa = memWord m wa) {a : Nat}
    (ha : a / 4 = wa.toNat) : readByte m' a = readByte m a := by
  have hnum : readBytes m' (4 * wa.toNat) 4 = readBytes m (4 * wa.toNat) 4 := by
    have hto := congrArg BitVec.toNat h
    have hlt := readBytes_lt m (4 * wa.toNat) 4
    have hlt' := readBytes_lt m' (4 * wa.toNat) 4
    simp only [memWord, BitVec.toNat_ofNat] at hto
    change readBytes m' (4 * wa.toNat) 4 % 2 ^ 32 = readBytes m (4 * wa.toNat) 4 % 2 ^ 32 at hto
    omega
  have hbyte := readByte_of_readBytes_eq hnum (i := a % 4) (by omega)
  rwa [show 4 * wa.toNat + a % 4 = a by omega] at hbyte

/-- A word outside the valid dirty lines is in the backing store as a program sees it. -/
theorem synced_of_not_dirty (h : CoherentInv s) {wa : D.WordAddr}
    (hclean : ∀ j w, (s.line j w).valid = true → (s.line j w).dirty = true →
      ∀ k, wa ≠ D.lineWord (D.baseOf (s.line j w).tag j) k) : Synced s wa := by
  unfold Synced State.archMem
  cases hl : s.lookup wa with
  | none => rfl
  | some w =>
    obtain ⟨hv, ht⟩ := lookup_eq_some hl
    have hself : D.lineWord (D.baseOf (s.line (D.setOf wa) w).tag (D.setOf wa)) (D.offOf wa) = wa := by
      rw [ht, lineWord_self]
    cases hd : (s.line (D.setOf wa) w).dirty with
    | true => exact absurd hself.symm (hclean _ _ hv hd _)
    | false =>
      have hdata := h _ _ hv hd (D.offOf wa)
      rw [hself] at hdata
      exact hdata.symm

/-- Settles O48: where the backing store agrees with what a program sees it goes on doing so, and of that only the store's
word changes. -/
theorem backingStoreFrame : Obligations.BackingStoreFrame := by
  intro i s t h hexec hf a hstored hdirty
  have hkept : MemoryInv t ∧ ∀ wa : Sizes.t0.WordAddr, ¬ (s.em.flags.store = true ∧ wa = Sizes.t0.wordAddr s.em.e) →
      t.archMem wa = s.archMem wa ∧ (Synced s wa → Synced t wa) := by
    rcases exec_storeMade h hexec hf with ⟨-, hsame⟩ | ⟨-, hstore⟩
    · exact ⟨hsame.inv, fun wa _ => ⟨hsame.archMem wa, hsame.synced wa⟩⟩
    · exact ⟨hstore.inv, fun wa hne => ⟨(hstore.archMem wa).trans (if_neg hne), hstore.synced wa hne⟩⟩
  obtain ⟨hinv, hword⟩ := hkept
  by_cases ha : a < Sizes.t0.memBytes
  · obtain ⟨wa, hwa⟩ : ∃ wa : Sizes.t0.WordAddr, wa.toNat = a / 4 :=
      ⟨BitVec.ofNat 30 (a / 4), Nat.mod_eq_of_lt (Nat.div_lt_of_lt_mul ha)⟩
    have hne : ¬ (s.em.flags.store = true ∧ wa = Sizes.t0.wordAddr s.em.e) :=
      fun e => hstored ⟨e.1, by rw [← e.2, hwa]⟩
    have hsynced : Synced s wa :=
      synced_of_not_dirty h.coherent fun j w hv hd k e => hdirty j w hv hd k (by rw [← e, hwa])
    obtain ⟨harch, hsync⟩ := hword wa hne
    have heq : memWord t.mem wa = memWord s.mem wa := (hsync hsynced).trans (harch.trans hsynced.symm)
    exact readByte_of_memWord_eq heq hwa.symm
  · rw [readByte_of_memBytes_le hinv.wf (by omega), readByte_of_memBytes_le h.wf (by omega)]

end Sys2Proof.Machine
end

section
/-! PROOFS. Time (70_reset_and_hazards.md R270, R271): what a cycle counts, however it ends, and that no result depends on
it; and the registers a cycle commits (40_pipeline_engine.md R104, R105). -/

namespace Sys2Proof.Machine

variable {D : Sizes} {α β : Type}

/-! ## What is counted (42_cache.md R154 to R162) -/

/-- The counters `d` come from `c` by at most `n` data accesses of T0: each is a hit or a miss, each miss costs 9 cycles and
one memory access, and replaces at most one line and writes it back at most once. -/
structure Accounted (n : Nat) (c d : Counters) : Prop where
  cycles     : d.cycleCount + 9 * c.cacheMissCount = c.cycleCount + 9 * d.cacheMissCount
  accesses   : d.memAccessCount + c.cacheMissCount = c.memAccessCount + d.cacheMissCount
  wbs        : c.cacheWbCount ≤ d.cacheWbCount
  wbs_le     : d.cacheWbCount + c.cacheReplaceCount ≤ c.cacheWbCount + d.cacheReplaceCount
  replace_le : d.cacheReplaceCount + c.cacheMissCount ≤ c.cacheReplaceCount + d.cacheMissCount
  hits       : c.cacheHitCount ≤ d.cacheHitCount
  total      : d.cacheHitCount + d.cacheMissCount ≤ c.cacheHitCount + c.cacheMissCount + n

theorem Accounted.refl (n : Nat) (c : Counters) : Accounted n c c := by
  constructor <;> omega

theorem Accounted.trans {m n : Nat} {c d e : Counters} (h : Accounted m c d) (k : Accounted n d e) :
    Accounted (m + n) c e := by
  obtain ⟨h1, h2, h3, h4, h5, h6, h7⟩ := h
  obtain ⟨k1, k2, k3, k4, k5, k6, k7⟩ := k
  constructor <;> omega

theorem Accounted.countHit (c : Counters) : Accounted 1 c c.countHit := by
  constructor <;> simp only [countHit_cycleCount, countHit_memAccessCount, countHit_cacheHitCount,
    countHit_cacheMissCount, countHit_cacheReplaceCount, countHit_cacheWbCount] <;> omega

/-- What a fill may count: nothing, a replacement, or a replacement with a write-back. -/
def FillCounted (c d : Counters) : Prop := d = c ∨ d = c.countReplace ∨ d = c.countReplace.countWb

theorem Accounted.countMiss {c d : Counters} (h : FillCounted (c.countMiss 9) d) : Accounted 1 c d := by
  rcases h with rfl | rfl | rfl <;> constructor <;>
    simp only [countMiss_cycleCount, countMiss_memAccessCount, countMiss_cacheHitCount, countMiss_cacheMissCount,
      countMiss_cacheReplaceCount, countMiss_cacheWbCount, countReplace_cycleCount, countReplace_memAccessCount,
      countReplace_cacheHitCount, countReplace_cacheMissCount, countReplace_cacheReplaceCount, countReplace_cacheWbCount,
      countWb_cycleCount, countWb_memAccessCount, countWb_cacheHitCount, countWb_cacheMissCount,
      countWb_cacheReplaceCount, countWb_cacheWbCount] <;> omega

theorem backendWrite_counters (wa : D.WordAddr) (v : D.Word) (s : State D) :
    (backendWrite wa v s).final.counters = s.counters := by
  unfold backendWrite
  split <;> rfl

theorem loadLineWord_counters (b : D.WordAddr) (i : D.SetIx) (w : D.Way) (k : D.Off) (s : State D) :
    (loadLineWord b i w k s).final.counters = s.counters := by
  unfold loadLineWord backendRead
  split <;> rfl

/-- A statement for each word of a line counts nothing if each of them counts nothing. -/
theorem forWords_counters {f : D.Off → State D → Run D Unit} (hf : ∀ k s, (f k s).final.counters = s.counters)
    (s : State D) : (forWords f s).final.counters = s.counters :=
  forEach_final (P := fun x => x.counters = s.counters) (fun k x hx => (hf k x).trans hx) _ s rfl

/-- A replacement is counted before the victim is written back and the write-back after it. -/
theorem evict_counted (L : CacheLine D) (i : D.SetIx) (s : State D) : FillCounted s.counters (evict L i s).final.counters := by
  unfold evict
  split
  · split
    · refine bind_final (P := fun x => FillCounted s.counters x.counters) ?_ fun _ x hx _ => ?_
      · rw [writeBackLine, forWords_counters fun k x => backendWrite_counters _ _ x]
        exact .inr (.inl rfl)
      · obtain ⟨-, rfl⟩ := writeBackLine_eq_ok.1 hx
        exact .inr (.inr rfl)
    · exact .inr (.inl rfl)
  · exact .inl rfl

theorem fill_counted (b : D.WordAddr) (s : State D) : FillCounted s.counters (fill b s).final.counters := by
  unfold fill
  refine bind_final (P := fun x => FillCounted s.counters x.counters) (evict_counted _ _ _) fun _ x _ hx => ?_
  rw [forWords_counters fun k y => loadLineWord_counters _ _ _ k y]
  exact hx

/-! ## The accesses of a cycle -/

/-- The run counts at most `n` data accesses, whichever way it ends. -/
def Run.Accounts (n : Nat) (s : State) (r : Run .t0 α) : Prop := Accounted n s.counters r.final.counters

theorem bind_accounts {m n : Nat} {s : State} {r : Run .t0 α} {f : α → State → Run .t0 β} (hr : r.Accounts m s)
    (hf : ∀ a t, (f a t).Accounts n t) : (r.bind f).Accounts (m + n) s := by
  cases r with
  | ok a t => exact Accounted.trans hr (hf a t)
  | stop t => exact Accounted.trans hr (.refl n _)

theorem readWord_accounts (wa : Sizes.t0.WordAddr) (s : State) : (readWord t0 wa s).Accounts 1 s := by
  cases hl : s.lookup wa with
  | some w =>
    rw [readWord_of_hit t0 hl]
    exact .countHit _
  | none =>
    refine .countMiss ?_
    unfold readWord
    rw [hl]
    refine bind_final (P := fun x => FillCounted (s.counters.countMiss 9) x.counters) ?_ fun v x hread _ => ?_
    · unfold backendRead
      split <;> exact .inl rfl
    · obtain ⟨-, -, rfl⟩ := backendRead_eq_ok.1 hread
      exact bind_final (P := fun x => FillCounted (s.counters.countMiss 9) x.counters) (fill_counted _ _) fun _ y _ hy => hy

theorem writeWord_accounts (wa : Sizes.t0.WordAddr) (v : Word) (s : State) : (writeWord t0 wa v s).Accounts 1 s := by
  cases hl : s.lookup wa with
  | some w =>
    rw [writeWord_of_hit t0 v hl]
    exact .countHit _
  | none =>
    refine .countMiss ?_
    unfold writeWord
    rw [hl]
    refine bind_final (P := fun x => FillCounted (s.counters.countMiss 9) x.counters) ?_ fun _ x hwrite _ => ?_
    · exact .inl (backendWrite_counters _ _ _)
    · obtain ⟨-, rfl⟩ := backendWrite_eq_ok.1 hwrite
      exact fill_counted _ _

theorem dRead_accounts (ea : Word) (s : State) : (dRead t0 ea s).Accounts 1 s := by
  unfold dRead
  split
  · exact readWord_accounts _ s
  · exact .refl 1 _

theorem memory_accounts (s : State) : (memory t0 s).Accounts 1 s := by
  rw [memory_eq]
  refine bind_accounts (m := 1) (n := 0) ?_ fun _ t => .refl 0 _
  have hcopied : (s.setMw (copyToMw s.em s.mw.m)).counters = s.counters := rfl
  rw [Run.Accounts, ← hcopied]
  unfold dataAccess
  split
  · refine bind_accounts (m := 1) (n := 0) ?_ fun _ t => .refl 0 _
    unfold dWrite
    split
    · exact writeWord_accounts _ _ _
    · exact .refl 1 _
  · split
    · exact dRead_accounts _ _
    · exact .refl 1 _

theorem resolve_accounts (src : Option Sizes.t0.Reg) (s : State) : (resolve t0 src s).Accounts 1 s := by
  unfold resolve
  split
  · exact .refl 1 _
  · split
    · exact .refl 1 _
    · split
      · exact dRead_accounts _ s
      · split
        · exact .refl 1 _
        · split <;> exact .refl 1 _

theorem fillDe_accounts (e : Entry .t0) (s : State) : (fillDe t0 e s).Accounts 2 s := by
  have hresolve : ∀ src (x : State) b, (resolve t0 src (x.setDe b)).Accounts 1 x := fun src x b =>
    resolve_accounts src (x.setDe b)
  refine bind_accounts (m := 1) (n := 1) (hresolve _ s _) fun a x => ?_
  exact bind_accounts (m := 1) (n := 0) (hresolve _ x _) fun b y => .refl 0 _

theorem decode_accounts (l : Lookup .t0) (s : State) : (decode t0 l s).Accounts 2 s := by
  unfold decode
  split
  · exact .refl 2 _
  · split
    · exact .refl 2 _
    · exact .refl 2 _
    · next e =>
      refine bind_accounts (m := 2) (n := 0) (fillDe_accounts e s) fun _ x => ?_
      split <;> exact .refl 0 _

theorem fetch_accounts (s : State) : (fetch t0 s).Accounts 0 s := by
  obtain ⟨-, -, -, -, -, hcounters, -⟩ := fetch_final t0 s
  rw [Run.Accounts, hcounters]
  exact .refl 0 _

/-- After Writeback a cycle makes at most three accesses: Memory's and one for each operand. -/
theorem cycle_accounted (l : Lookup .t0) (s : State) :
    Accounted 3 (writeback t0 (beginCycle s)).final.counters (cycle t0 l s).final.counters := by
  cases hw : writeback t0 (beginCycle s) with
  | stop x =>
    rw [cycle, beforeDecode_of_writeback_stop hw]
    exact .refl 3 _
  | ok _ x =>
    rw [cycle, beforeDecode, hw, bind_ok]
    refine bind_accounts (m := 1) (n := 2) (s := x) ?_ fun _ y => ?_
    · exact bind_accounts (m := 1) (n := 0) (memory_accounts x) fun _ y => .refl 0 _
    · exact bind_accounts (m := 2) (n := 0) (decode_accounts l y) fun _ z => fetch_accounts z

/-- Before the accesses a cycle counts itself and the entry that retires. -/
theorem writeback_counters (s : State) : (writeback t0 (beginCycle s)).final.counters =
    if retires s.mw then s.counters.tick.countInsn else s.counters.tick := by
  rw [writeback_t0]
  split
  · next hexit =>
    have hretires : retires s.mw = true := by
      rw [exits, callsSys, Bool.and_eq_true, Bool.and_eq_true] at hexit
      obtain ⟨⟨hretires, -⟩, -⟩ := hexit
      exact hretires
    rw [hretires]
    rfl
  · rfl

/-- Settles O16: a cycle counts 1, and then what its accesses count. -/
theorem cycleAccounting : Obligations.CycleAccounting := by
  intro i s t hexec
  rw [exec_eq] at hexec
  obtain ⟨-, rfl⟩ := running_of_next hexec
  obtain ⟨h1, h2, h3, h4, h5, h6, h7⟩ := cycle_accounted (lookupInstr i) (s.inDecode (encode i))
  have hticked : ∀ b : Bool, (if b then s.counters.tick.countInsn else s.counters.tick) =
      { s.counters with
        cycleCount := s.counters.cycleCount + 1
        insnCount := s.counters.insnCount + if b then 1 else 0 } := by
    intro b
    cases b <;> rfl
  rw [writeback_counters, show (s.inDecode (encode i)).counters = s.counters from rfl, hticked] at h1 h2 h3 h4 h5 h6 h7
  exact ⟨h1, h2, h3, h4, h5, h6, h7⟩

/-! ## Nothing depends on the time -/

/-- The state with its counters at 0, which is all of time that a running machine holds. -/
def State.uncounted (s : State D) : State D := s.setCounters Counters.zero

/-- A run without the counters, and without the diagnostic's cycle number if it has stopped. -/
def Run.forgetTime (r : Run D α) : Run D α :=
  match r with
  | .ok a s => .ok a s.uncounted
  | .stop s => .stop s.forgetTime

theorem final_forgetTime {r r' : Run D α} (h : r.forgetTime = r'.forgetTime) :
    r.final.forgetTime = r'.final.forgetTime := by
  cases r with
  | ok a t =>
    cases r' with
    | ok a' t' =>
      have huncounted : t.uncounted.forgetTime = t'.uncounted.forgetTime := congrArg State.forgetTime (Run.ok.inj h).2
      exact huncounted
    | stop t' => cases h
  | stop t =>
    cases r' with
    | ok a' t' => cases h
    | stop t' => exact Run.stop.inj h

/-- A statement that does the same, but for time, whether or not the counters are at 0 when it begins. -/
def Timeless (f : State D → Run D α) : Prop := ∀ s, (f s).forgetTime = (f s.uncounted).forgetTime

theorem Timeless.congr {f : State D → Run D α} (hf : Timeless f) {s s' : State D} (h : s.uncounted = s'.uncounted) :
    (f s).forgetTime = (f s').forgetTime := by
  rw [hf s, hf s', h]

/-- Two runs that end alike but for time go on alike. -/
theorem bind_forgetTime {r r' : Run D α} {f : α → State D → Run D β} (hr : r.forgetTime = r'.forgetTime)
    (hf : ∀ a, Timeless (f a)) : (r.bind f).forgetTime = (r'.bind f).forgetTime := by
  cases r with
  | ok a t =>
    cases r' with
    | ok a' t' =>
      obtain ⟨rfl, ht⟩ := Run.ok.inj hr
      exact (hf a).congr ht
    | stop t' => cases hr
  | stop t =>
    cases r' with
    | ok a' t' => cases hr
    | stop t' => exact congrArg Run.stop (Run.stop.inj hr)

theorem backendRead_timeless (wa : D.WordAddr) : Timeless (backendRead wa) := by
  intro s
  have hmapped : s.uncounted.mapped wa = s.mapped wa := rfl
  unfold backendRead
  rw [hmapped]
  split <;> rfl

theorem backendWrite_timeless (wa : D.WordAddr) (v : D.Word) : Timeless (backendWrite wa v) := by
  intro s
  have hmapped : s.uncounted.mapped wa = s.mapped wa := rfl
  unfold backendWrite
  rw [hmapped]
  split <;> rfl

theorem forEach_timeless {f : α → State D → Run D Unit} (hf : ∀ a, Timeless (f a)) (l : List α) : Timeless (forEach f l) := by
  induction l with
  | nil => exact fun s => rfl
  | cons a l ih => exact fun s => bind_forgetTime (hf a s) fun _ => ih

theorem evict_timeless (L : CacheLine D) (i : D.SetIx) : Timeless (evict L i) := by
  intro s
  unfold evict
  split
  · split
    · exact bind_forgetTime ((forEach_timeless (fun k => backendWrite_timeless _ _) _).congr rfl) fun _ _ => rfl
    · rfl
  · rfl

theorem loadLineWord_timeless (b : D.WordAddr) (i : D.SetIx) (w : D.Way) (k : D.Off) : Timeless (loadLineWord b i w k) :=
  fun s => bind_forgetTime (backendRead_timeless _ s) fun _ _ => rfl

theorem fill_timeless (b : D.WordAddr) : Timeless (fill b) := by
  intro s
  refine bind_forgetTime (r' := evict _ _ (s.uncounted.setCursor _ _)) ((evict_timeless _ _).congr rfl) fun _ t => ?_
  exact (forEach_timeless (fun k => loadLineWord_timeless _ _ _ k) _).congr rfl

theorem readWord_timeless (C : Config D) (wa : D.WordAddr) : Timeless (readWord C wa) := by
  intro s
  have hlookup : s.uncounted.lookup wa = s.lookup wa := rfl
  unfold readWord
  rw [hlookup]
  split
  · rfl
  · refine bind_forgetTime ((backendRead_timeless wa).congr rfl) fun v t => ?_
    exact bind_forgetTime (fill_timeless _ t) fun _ _ => rfl

theorem writeWord_timeless (C : Config D) (wa : D.WordAddr) (v : D.Word) : Timeless (writeWord C wa v) := by
  intro s
  have hlookup : s.uncounted.lookup wa = s.lookup wa := rfl
  unfold writeWord
  rw [hlookup]
  split
  · rfl
  · exact bind_forgetTime ((backendWrite_timeless wa v).congr rfl) fun _ => fill_timeless _

theorem dRead_timeless (C : Config D) (ea : D.Addr) : Timeless (dRead C ea) := by
  intro s
  unfold dRead
  split
  · exact readWord_timeless C _ s
  · rfl

theorem dWrite_timeless (C : Config D) (ea : D.Addr) (v : D.Word) : Timeless (dWrite C ea v) := by
  intro s
  unfold dWrite
  split
  · exact writeWord_timeless C _ v s
  · rfl

theorem writeback_timeless (C : Config D) : Timeless (writeback C) := by
  intro s
  by_cases hop : s.mw.op = .nop
  · rw [writeback_of_nop C hop, writeback_of_nop C (s := s.uncounted) hop]
    rfl
  cases hcall : s.mw.flags.syscall with
  | false =>
    rw [writeback_of_retires C hop hcall, writeback_of_retires C (s := s.uncounted) hop hcall]
    rfl
  | true =>
    rw [writeback_of_call C hop hcall, writeback_of_call C (s := s.uncounted) hop hcall]
    change _ = (answerCall (C.sys (commit s.mw s.regs) s.mem s.mw.inst) s.uncounted.counted).forgetTime
    cases C.sys (commit s.mw s.regs) s.mem s.mw.inst <;> rfl

theorem dataAccess_timeless (C : Config D) : Timeless (dataAccess C) := by
  intro s
  have hem : s.uncounted.em = s.em := rfl
  unfold dataAccess
  rw [hem]
  split
  · exact bind_forgetTime (dWrite_timeless C _ _ s) fun _ _ => rfl
  · split
    · exact dRead_timeless C _ s
    · rfl

theorem memory_timeless (C : Config D) : Timeless (memory C) := by
  intro s
  rw [memory_eq, memory_eq]
  exact bind_forgetTime ((dataAccess_timeless C).congr rfl) fun _ _ => rfl

theorem resolve_timeless (C : Config D) (src : Option D.Reg) : Timeless (resolve C src) := by
  intro s
  have hem : s.uncounted.em = s.em := rfl
  have hmw : s.uncounted.mw = s.mw := rfl
  unfold resolve
  rw [hem, hmw]
  split
  · rfl
  · split
    · rfl
    · split
      · exact dRead_timeless C _ s
      · split
        · rfl
        · split <;> rfl

theorem fillDe_timeless (C : Config D) (e : Entry D) : Timeless (fillDe C e) := by
  intro s
  refine bind_forgetTime ((resolve_timeless C _).congr rfl) fun a t => ?_
  exact bind_forgetTime ((resolve_timeless C _).congr rfl) fun b t => rfl

theorem decode_timeless (C : Config D) (l : Lookup D) : Timeless (decode C l) := by
  intro s
  have hsquashed : squashed s.uncounted = squashed s := rfl
  unfold decode
  rw [hsquashed]
  split
  · rfl
  · split
    · rfl
    · rfl
    · next e =>
      refine bind_forgetTime (fillDe_timeless C e s) fun _ t => ?_
      split <;> rfl

theorem fetch_timeless (C : Config D) : Timeless (fetch C) := by
  intro s
  have hnpc : s.uncounted.npc = s.npc := rfl
  have hmapped : ∀ wa, s.uncounted.instMapped wa = s.instMapped wa := fun _ => rfl
  rw [fetch_eq, fetch_eq, hnpc, hmapped]
  split <;> rfl

theorem cycle_timeless (C : Config D) (l : Lookup D) : Timeless (cycle C l) := by
  intro s
  refine bind_forgetTime ?before fun _ t => bind_forgetTime (decode_timeless C l t) fun _ => fetch_timeless C
  refine bind_forgetTime ((writeback_timeless C).congr rfl) fun _ t => ?_
  exact bind_forgetTime (memory_timeless C t) fun _ _ => rfl

theorem running_of_forgetTime {s s' : State D} (h : s.forgetTime = s'.forgetTime) (hs : s.status = .running) :
    s'.status = .running := by
  have hstatus : s.status.forgetCycle = s'.status.forgetCycle := congrArg State.status h
  rw [hs] at hstatus
  cases hs' : s'.status with
  | running => rfl
  | halted code => rw [hs'] at hstatus; cases hstatus
  | faulted e => rw [hs'] at hstatus; cases hstatus

/-- Two running machines that differ only in time differ only in their counters. -/
theorem uncounted_of_forgetTime {s s' : State D} (h : s.forgetTime = s'.forgetTime) (hs : s.status = .running) :
    s.uncounted = s'.uncounted := by
  have hself : ∀ x : State D, x.uncounted = x.forgetTime.setStatus x.status := fun _ => rfl
  rw [hself s, hself s', h, hs, running_of_forgetTime h hs]

/-- Settles O17: every statement of a cycle is timeless, and so is the choice of the instruction. -/
theorem timeIsNotObserved : Obligations.TimeIsNotObserved := by
  intro s s' hs h
  have hinst : s'.fd.inst = s.fd.inst := (congrArg (fun x : State => (State.fd x).inst) h).symm
  refine ⟨_, _, (step_eq_cycleStep s).trans (cycleStep_running hs),
    (step_eq_cycleStep s').trans (cycleStep_running (running_of_forgetTime h hs)), ?_⟩
  rw [hinst]
  exact final_forgetTime ((cycle_timeless t0 _).congr (uncounted_of_forgetTime h hs))

/-! ## What is committed -/

theorem readReg_writtenBack (s : State) (r : Sizes.t0.Reg) : readReg (writtenBack s) r =
    if callsSys s.mw = true ∧ r = 2 then 0 else readReg (committedRegs s) r := by
  unfold writtenBack
  cases callsSys s.mw with
  | false => simp
  | true => simp [readReg_writeReg]

/-- Settles O19: the registers after a cycle are Writeback's, with the collaborator's write or without it. -/
theorem registerFrame : Obligations.RegisterFrame := by
  intro i s t hexec
  rw [exec_eq] at hexec
  obtain ⟨-, rfl⟩ := running_of_next hexec
  obtain ⟨hregs, hunmapped, hinsn⟩ := cycle_final (lookupInstr i) (s.inDecode (encode i))
  have hmw : (s.inDecode (encode i)).mw = s.mw := rfl
  refine ⟨hunmapped, ?_, fun r => ?_⟩
  · rw [hinsn, hmw]
    by_cases hop : s.mw.op = .nop
    · rw [if_pos hop, (retires_eq_false_iff _).2 hop]
      rfl
    · rw [if_neg hop, (retires_eq_true_iff _).2 hop]
      rfl
  · have hcommitted : readReg (committedRegs s) r = if s.mw.port.dstM = some r then s.mw.m
        else if s.mw.port.dstE = some r then s.mw.e else if r = 0 then 0 else readReg s.regs r :=
      readReg_committedRegs s r
    rw [hregs, exits_inDecode, ← hcommitted]
    change readReg (if exits s then committedRegs s else writtenBack s) r = _
    cases hexit : exits s with
    | true => simp
    | false => simpa using readReg_writtenBack s r

end Sys2Proof.Machine
end

section
/-! PROOFS. When a data access completes, the fetch port (20_memory.md R43, R45 to R47), a repeated read and the round robin
of fills (42_cache.md R163, R165). -/

namespace Sys2Proof.Machine

variable {D : Sizes} {C : Config D}

/-! ## Data accesses that complete -/

/-- Where evictions cannot fault, a read needs the words of its line mapped only if it misses. -/
theorem readWord_completes_iff {s : State D} (hc : cacheMapped s) (wa : D.WordAddr) :
    (∃ x t, readWord C wa s = .ok x t) ↔ (s.lookup wa = none → lineMapped s wa) := by
  cases hl : s.lookup wa with
  | some w => exact ⟨fun _ h => (by cases h), fun _ => ⟨_, _, readWord_of_hit C hl⟩⟩
  | none =>
    constructor
    · rintro ⟨x, t, h⟩ -
      rcases readWord_eq_ok.1 h with ⟨w, hhit, -⟩ | ⟨-, -, -, hline, -⟩
      · cases hl.symm.trans hhit
      · exact hline
    · intro h
      exact ⟨_, _, readWord_eq_ok.2 (.inr ⟨hl, lineMapped_self (h rfl), victimMapped_of_cacheMapped hc _, h rfl, rfl, rfl⟩)⟩

/-- The same of a write. -/
theorem writeWord_completes_iff {s : State D} (hc : cacheMapped s) (wa : D.WordAddr) (v : D.Word) :
    (∃ t, writeWord C wa v s = .ok () t) ↔ (s.lookup wa = none → lineMapped s wa) := by
  cases hl : s.lookup wa with
  | some w => exact ⟨fun _ h => (by cases h), fun _ => ⟨_, writeWord_of_hit C v hl⟩⟩
  | none =>
    constructor
    · rintro ⟨t, h⟩ -
      rcases writeWord_eq_ok.1 h with ⟨w, hhit, -⟩ | ⟨-, -, -, hline, -⟩
      · cases hl.symm.trans hhit
      · exact hline
    · intro h
      exact ⟨_, writeWord_eq_ok.2 (.inr ⟨hl, lineMapped_self (h rfl), victimMapped_of_cacheMapped hc _, h rfl, rfl⟩)⟩

/-- Settles O32: an access is its alignment test and the access of the word. -/
theorem accessCompletes : Obligations.AccessCompletes := by
  intro D C ea v s hc
  simp only [dRead_eq_ok, dWrite_eq_ok, exists_and_left, readWord_completes_iff hc, writeWord_completes_iff hc, and_self]

/-! ## The fetch port (R43) -/

theorem instMapped_iff (s : State D) (wa : D.WordAddr) :
    s.instMapped wa = true ↔ ∀ k < D.instWords, s.mapped (wa + BitVec.ofNat D.waw k) = true := by
  simp [State.instMapped]

theorem memInst_word (m : Memory) (wa : D.WordAddr) {k : Nat} (hk : k < D.instWords) :
    (memInst m wa : D.Inst).extractLsb' (D.w * k) D.w = memWord m (wa + BitVec.ofNat D.waw k) := by
  apply BitVec.eq_of_toNat_eq
  have hlt : memWords m wa D.instWords < 2 ^ D.ilen := by
    rw [D.ilen_eq, Nat.mul_comm]
    exact memWords_lt m wa D.instWords
  rw [BitVec.extractLsb'_toNat, memInst, BitVec.toNat_ofNat, Nat.mod_eq_of_lt hlt, Nat.shiftRight_eq_div_pow,
    memWords_word m wa hk]

/-- An `ISTEP` of whole words makes a multiple of it an aligned address. -/
theorem low_bits_of_iStep (hC : C.Admitted) {a : D.Addr} (h : a.toNat % C.iStep.toNat = 0) : a.extractLsb' 0 D.ol = 0 := by
  have hdvd : 2 ^ D.ol ∣ a.toNat :=
    Nat.dvd_trans (Nat.dvd_of_mod_eq_zero hC.iStep.2) (Nat.dvd_of_mod_eq_zero h)
  have haligned := (aligned_iff a).2 (Nat.mod_eq_zero_of_dvd hdvd)
  simpa [Sizes.aligned] using haligned

theorem iFetch_of_ready {a : D.Addr} {s : State D} (ha : a.toNat % C.iStep.toNat = 0)
    (hm : s.instMapped (D.wordAddr a) = true) : iFetch C a s = .ok (memInst s.mem (D.wordAddr a)) s := by
  rw [iFetch, if_pos ⟨ha, hm⟩]

theorem iFetch_of_not_ready {a : D.Addr} {s : State D}
    (h : ¬ (a.toNat % C.iStep.toNat = 0 ∧ s.instMapped (D.wordAddr a) = true)) :
    iFetch C a s = raiseMemoryFault a s := by
  rw [iFetch, if_neg h]

/-- Settles O38: the port's one test, and the words it joins. -/
theorem instructionFetch : Obligations.InstructionFetch := by
  refine ⟨fun D C a s => ⟨fun h => ?faults, fun ha hm => ?words, fun hC hlow h => hlow (low_bits_of_iStep hC h)⟩,
    fun a s h => ?t0⟩
  case faults =>
    refine iFetch_of_not_ready fun ⟨ha, hm⟩ => ?_
    rcases h with h | ⟨k, hk, h⟩
    · exact h ha
    · rw [(instMapped_iff s _).1 hm k hk] at h
      cases h
  case words => exact ⟨_, iFetch_of_ready ha ((instMapped_iff s _).2 hm), fun k => memInst_word s.mem _⟩
  case t0 =>
    have h' := iFetch_of_ready (C := t0) h.1 ((instMapped_t0 s _).trans h.2)
    rwa [memInst_t0] at h'

/-! ## A repeated read (R165) -/

/-- Settles O45: a read leaves the word present. -/
theorem repeatedRead : Obligations.RepeatedRead := by
  intro D C wa s t v h
  obtain ⟨⟨w, hw⟩, hv⟩ := readWord_present h
  have hdata : (t.line (D.setOf wa) w).data[D.offOf wa] = v := by
    rw [← hv, State.archMem, hw]
  rw [readWord_of_hit C hw, hdata]
  rfl

/-! ## Round robin (R163) -/

/-- A sequence of states, each but the first made from the one before by a fill of the set `i`. -/
structure FillsOf (i : D.SetIx) (b : Nat → D.WordAddr) (s : Nat → State D) (n : Nat) : Prop where
  set  : ∀ k < n, D.setOf (b k) = i
  fill : ∀ k < n, s (k + 1) = (s k).filled (b k)

theorem FillsOf.prev {i : D.SetIx} {b : Nat → D.WordAddr} {s : Nat → State D} {n : Nat} (h : FillsOf i b s (n + 1)) :
    FillsOf i b s n :=
  ⟨fun k hk => h.set k (Nat.lt_succ_of_lt hk), fun k hk => h.fill k (Nat.lt_succ_of_lt hk)⟩

theorem FillsOf.cursor {i : D.SetIx} {b : Nat → D.WordAddr} {s : Nat → State D} {n : Nat} (h : FillsOf i b s n) :
    ((s n).cursor i).val = (((s 0).cursor i).val + n) % D.nways := by
  induction n with
  | zero => exact (Nat.mod_eq_of_lt ((s 0).cursor i).isLt).symm
  | succ n ih =>
    have hlast := filled_cursor_val (s n) (b n)
    rw [h.set n (Nat.lt_succ_self n), ← h.fill n (Nat.lt_succ_self n), ih h.prev, Nat.mod_add_mod] at hlast
    exact hlast

/-- Of fewer fills than there are ways, no two go to the same slot. -/
theorem slot_ne {c k n m : Nat} (hkn : k < n) (hn : n < k + m) : (c + k) % m ≠ (c + n) % m := by
  intro h
  have hdvd := (Nat.modEq_iff_dvd' (by omega : c + k ≤ c + n)).1 h
  have := Nat.le_of_dvd (by omega) hdvd
  omega

/-- The last `NWAYS` fills have kept their lines. -/
theorem FillsOf.line {i : D.SetIx} {b : Nat → D.WordAddr} {s : Nat → State D} {n : Nat} (h : FillsOf i b s n) {k : Nat}
    (hk : k < n) (hn : n ≤ k + D.nways) {w : D.Way} (hw : w.val = (((s 0).cursor i).val + k) % D.nways) :
    ((s n).line i w).valid = true ∧ ((s n).line i w).tag = D.tagOf (b k) := by
  induction n with
  | zero => omega
  | succ n ih =>
    have hset := h.set n (Nat.lt_succ_self n)
    have hline := filled_line (s n) (b n) i w
    rw [hset, ← h.fill n (Nat.lt_succ_self n)] at hline
    rw [hline]
    rcases Nat.lt_or_eq_of_le (Nat.le_of_lt_succ hk) with hlt | rfl
    · have hother : w ≠ (s n).cursor i := fun e =>
        slot_ne (n := n) (m := D.nways) hlt (by omega) (by rw [← hw, e, h.prev.cursor])
      rw [if_neg fun e => hother e.2]
      exact ih h.prev hlt (by omega)
    · rw [if_pos ⟨rfl, Fin.ext (hw.trans h.prev.cursor.symm)⟩]
      exact ⟨rfl, rfl⟩

/-- The victim of a fill after the first `NWAYS` is the line of the fill `NWAYS` before. -/
theorem FillsOf.victim_valid {i : D.SetIx} {b : Nat → D.WordAddr} {s : Nat → State D} {n : Nat} (h : FillsOf i b s n)
    (hn : D.nways ≤ n) : ((s n).line i ((s n).cursor i)).valid = true := by
  have hpos := D.nways_pos
  have hslot : ((s n).cursor i).val = (((s 0).cursor i).val + (n - D.nways)) % D.nways := by
    rw [h.cursor, ← Nat.add_mod_right (_ + (n - D.nways)), Nat.add_assoc, Nat.sub_add_cancel hn]
  exact (h.line (k := n - D.nways) (by omega) (by omega) hslot).1

/-- Settles O46, by induction on the number of fills. -/
theorem roundRobin : Obligations.RoundRobin := by
  intro D b s n hset hfill i c
  have h : FillsOf i b s n := by
    refine ⟨hset, fun k hk => ?_⟩
    obtain ⟨-, -, hfilled⟩ := fill_eq_ok.1 (hfill k hk)
    exact hfilled
  refine ⟨h.cursor, fun k hk hn w => h.line hk hn, fun hn => ?_⟩
  obtain ⟨m, rfl⟩ := Nat.exists_eq_add_of_lt (Nat.zero_lt_of_lt hn)
  rw [Nat.zero_add] at h hn ⊢
  have hvictim := h.prev.victim_valid (by omega)
  rw [h.fill m (Nat.lt_succ_self m), filled_counters, h.set m (Nat.lt_succ_self m), evictCounters_eq, if_pos hvictim]
  rfl

end Sys2Proof.Machine
end

section
/-! PROOFS. The stages of a cycle that completes (40_pipeline_engine.md R106, R113, R118), the instructions that complete
(44_fixture_t0.md R190 to R204), and the MemoryFaults of Memory, Decode and Fetch (60_exceptions.md R221). -/

namespace Sys2Proof.Machine

variable {D : Sizes} {C : Config D}

/-! ## What Memory leaves in MEM/WB -/

/-- A completed read returns the architectural word, whatever the cache holds. -/
theorem readWord_value {wa : D.WordAddr} {s t : State D} {v : D.Word} (h : readWord C wa s = .ok v t) : v = s.archMem wa := by
  cases hl : s.lookup wa with
  | some w =>
    rw [readWord_of_hit C hl] at h
    cases h
    rw [State.archMem, hl]
  | none =>
    rw [archMem_of_miss hl]
    exact (readWord_miss hl h).1

theorem dataAccess_value {s t : State D} {v : D.Word} (h : dataAccess C s = .ok v t) :
    v = if s.em.flags.store = true then 0
      else if s.em.flags.load = true then s.archMem (D.wordAddr (D.effAddr s.em.e)) else 0 := by
  unfold dataAccess at h
  split at h
  · next hstore =>
    obtain ⟨_, x, -, hx⟩ := bind_eq_ok.1 h
    cases hx
    rw [if_pos hstore]
  · next hstore =>
    rw [if_neg hstore]
    split at h
    · next hload =>
      rw [if_pos hload]
      exact readWord_value (dRead_eq_ok.1 h).2
    · next hload =>
      cases h
      rw [if_neg hload]

/-- MEM/WB after a cycle that completes: no stage after Memory writes it. -/
theorem exec_mw {i : Instr} {s t : State} (h : exec i s = .next t) (ht : t.status = .running) :
    t.mw = copyToMw s.em (if s.em.flags.store = true then 0
      else if s.em.flags.load = true then s.archMem (Sizes.t0.wordAddr s.em.e) else 0) := by
  obtain ⟨-, -, x, y, hx, hy, hz⟩ := exec_running h ht
  obtain ⟨-, v, _, hd, hxeq⟩ := beforeDecode_t0_eq_ok.1 hx
  have hMemory : x.mw = copyToMw s.em v := by
    rw [hxeq]
    rfl
  have hDecode := (decode_frame t0 (lookupInstr i) x).mw
  rw [hy] at hDecode
  obtain ⟨-, -, -, hFetch, -⟩ := fetch_final t0 y
  rw [hz] at hFetch
  calc t.mw = y.mw := hFetch
    _ = copyToMw s.em v := hDecode.trans hMemory
    _ = _ := congrArg (copyToMw s.em) (dataAccess_value hd)

/-- Settles O21: Memory copies EX/MEM, and `M` is what its access reads. -/
theorem memoryWritesMw : Obligations.MemoryWritesMw := fun _ _ _ h ht => exec_mw h ht

/-! ## Fetch -/

/-- Fetch has read the backing store at the fetch address. -/
theorem exec_fetched {i : Instr} {s t : State} (h : exec i s = .next t) (ht : t.status = .running) :
    canFetch s (fetchAddr i s) ∧ t.pc = fetchAddr i s ∧ t.npc = fetchAddr i s + 4 ∧
    t.fd = ⟨memWord t.mem (Sizes.t0.wordAddr (fetchAddr i s)), fetchAddr i s, fetchAddr i s + 4⟩ := by
  obtain ⟨-, -, x, y, hx, hy, hz⟩ := exec_running h ht
  obtain ⟨hnpc, hunmapped⟩ := decode_npc hx hy
  rw [fetch_eq] at hz
  split at hz
  · next hready =>
    cases hz
    have hmapped : y.mapped (Sizes.t0.wordAddr y.npc) = s.mapped (Sizes.t0.wordAddr y.npc) := by
      simp only [State.mapped, hunmapped]
    rw [instMapped_t0, hmapped, hnpc] at hready
    refine ⟨hready, hnpc, congrArg (· + 4) hnpc, ?_⟩
    rw [← hnpc, ← memInst_t0]
    rfl
  · cases hz

/-- Settles O30: what Fetch has read and written. -/
theorem fetchAdvances : Obligations.FetchAdvances := by
  intro i s t h ht
  obtain ⟨hfetch, hpc, hnpc, hfd⟩ := exec_fetched h ht
  rw [hpc]
  exact ⟨hfetch, rfl, hnpc, hfd⟩

/-! ## Instructions that complete -/

/-- An instruction completes with the value that its row's effect makes of the two operands. -/
theorem completesWith_of_row {i : Instr} {e : Entry .t0} {value : Word → Word → Word} {s : State}
    (hl : lookupInstr i = .op e) (hvalue : ∀ pc a b, t0Effect e.op (encode i) pc a b = value a b) (hc : canComplete i s) :
    completesWith i e value s := by
  obtain ⟨t, h, ht, hde⟩ := exec_complete hl hc
  refine ⟨t, h, ht, hde, ?_⟩
  rw [hde]
  exact hvalue s.fd.pc _ _

/-- Settles O23: the six have one Port and one fetch address, and the effects of R192 to R197. -/
theorem registerOperationsComplete : Obligations.RegisterOperationsComplete := fun _ _ _ _ hc =>
  ⟨completesWith_of_row rfl (fun _ _ _ => rfl) hc, completesWith_of_row rfl (fun _ _ _ => rfl) hc,
    completesWith_of_row rfl (fun _ _ _ => rfl) hc, completesWith_of_row rfl (fun _ _ _ => rfl) hc,
    completesWith_of_row rfl (fun _ _ _ => rfl) hc, completesWith_of_row rfl (fun _ _ _ => rfl) hc⟩

/-- Settles O24: the effects of R198 to R200 read the immediate back from the instruction's word. -/
theorem immediateOperationsComplete : Obligations.ImmediateOperationsComplete := by
  refine fun rt rs imm s => ⟨fun hc => ⟨?addi, ?ori⟩, fun hc => ?lui⟩
  case addi => exact completesWith_of_row rfl (fun _ a _ => congrArg (effectAddi a) (fieldImm_addi rt rs imm)) hc
  case ori => exact completesWith_of_row rfl (fun _ a _ => congrArg (effectOri a) (fieldImm_ori rt rs imm)) hc
  case lui => exact completesWith_of_row rfl (fun _ _ _ => congrArg effectLui (fieldImm_lui rt imm)) hc

/-- Settles O25: the effects of R201 and R202 are the effective address. -/
theorem loadStoreComplete : Obligations.LoadStoreComplete := fun rt rs imm _ =>
  ⟨completesWith_of_row rfl fun _ _ b => congrArg (effectLw b) (fieldImm_lw rt rs imm),
    completesWith_of_row rfl fun _ _ b => congrArg (effectSw b) (fieldImm_sw rt rs imm)⟩

/-- Settles O26: neither has an operand or a result. -/
theorem nopAndSyscallComplete : Obligations.NopAndSyscallComplete := fun _ hc =>
  ⟨completesWith_of_row rfl (fun _ _ _ => rfl) hc, completesWith_of_row rfl (fun _ _ _ => rfl) hc⟩

/-- Settles O27: a jump completes, and the fetch address of its cycle is its target. -/
theorem jumpCompletes : Obligations.JumpCompletes := by
  intro targ s hc
  refine ⟨completesWith_of_row rfl (fun _ _ _ => rfl) hc, ?_⟩
  obtain ⟨t, h, ht, -⟩ := exec_complete rfl hc
  obtain ⟨-, hpc, hnpc, hfd⟩ := fetchAdvances _ s t h ht
  exact ⟨t, h, ht, hpc, hnpc, hfd⟩

/-! ## MemoryFault in Memory -/

theorem byteAddr_wordAddr {ea : D.Addr} (h : D.aligned ea = true) : D.byteAddr (D.wordAddr ea) = ea := by
  apply BitVec.eq_of_toNat_eq
  rw [byteAddr_toNat, wordAddr_toNat, Nat.mul_div_cancel' (Nat.dvd_of_mod_eq_zero ((aligned_iff ea).1 h))]

/-- A data access that is misaligned, or misses at a word that is not mapped. -/
def accessFaults (s : State D) (ea : D.Addr) : Prop :=
  D.aligned ea = false ∨ (s.lookup (D.wordAddr ea) = none ∧ s.mapped (D.wordAddr ea) = false)

/-- Such an access raises with its own address, and has done no more than count the miss. -/
theorem dRead_faults {s : State D} {ea : D.Addr} (h : accessFaults s ea) :
    ∃ c, dRead C ea s = raiseMemoryFault ea (s.setCounters c) := by
  cases ha : D.aligned ea with
  | false => exact ⟨s.counters, dRead_of_misaligned C s ha⟩
  | true =>
    obtain ⟨hmiss, hunmapped⟩ := h.resolve_left (by simp [ha])
    refine ⟨s.counters.countMiss C.missPenalty, ?_⟩
    rw [dRead, if_pos ha, readWord_of_unmapped C hmiss hunmapped, byteAddr_wordAddr ha]
    rfl

theorem dWrite_faults {s : State D} {ea : D.Addr} (v : D.Word) (h : accessFaults s ea) :
    ∃ c, dWrite C ea v s = raiseMemoryFault ea (s.setCounters c) := by
  cases ha : D.aligned ea with
  | false => exact ⟨s.counters, dWrite_of_misaligned C v s ha⟩
  | true =>
    obtain ⟨hmiss, hunmapped⟩ := h.resolve_left (by simp [ha])
    refine ⟨s.counters.countMiss C.missPenalty, ?_⟩
    rw [dWrite, if_pos ha, writeWord_of_unmapped C v hmiss hunmapped, byteAddr_wordAddr ha]
    rfl

theorem memory_faults {s : State D} (haccess : s.em.flags.load = true ∨ s.em.flags.store = true)
    (h : accessFaults s (D.effAddr s.em.e)) :
    ∃ c, memory C s = raiseMemoryFault (D.effAddr s.em.e) ((s.setMw (copyToMw s.em s.mw.m)).setCounters c) := by
  have h' : accessFaults (s.setMw (copyToMw s.em s.mw.m)) (D.effAddr s.em.e) := h
  rw [memory_eq, dataAccess, setMw_em]
  split
  · obtain ⟨c, hw⟩ := dWrite_faults (C := C) s.em.a h'
    exact ⟨c, by rw [hw, bind_raiseMemoryFault, bind_raiseMemoryFault]⟩
  · next hstore =>
    rw [if_pos (haccess.resolve_right hstore)]
    obtain ⟨c, hr⟩ := dRead_faults (C := C) h'
    exact ⟨c, by rw [hr, bind_raiseMemoryFault]⟩

theorem exec_running_eq (i : Instr) {s : State} (hs : s.status = .running) :
    exec i s = .next (cycle t0 (lookupInstr i) (s.inDecode (encode i))).final := by
  have hs' : (s.inDecode (encode i)).status = .running := hs
  rw [exec_eq, cycleStep_running hs']

/-- Settles O33: Memory raises before it writes anything but MEM/WB and the count of the miss. -/
theorem memoryStageFaults : Obligations.MemoryStageFaults := by
  intro i s hs hexit haccess hfault
  have hexit' : exits (s.inDecode (encode i)) = false := hexit
  obtain ⟨c, hmemory⟩ := memory_faults (C := t0) (s := (s.inDecode (encode i)).wroteBack) haccess
    ((effAddr_t0 s.em.e).symm ▸ hfault : accessFaults s (Sizes.t0.effAddr s.em.e))
  refine ⟨_, exec_running_eq i hs, ?_⟩
  rw [cycle, beforeDecode, writeback_t0, if_neg (by simp [hexit']), bind_ok, hmemory]
  exact ⟨rfl, rfl, rfl, rfl, rfl, rfl, rfl, rfl, rfl⟩

/-! ## MemoryFault in Decode -/

/-- The resolver takes case 2 for the source, as Decode sees EX/MEM. -/
def readsEagerly (s : State D) (src : Option D.Reg) : Prop :=
  src ≠ none ∧ s.em.port.dstE ≠ src ∧ s.em.port.dstM = src

theorem resolve_of_eager {src : Option D.Reg} {s : State D} (h : readsEagerly s src) :
    resolve C src s = dRead C (D.effAddr s.em.e) s := by
  obtain ⟨hsome, hE, hM⟩ := h
  cases src with
  | none => exact absurd rfl hsome
  | some r => simp only [resolve, if_neg hE, if_pos hM]

theorem resolve_of_not_eager {src : Option D.Reg} {s : State D} (h : ¬ readsEagerly s src) :
    ∃ v, resolve C src s = .ok v s := by
  unfold resolve
  split
  · exact ⟨_, rfl⟩
  · next r =>
    split
    · exact ⟨_, rfl⟩
    · next hE =>
      split
      · next hM => exact absurd ⟨by simp, hE, hM⟩ h
      · split
        · exact ⟨_, rfl⟩
        · split <;> exact ⟨_, rfl⟩

/-- An eager read at a misaligned address stops the filling of ID/EX, whichever operand asks for it. -/
theorem fillDe_faults {e : Entry D} {s : State D} (h : readsEagerly s e.port.srcA ∨ readsEagerly s e.port.srcB)
    (ha : D.aligned (D.effAddr s.em.e) = false) :
    ∃ b, fillDe C e s = raiseMemoryFault (D.effAddr s.em.e) (s.setDe b) := by
  have hread : ∀ src b, readsEagerly s src →
      resolve C src (s.setDe b) = raiseMemoryFault (D.effAddr s.em.e) (s.setDe b) := fun src b hsrc =>
    (resolve_of_eager (s := s.setDe b) hsrc).trans (dRead_of_misaligned C _ ha)
  rw [fillDe]
  by_cases hA : readsEagerly s e.port.srcA
  · exact ⟨_, by rw [hread _ _ hA, bind_raiseMemoryFault]⟩
  · obtain ⟨v, hv⟩ := resolve_of_not_eager (C := C) (s := s.setDe (copyToDe s.fd e s.de.a s.de.b)) hA
    refine ⟨(copyToDe s.fd e s.de.a s.de.b).setA v, ?_⟩
    rw [hv, bind_ok]
    exact congrArg (Run.bind · _) (hread _ ((copyToDe s.fd e s.de.a s.de.b).setA v) (h.resolve_left hA))

theorem decode_faults {e : Entry D} {s : State D} (htaken : s.em.taken = false)
    (h : readsEagerly s e.port.srcA ∨ readsEagerly s e.port.srcB) (ha : D.aligned (D.effAddr s.em.e) = false) :
    ∃ b, decode C (.op e) s = raiseMemoryFault (D.effAddr s.em.e) (s.setDe b) := by
  have hsquashed : squashed s = false := htaken
  obtain ⟨b, hfill⟩ := fillDe_faults (C := C) h ha
  refine ⟨b, ?_⟩
  rw [decode, hsquashed, if_neg (by decide), hfill, bind_raiseMemoryFault]

theorem portOf_of_row {i : Instr} {e : Entry .t0} (h : lookupInstr i = .op e) : portOf i = e.port := by
  rw [portOf, h]

/-- Only an instruction that has a row has a source. -/
theorem row_of_source {i : Instr} (h : (portOf i).srcA ≠ none ∨ (portOf i).srcB ≠ none) : ∃ e, lookupInstr i = .op e := by
  cases i
  case link x => exact absurd rfl (h.resolve_left fun hA => hA rfl)
  all_goals exact ⟨_, rfl⟩

/-- Settles O34: the eager read is an access at the address that Execute has just computed. -/
theorem eagerReadFaults : Obligations.EagerReadFaults := by
  intro i s hready heager ha
  obtain ⟨e, hl⟩ := row_of_source (heager.imp (fun h => h.1) fun h => h.1)
  obtain ⟨x, hx, -⟩ := beforeDecode_complete ((readyToDecode_inDecode (encode i)).2 hready)
  obtain ⟨-, hpc, hnpc, -, -, hem, -⟩ := beforeDecode_frame hx
  change x.em = executed t0 s.de at hem
  have hea : Sizes.t0.effAddr x.em.e = executedE t0 s.de := by rw [hem, effAddr_t0]; rfl
  rw [portOf_of_row hl] at heager
  have hreads : ∀ src, eagerRead s src → readsEagerly x src := by
    intro src hsrc
    rw [readsEagerly, hem]
    exact hsrc
  obtain ⟨b, hdecode⟩ := decode_faults (C := t0) (s := x) (e := e) (by rw [hem]; rfl)
    (heager.imp (hreads _) (hreads _)) (by rw [hea]; exact ha)
  refine ⟨_, exec_running_eq i hready.1, ?_⟩
  rw [cycle, hx, bind_ok, hl, hdecode, bind_raiseMemoryFault, hea]
  exact ⟨rfl, hpc, hnpc⟩

/-! ## MemoryFault in Fetch -/

theorem row_of_not_link {i : Instr} (h : ∀ x, i ≠ .link x) : ∃ e, lookupInstr i = .op e := by
  cases i
  case link x => exact absurd rfl (h x)
  all_goals exact ⟨_, rfl⟩

/-- Settles O35: Fetch raises after Decode has filled ID/EX and decided the fetch address. -/
theorem fetchFaults : Obligations.FetchFaults := by
  intro i s hlink hready hA hB hfetch
  obtain ⟨e, hl⟩ := row_of_not_link hlink
  rw [portOf_of_row hl] at hA hB
  obtain ⟨x, hx, hcx⟩ := beforeDecode_complete ((readyToDecode_inDecode (encode i)).2 hready)
  obtain ⟨y, hy, -⟩ := decode_complete hx hcx hA hB
  obtain ⟨hnpc, hunmapped⟩ := decode_npc hx (hl ▸ hy)
  obtain ⟨-, -, -, hfd, -, hem, -⟩ := beforeDecode_frame hx
  have hde := decode_operands (by rw [hem]; rfl) hy
  rw [hfd] at hde
  have hnot : ¬ (y.npc.toNat % t0.iStep.toNat = 0 ∧ y.instMapped (Sizes.t0.wordAddr y.npc) = true) := by
    rw [instMapped_t0, hnpc]
    have hmapped : y.mapped (Sizes.t0.wordAddr (fetchAddr i s)) = s.mapped (Sizes.t0.wordAddr (fetchAddr i s)) := by
      simp only [State.mapped, hunmapped]
    rw [hmapped]
    exact hfetch
  refine ⟨_, exec_running_eq i hready.1, ?_⟩
  rw [cycle, hx, bind_ok, hl, hy, bind_ok, fetch_eq, if_neg hnot, hnpc]
  exact ⟨rfl, rfl, hnpc, congrArg DE.inst hde, congrArg DE.pc hde⟩

/-! ## What a MemoryFault leaves -/

theorem memoryFault_of_cycleStep {l : Lookup .t0} {s t : State} {a : Word} {c : Nat} (h : cycleStep t0 l s = .next t)
    (ht : t.status = .faulted (.memoryFault a c)) :
    s.status = .running ∧ exits s = false ∧ c = t.counters.cycleCount ∧ t.regs = writtenBack s := by
  obtain ⟨hs, hfinal⟩ := running_of_next h
  have hexit : exits s = false := by
    cases hexit : exits s with
    | false => rfl
    | true =>
      rw [cycle_of_exits l hexit] at hfinal
      rw [hfinal] at ht
      cases ht
  have hcount : c = t.counters.cycleCount := by
    rcases cycleStep_status h with hst | ⟨-, hst⟩ | ⟨_, hst⟩ | ⟨-, hst⟩ | ⟨-, hst⟩
    all_goals cases ht.symm.trans hst
    rfl
  obtain ⟨hregs, -⟩ := cycle_final l s
  rw [hexit, ← hfinal] at hregs
  exact ⟨hs, hexit, hcount, hregs⟩

/-- Settles O36: of the ways a cycle can end, the one with this status. -/
theorem memoryFaultRecords : Obligations.MemoryFaultRecords := by
  intro s t a c h ht
  rw [step_eq_cycleStep] at h
  obtain ⟨hs, hexit, hcount, hregs⟩ := memoryFault_of_cycleStep h ht
  exact ⟨hs, hexit, hcount, hregs, by rw [step_eq_cycleStep, cycleStep_of_faulted ht]⟩

end Sys2Proof.Machine
end

section
/-! PROOFS. The pipeline against the sequential machine (41_forwarding.md R140 to R146; 70_reset_and_hazards.md R260, R261):
eager reads, exact forwarding, the refinement step, and what an instruction and a system call have done when they retire. -/

namespace Sys2Proof.Machine

/-! ## A cycle that completes, buffer by buffer -/

/-- ID/EX after a cycle that completes: the record of the instruction and its operands. -/
theorem exec_de {i : Instr} {s t : State} (h : exec i s = .next t) (ht : t.status = .running) :
    ∃ e, lookupInstr i = .op e ∧ t.de =
      ⟨encode i, s.fd.pc, e.op, e.fu, e.flags, e.port, operandIn t e.port.srcA, operandIn t e.port.srcB⟩ := by
  obtain ⟨-, -, x, y, hx, hy, hz⟩ := exec_running h ht
  obtain ⟨-, -, -, hfd, -⟩ := beforeDecode_frame hx
  have htaken := taken_of_beforeDecode hx
  cases hl : lookupInstr i with
  | absent => exact absurd hl (lookupInstr_ne_absent i)
  | link =>
    rw [hl, decode_of_link t0 htaken] at hy
    exact absurd hy (raise_ne_ok _ _ _ _)
  | op e =>
    rw [hl] at hy
    have hde := decode_operands htaken hy
    obtain ⟨-, -, harch⟩ := fetch_mem hz
    have hfetch := fetch_final t0 y
    rw [hz] at hfetch
    obtain ⟨hregs, hde', hem, hmw, -⟩ := hfetch
    have hoperand : ∀ src, operandIn t src = operandIn y src := fun src =>
      operandIn_congr hregs hem hmw fun _ _ _ _ => harch _
    refine ⟨e, rfl, ?_⟩
    rw [hoperand, hoperand]
    exact (hde'.trans hde).trans (by rw [hfd]; rfl)

/-- The registers after a cycle that completes are those of its Writeback. -/
theorem exec_regs {i : Instr} {s t : State} (h : exec i s = .next t) (ht : t.status = .running) : t.regs = writtenBack s := by
  obtain ⟨-, hexit, -⟩ := exec_running h ht
  rw [exec_eq] at h
  obtain ⟨-, rfl⟩ := running_of_next h
  obtain ⟨hregs, -⟩ := cycle_final (lookupInstr i) (s.inDecode (encode i))
  rwa [exits_inDecode, hexit] at hregs

theorem running_of_step {s t : State} (h : step s = .next t) : s.status = .running := by
  rw [step_eq_cycleStep] at h
  exact (running_of_next h).1

/-- A step that leaves the machine running has run an instruction. -/
theorem step_running {s t : State} (h : step s = .next t) (ht : t.status = .running) : ∃ i, exec i s = .next t := by
  cases hi : s.instr with
  | some i => exact ⟨i, (step_of_instr hi).symm.trans h⟩
  | none =>
    rw [step_of_absent hi] at h
    obtain ⟨-, rfl⟩ := running_of_next h
    obtain ⟨x, y, hx, hy, -⟩ := cycle_running (outcome_eq_next _) ht
    rw [decode_of_absent t0 (taken_of_beforeDecode hx)] at hy
    exact absurd hy (raise_ne_ok _ _ _ _)

/-- The same of a step, with the invariants. -/
theorem step_ran {s t : State} (hinv : MemoryInv s) (h : step s = .next t) (ht : t.status = .running) : Ran s t := by
  obtain ⟨i, hi⟩ := step_running h ht
  exact exec_ran hinv hi ht

/-- A load into a register is a load and no store (WF4). -/
theorem AdmittedFacts.load_of_dstM {D : Sizes} {op : Opcode} {f : Flags} {p : Port D} (h : AdmittedFacts op f p) {r : D.Reg}
    (hr : p.dstM = some r) : f.load = true ∧ f.store = false :=
  ⟨h.dstLoad r hr, h.load (h.dstLoad r hr)⟩

/-! ## Eager reads (R142; 42_cache.md R165) -/

/-- An operand that is read eagerly is the architectural word at the load's address. -/
theorem operandIn_of_eager {D : Sizes} {t : State D} {src : Option D.Reg} (h : readsEagerly t src) :
    operandIn t src = t.archMem (D.wordAddr (D.effAddr t.em.e)) := by
  obtain ⟨hsome, hE, hM⟩ := h
  cases src with
  | none => exact absurd rfl hsome
  | some r => simp only [operandIn, if_neg hE, if_pos hM]

theorem resolve_present {D : Sizes} {C : Config D} {src : Option D.Reg} {s t : State D} {v : D.Word} (h : readsEagerly s src)
    (hr : resolve C src s = .ok v t) : ∃ w, t.lookup (D.wordAddr (D.effAddr s.em.e)) = some w := by
  rw [resolve_of_eager h] at hr
  exact (readWord_present (dRead_eq_ok.1 hr).2).1

/-- After an eager read for either operand the word is in the cache when Decode is done. -/
theorem decode_present {D : Sizes} {C : Config D} {e : Entry D} {s t : State D} (htaken : s.em.taken = false)
    (h : readsEagerly s e.port.srcA ∨ readsEagerly s e.port.srcB) (hd : decode C (.op e) s = .ok () t) :
    ∃ w, t.lookup (D.wordAddr (D.effAddr s.em.e)) = some w := by
  obtain ⟨a, x, b, y, hA, hB, rfl⟩ := (decode_op_eq_ok htaken).1 hd
  have hem : x.em = s.em := by
    have hframe := (resolve_run C e.port.srcA (s.setDe (copyToDe s.fd e s.de.a s.de.b))).frame.em
    rwa [hA] at hframe
  have hiff : readsEagerly (x.setDe (copyToDe s.fd e a s.de.b)) e.port.srcB ↔ readsEagerly s e.port.srcB := by
    rw [readsEagerly, readsEagerly, setDe_em, hem]
  have hy : ∃ w, y.lookup (D.wordAddr (D.effAddr s.em.e)) = some w := by
    by_cases heager : readsEagerly s e.port.srcB
    · have hpresent := resolve_present (hiff.2 heager) hB
      rwa [setDe_em, hem] at hpresent
    · obtain ⟨v, hv⟩ := resolve_of_not_eager (C := C) (mt hiff.1 heager)
      cases hv.symm.trans hB
      have hx : ∃ w, x.lookup (D.wordAddr (D.effAddr s.em.e)) = some w :=
        resolve_present (s := s.setDe (copyToDe s.fd e s.de.a s.de.b)) (h.resolve_right heager) hA
      exact hx
  split <;> exact hy

theorem wroteBack_hits (s : State) : s.wroteBack.counters.cacheHitCount = s.counters.cacheHitCount := by
  rw [State.wroteBack]
  cases retires s.mw <;> rfl

/-- A load in EX/MEM whose word is in the cache counts a hit. -/
theorem beforeDecode_hit {s x : State} (hload : s.em.flags.load = true) (hstore : s.em.flags.store = false) {w : Sizes.t0.Way}
    (hw : s.lookup (Sizes.t0.wordAddr s.em.e) = some w) (h : beforeDecode t0 s = .ok () x) :
    x.counters.cacheHitCount = s.counters.cacheHitCount + 1 := by
  obtain ⟨-, v, y, hd, rfl⟩ := beforeDecode_t0_eq_ok.1 h
  have hcopied : (s.wroteBack.setMw (copyToMw s.em s.mw.m)).em = s.em := rfl
  rw [dataAccess, hcopied, hstore, hload] at hd
  change dRead t0 (Sizes.t0.effAddr s.em.e) (s.wroteBack.setMw (copyToMw s.em s.mw.m)) = .ok v y at hd
  rw [effAddr_t0] at hd
  have hread := (dRead_eq_ok.1 hd).2
  rw [readWord_of_hit t0 (s := s.wroteBack.setMw (copyToMw s.em s.mw.m)) hw] at hread
  cases hread
  exact congrArg (· + 1) (wroteBack_hits s)

/-- The stages from Decode on do not take a hit back. -/
theorem exec_hits {i : Instr} {s t : State} (h : exec i s = .next t) (ht : t.status = .running) :
    ∃ x, beforeDecode t0 (s.inDecode (encode i)) = .ok () x ∧ x.counters.cacheHitCount ≤ t.counters.cacheHitCount := by
  obtain ⟨-, -, x, y, hx, hy, hz⟩ := exec_running h ht
  have hDecode := (decode_accounts (lookupInstr i) x).hits
  have hFetch := (fetch_accounts y).hits
  rw [hy] at hDecode
  rw [hz] at hFetch
  exact ⟨x, hx, Nat.le_trans hDecode hFetch⟩

/-- The word of an eager read is in the cache when the cycle is over. -/
theorem exec_present {i : Instr} {s t : State} (h : exec i s = .next t) (ht : t.status = .running)
    (heager : readsEagerly t (portOf i).srcA ∨ readsEagerly t (portOf i).srcB) :
    ∃ w, t.lookup (Sizes.t0.wordAddr t.em.e) = some w := by
  obtain ⟨e, hl, -⟩ := exec_de h ht
  obtain ⟨-, -, x, y, hx, hy, hz⟩ := exec_running h ht
  have hem : t.em = x.em := by
    obtain ⟨-, -, -, -, -, hx', -⟩ := beforeDecode_frame hx
    exact (exec_em h ht).trans hx'.symm
  have hcache : t.cache = y.cache := (fetch_mem hz).1
  rw [portOf_of_row hl, readsEagerly, readsEagerly, hem] at heager
  rw [hl] at hy
  obtain ⟨w, hw⟩ := decode_present (taken_of_beforeDecode hx) heager hy
  refine ⟨w, ?_⟩
  rw [State.lookup, hcache, hem, ← effAddr_t0 x.em.e]
  exact hw

/-- Settles O55: the eager read leaves its word in the cache, and nothing stands between it and the load's own read. -/
theorem eagerReadIsTheLoad : Obligations.EagerReadIsTheLoad := by
  intro i s t u hinv hexec hstep hu
  have ht := running_of_step hstep
  obtain ⟨i', hexec'⟩ := step_running hstep hu
  have hem : t.em = executed t0 s.de := exec_em hexec ht
  have hreads : ∀ src, eagerRead s src → readsEagerly t src := fun src h => by rw [readsEagerly, hem]; exact h
  have hload : ∀ src, eagerRead s src → t.em.flags.load = true ∧ t.em.flags.store = false := by
    rintro src ⟨hsome, -, hM⟩
    rw [hem]
    obtain ⟨r, rfl⟩ := Option.ne_none_iff_exists'.1 hsome
    exact hinv.deFacts.load_of_dstM hM
  have hword : ∀ src, eagerRead s src → u.mw.m = operandIn t src := by
    intro src h
    obtain ⟨hl, hs⟩ := hload src h
    rw [operandIn_of_eager (hreads src h), exec_mw hexec' hu, hs, hl, effAddr_t0]
    rfl
  obtain ⟨e, hrow, hde⟩ := exec_de hexec ht
  refine ⟨fun hA => ?_, fun hB => ?_, fun h => ?_⟩
  · rw [hword _ hA, hde, portOf_of_row hrow]
  · rw [hword _ hB, hde, portOf_of_row hrow]
  · obtain ⟨hl, hs⟩ := h.elim (hload _) (hload _)
    obtain ⟨w, hw⟩ := exec_present hexec ht (h.imp (hreads _) (hreads _))
    obtain ⟨x, hx, hle⟩ := exec_hits hexec' hu
    have hhit := beforeDecode_hit (s := t.inDecode (encode i')) hl hs hw hx
    rw [hhit] at hle
    exact hle

/-! ## Forwarding is exact (R140) -/

/-- The operand of a register is its pending value: the resolver takes the youngest entry that writes it. -/
theorem operandIn_eq_pending {s t : State} (hinv : PipelineInv s) (h : Ran s t) (r : Sizes.t0.Reg) :
    operandIn t (some r) = (pending s).get r := by
  have hE : t.em.port.dstE = s.de.port.dstE := by rw [h.em]; rfl
  have hM : t.em.port.dstM = s.de.port.dstM := by rw [h.em]; rfl
  have he : t.em.e = executedE t0 s.de := by rw [h.em]; rfl
  have hE' : t.mw.port.dstE = s.em.port.dstE := by rw [h.mw]; rfl
  have hM' : t.mw.port.dstM = s.em.port.dstM := by rw [h.mw]; rfl
  have he' : t.mw.e = s.em.e := by rw [h.mw]; rfl
  rw [pending_get]
  simp only [operandIn, hE, hM, he, hE', hM', he', h.regs, effAddr_t0, h.archMem]
  by_cases hdeE : s.de.port.dstE = some r
  · rw [if_pos hdeE, if_neg (hinv.deFacts.differ r hdeE), if_pos hdeE]
  rw [if_neg hdeE]
  by_cases hdeM : s.de.port.dstM = some r
  · rw [if_pos hdeM, if_pos hdeM]
  rw [if_neg hdeM, if_neg hdeM, if_neg hdeE]
  by_cases hemE : s.em.port.dstE = some r
  · rw [if_pos hemE, if_neg (hinv.emFacts.differ r hemE), if_pos hemE]
  rw [if_neg hemE]
  by_cases hemM : s.em.port.dstM = some r
  · obtain ⟨hload, hstore⟩ := hinv.emFacts.load_of_dstM hemM
    rw [if_pos hemM, if_pos hemM, h.mw, hload, hstore]
    rfl
  · rw [if_neg hemM, if_neg hemM, if_neg hemE]

/-- Settles O56: the operands in ID/EX are those of the resolver, which are the pending values. -/
theorem operandsAreSequential : Obligations.OperandsAreSequential := by
  intro i s t hinv hmem hexec ht
  have hran := exec_ran hmem hexec ht
  obtain ⟨e, hrow, hde⟩ := exec_de hexec ht
  rw [portOf_of_row hrow, hde]
  refine ⟨fun r hr => ?_, fun r hr => ?_⟩
  · exact (congrArg (operandIn t) hr).trans (operandIn_eq_pending hinv hran r)
  · exact (congrArg (operandIn t) hr).trans (operandIn_eq_pending hinv hran r)

/-! ## The refinement step (R260) -/

/-- Registers and memory when the entry in MEM/WB has finished. -/
def settled (s : State) : Arch := ⟨writtenBack s, s.archMem⟩

theorem pending_eq (s : State) : pending s = (executed t0 s.de).finish (s.em.finish (settled s)) := rfl

/-- What Memory copies to MEM/WB commits what the entry in EX/MEM does alone. -/
theorem commit_copyToMw {b : EM} (h : AdmittedFacts b.op b.flags b.port) (A : Arch) :
    commit (copyToMw b (if b.flags.store = true then 0
      else if b.flags.load = true then A.mem (Sizes.t0.wordAddr b.e) else 0)) A.regs = (b.finish A).regs := by
  cases hM : b.port.dstM with
  | none => simp only [commit, copyToMw, EM.finish, hM, writeDst]
  | some r =>
    obtain ⟨hload, hstore⟩ := h.load_of_dstM hM
    simp [commit, copyToMw, EM.finish, hload, hstore]

/-- A cycle that completes finishes the entry in EX/MEM, unless that is a system call. -/
theorem settled_of_ran {s t : State} (hinv : PipelineInv s) (h : Ran s t) (hcall : s.em.flags.syscall = false) :
    settled t = s.em.finish (settled s) := by
  have hcalls : callsSys t.mw = false := by
    have hflags : t.mw.flags.syscall = false := by rw [h.mw]; exact hcall
    rw [callsSys, hflags, Bool.and_false]
  have hregs : writtenBack t = (s.em.finish (settled s)).regs := by
    rw [writtenBack, hcalls, if_neg (by decide), committedRegs, h.regs, writeReg_self hinv.writtenBack_zero, h.mw]
    exact commit_copyToMw hinv.emFacts (settled s)
  exact congrArg₂ Arch.mk hregs (funext h.archMem)

/-- The pending registers and memory after a cycle are those before it, with the instruction that has been decoded. -/
theorem pending_of_ran {s t : State} (hinv : PipelineInv s) (h : Ran s t) (hcall : s.em.flags.syscall = false) :
    pending t = (executed t0 t.de).finish (pending s) := by
  rw [pending_eq t, pending_eq s, settled_of_ran hinv h hcall, h.em]

/-- An instruction's entry with the values of its source registers does what the instruction does alone. -/
theorem finish_eq_run {i : Instr} {e : Entry .t0} (hl : lookupInstr i = .op e) {A : Arch} {pc a b : Word}
    (hA : ∀ r, e.port.srcA = some r → a = A.get r) (hB : ∀ r, e.port.srcB = some r → b = A.get r) :
    (executed t0 ⟨encode i, pc, e.op, e.fu, e.flags, e.port, a, b⟩).finish A = A.run i := by
  cases i <;> cases hl
  case nop | j | syscall => exact finish_none rfl rfl A
  case add | sub | and | or | xor | slt =>
    obtain rfl := hA _ rfl
    obtain rfl := hB _ rfl
    exact finish_alu rfl rfl rfl A
  case addi rt rs imm =>
    obtain rfl := hA _ rfl
    refine (finish_alu (r := rt) rfl rfl rfl A).trans ?_
    exact congrArg (fun v => A.write rt (effectAddi (A.read rs) v)) (fieldImm_addi rt rs imm)
  case ori rt rs imm =>
    obtain rfl := hA _ rfl
    refine (finish_alu (r := rt) rfl rfl rfl A).trans ?_
    exact congrArg (fun v => A.write rt (effectOri (A.read rs) v)) (fieldImm_ori rt rs imm)
  case lui rt imm =>
    refine (finish_alu (r := rt) rfl rfl rfl A).trans ?_
    exact congrArg (fun v => A.write rt (effectLui v)) (fieldImm_lui rt imm)
  case lw rt imm rs =>
    obtain rfl := hB _ rfl
    refine (finish_load (r := rt) rfl rfl rfl A).trans ?_
    exact congrArg (fun v => A.write rt (A.mem (Sizes.t0.wordAddr (effectLw (A.read rs) v)))) (fieldImm_lw rt rs imm)
  case sw rt imm rs =>
    obtain rfl := hA _ rfl
    obtain rfl := hB _ rfl
    refine (finish_store rfl rfl rfl A).trans ?_
    exact congrArg (fun v => Arch.mk A.regs fun wa =>
      if wa = Sizes.t0.wordAddr (effectSw (A.read rs) v) then A.read rt else A.mem wa) (fieldImm_sw rt rs imm)

/-- The entry that a cycle has put in ID/EX does to what is pending before the cycle what its instruction does alone. -/
theorem exec_finish {i : Instr} {s t : State} (hinv : PipelineInv s) (hmem : MemoryInv s) (hexec : exec i s = .next t)
    (ht : t.status = .running) : (executed t0 t.de).finish (pending s) = (pending s).run i := by
  obtain ⟨hA, hB⟩ := operandsAreSequential i s t hinv hmem hexec ht
  obtain ⟨e, hrow, hde⟩ := exec_de hexec ht
  rw [portOf_of_row hrow, hde] at hA hB
  rw [hde]
  exact finish_eq_run hrow hA hB

/-- Settles O57: the cycle finishes the oldest pending entry and adds the one it decodes. -/
theorem pipelineRefinesSequential : Obligations.PipelineRefinesSequential := by
  intro i s hinv hmem hcall
  have hstep : ∀ t, exec i s = .next t → t.status = .running → pending t = (pending s).run i := fun t hexec ht =>
    (pending_of_ran hinv (exec_ran hmem hexec ht) hcall).trans (exec_finish hinv hmem hexec ht)
  refine ⟨hstep, fun hlink hc => ?_⟩
  obtain ⟨e, hrow⟩ := row_of_not_link hlink
  obtain ⟨t, hexec, ht, -⟩ := exec_complete hrow hc
  exact ⟨t, hexec, ht, hstep t hexec ht⟩

/-! ## Retirement -/

/-- Three cycles that complete, the first with the instruction in Decode: the entry is in MEM/WB. -/
structure ThreeCycles (s t1 t2 t3 : State) : Prop where
  inv  : PipelineInv s
  inv1 : PipelineInv t1
  inv2 : PipelineInv t2
  ran1 : Ran s t1
  ran2 : Ran t1 t2
  ran3 : Ran t2 t3

theorem threeCycles {i : Instr} {s t1 t2 t3 : State} (hinv : PipelineInv s) (hmem : MemoryInv s) (h1 : exec i s = .next t1)
    (h2 : step t1 = .next t2) (h3 : step t2 = .next t3) (ht3 : t3.status = .running) : ThreeCycles s t1 t2 t3 := by
  have hran1 := exec_ran hmem h1 (running_of_step h2)
  have hran2 := step_ran hran1.inv h2 (running_of_step h3)
  have hinv1 := exec_pipelineInv hinv h1
  exact ⟨hinv, hinv1, step_pipelineInv hinv1 h2, hran1, hran2, step_ran hran2.inv h3 ht3⟩

/-- The memory a program sees two cycles on is what was pending. -/
theorem ThreeCycles.archMem {s t1 t2 t3 : State} (h : ThreeCycles s t1 t2 t3) : t2.archMem = (pending s).mem := by
  funext wa
  rw [h.ran2.archMem, h.ran1.archMem, h.ran1.em, pending_mem]
  rfl

/-- The entry in MEM/WB after the third cycle. -/
theorem ThreeCycles.mw {s t1 t2 t3 : State} (h : ThreeCycles s t1 t2 t3) :
    t3.mw = copyToMw (executed t0 t1.de) (if (executed t0 t1.de).flags.store = true then 0
      else if (executed t0 t1.de).flags.load = true then
        (pending s).mem (Sizes.t0.wordAddr (executed t0 t1.de).e) else 0) := by
  rw [h.ran3.mw, h.ran2.em, h.archMem]

/-- The store of the entry has been made after the third cycle. -/
theorem ThreeCycles.archMem3 {s t1 t2 t3 : State} (h : ThreeCycles s t1 t2 t3) (wa : Sizes.t0.WordAddr) :
    t3.archMem wa = ((executed t0 t1.de).finish (pending s)).mem wa := by
  rw [h.ran3.archMem, h.ran2.em, h.archMem]
  rfl

/-- A register that the entry writes is committed by the fourth cycle, however that ends. -/
theorem ThreeCycles.readReg_dest {s t1 t2 t3 : State} (h : ThreeCycles s t1 t2 t3) {d : Sizes.t0.Reg}
    (hd : t1.de.port.dstE = some d ∨ t1.de.port.dstM = some d) :
    readReg (writtenBack t3) d = ((executed t0 t1.de).finish (pending s)).get d ∧ exits t3 = false := by
  have hfacts : AdmittedFacts (executed t0 t1.de).op (executed t0 t1.de).flags (executed t0 t1.de).port := h.inv1.deFacts
  have hcall : t1.de.flags.syscall = false := by
    cases hcall : t1.de.flags.syscall with
    | false => rfl
    | true =>
      obtain ⟨hport, -⟩ := h.inv1.deFacts.syscall hcall
      rw [hport] at hd
      rcases hd with hd | hd <;> cases hd
  have hcalls : callsSys t3.mw = false := by
    have hflags : t3.mw.flags.syscall = false := by rw [h.mw]; exact hcall
    rw [callsSys, hflags, Bool.and_false]
  refine ⟨?_, by rw [exits, hcalls, Bool.false_and]⟩
  rw [Arch.get, ← commit_copyToMw hfacts, ← h.mw, writtenBack, hcalls, if_neg (by decide), readReg_committedRegs, readReg_commit]
  have hE : t3.mw.port.dstE = t1.de.port.dstE := by rw [h.mw]; rfl
  have hM : t3.mw.port.dstM = t1.de.port.dstM := by rw [h.mw]; rfl
  rw [hE, hM]
  by_cases hdM : t1.de.port.dstM = some d
  · rw [if_pos hdM, if_pos hdM]
  · have hdE := hd.resolve_right hdM
    rw [if_neg hdM, if_neg hdM, if_pos hdE, if_pos hdE]

theorem dst_of_destOf {i : Instr} {d : Sizes.t0.Reg} (h : destOf i = some d) :
    (portOf i).dstE = some d ∨ (portOf i).dstM = some d := by
  unfold destOf at h
  split at h
  · next r hr => exact .inl (hr.trans h)
  · exact .inr h

/-- Only NOP has the opcode of a no-op. -/
theorem row_nop_iff {i : Instr} {e : Entry .t0} (h : lookupInstr i = .op e) : e.op = .nop ↔ i = .nop := by
  cases i <;> cases h <;> simp [rowNop, rowJ, rowAdd, rowSub, rowAnd, rowOr, rowXor, rowSlt, rowAddi, rowOri, rowLui,
    rowLw, rowSw, rowSyscall]

/-- The registers and the retirement count of a step, however it ends. -/
theorem step_final {s t : State} (h : step s = .next t) :
    t.regs = (if exits s then committedRegs s else writtenBack s) ∧
    t.counters.insnCount = s.counters.insnCount + if retires s.mw then 1 else 0 := by
  rw [step_eq_cycleStep] at h
  obtain ⟨-, rfl⟩ := running_of_next h
  obtain ⟨hregs, -, hinsn⟩ := cycle_final (t0Lookup s.fd.inst) s
  exact ⟨hregs, hinsn⟩

/-- Settles O58: Execute, Memory and Writeback of the three cycles behind Decode finish the entry. -/
theorem instructionRetires : Obligations.InstructionRetires := by
  intro i s t1 t2 t3 t4 hinv hmem h1 h2 h3 h4
  have h := threeCycles hinv hmem h1 h2 h3 (running_of_step h4)
  have hfinish := exec_finish hinv hmem h1 (running_of_step h2)
  obtain ⟨e, hrow, hde⟩ := exec_de h1 (running_of_step h2)
  obtain ⟨hregs, hinsn⟩ := step_final h4
  rw [← hfinish]
  refine ⟨fun d hd => ?_, fun wa => h.archMem3 wa, ?_⟩
  · have hdst : t1.de.port.dstE = some d ∨ t1.de.port.dstM = some d := by
      rw [hde, ← portOf_of_row hrow]
      exact dst_of_destOf hd
    obtain ⟨hread, hexit⟩ := h.readReg_dest hdst
    rw [hregs, hexit, if_neg (by decide), hread]
  · have hop : t3.mw.op = e.op := by rw [h.mw, hde]; rfl
    rw [hinsn]
    by_cases hnop : i = .nop
    · rw [if_pos hnop, (retires_eq_false_iff _).2 (hop.trans ((row_nop_iff hrow).2 hnop))]
      rfl
    · rw [if_neg hnop, (retires_eq_true_iff _).2 fun hn => hnop ((row_nop_iff hrow).1 (hop.symm.trans hn))]
      rfl

/-! ## System calls (R204, R205, R261) -/

/-- What is pending before the first cycle has finished two cycles on, unless a system call is among it. -/
theorem ThreeCycles.settled {s t1 t2 t3 : State} (h : ThreeCycles s t1 t2 t3) (hem : s.em.flags.syscall = false)
    (hde : s.de.flags.syscall = false) : settled t2 = pending s := by
  have hem1 : t1.em.flags.syscall = false := by rw [h.ran1.em]; exact hde
  rw [settled_of_ran h.inv1 h.ran2 hem1, settled_of_ran h.inv h.ran1 hem, h.ran1.em, pending_eq]

/-- The call is in MEM/WB and the registers are those that were pending. -/
theorem ThreeCycles.call {s t1 t2 t3 : State} (h : ThreeCycles s t1 t2 t3) (h1 : exec .syscall s = .next t1)
    (ht1 : t1.status = .running) (hem : s.em.flags.syscall = false) (hde : s.de.flags.syscall = false) :
    callsSys t3.mw = true ∧ committedRegs t3 = (pending s).regs := by
  obtain ⟨e, hrow, hde1⟩ := exec_de h1 ht1
  cases hrow
  have hmw := h.mw
  rw [hde1] at hmw
  refine ⟨by rw [hmw]; rfl, ?_⟩
  have hregs : t3.regs = (pending s).regs := h.ran3.regs.trans (congrArg Arch.regs (h.settled hem hde))
  have hzero : readReg t3.regs Sizes.t0.r0 = 0 := by rw [h.ran3.regs]; exact h.inv2.writtenBack_zero
  rw [committedRegs, writeReg_self hzero, hregs]
  exact commit_of_allNone (by rw [hmw]; rfl) _

/-- Settles O59: the collaborator is called on the registers that were pending. -/
theorem systemCallRetires : Obligations.SystemCallRetires := by
  intro s t1 t2 t3 hinv hmem hem hde h1 h2 h3 ht3
  have h := threeCycles hinv hmem h1 h2 h3 ht3
  obtain ⟨hcalls, hregs⟩ := h.call h1 (running_of_step h2) hem hde
  have hexit : exits t3 = ((pending s).get 2 == 1) := by
    rw [exits, hcalls, Bool.true_and, hregs]
    rfl
  have hstep : step t3 = .next (cycle t0 (t0Lookup t3.fd.inst) t3).final :=
    (step_eq_cycleStep t3).trans (cycleStep_running ht3)
  refine ⟨fun hone => ⟨_, hstep, ?_⟩, fun hother => ⟨_, hstep, ?_⟩⟩
  · rw [cycle_of_exits _ (hexit.trans (beq_iff_eq.2 hone)), final_stop]
    exact ⟨congrArg (fun R => Status.halted (readReg R 4)) hregs, hregs⟩
  · have hnot : exits t3 = false := hexit.trans (beq_eq_false_iff_ne.2 hother)
    rw [(step_final hstep).1, hnot, if_neg (by decide), writtenBack, hcalls, if_pos rfl, hregs]

/-- An operand whose register no entry behind MEM/WB writes is the register as Writeback leaves it. -/
theorem exec_operand_of_regs {i : Instr} {s t : State} (h : exec i s = .next t) (ht : t.status = .running) {r : Sizes.t0.Reg}
    (hem : s.em.port.dstE ≠ some r ∧ s.em.port.dstM ≠ some r) (hde : s.de.port.dstE ≠ some r ∧ s.de.port.dstM ≠ some r) :
    operandIn t (some r) = readReg (writtenBack s) r := by
  have hem' : t.em.port = s.de.port := congrArg EM.port (exec_em h ht)
  have hmw' : t.mw.port = s.em.port := congrArg MW.port (exec_mw h ht)
  simp only [operandIn, hem', hmw', if_neg hem.1, if_neg hem.2, if_neg hde.1, if_neg hde.2, exec_regs h ht]

/-- Settles O60: the operand is register 2 as Writeback leaves it, with the collaborator's 0 if the call is in MEM/WB. -/
theorem systemCallResultIsLate : Obligations.SystemCallResultIsLate := by
  intro rd rt s t hinv h ht hemE hemM hdeE hdeM
  obtain ⟨e, hrow, hde⟩ := exec_de h ht
  cases hrow
  have ha : t.de.a = readReg (writtenBack s) 2 := by
    rw [hde]
    exact exec_operand_of_regs h ht ⟨hemE, hemM⟩ ⟨hdeE, hdeM⟩
  rw [ha, readReg_writtenBack]
  refine ⟨fun _ hcall => ?_, fun hcall => ?_⟩
  · have hcalls : callsSys s.mw = false := by rw [callsSys, hcall, Bool.and_false]
    simp [hcalls]
  · have hretires := (retires_eq_true_iff s.mw).2 (hinv.mwFacts.syscall hcall).2
    have hcalls : callsSys s.mw = true := by rw [callsSys, hretires, hcall, Bool.and_true]
    simp [hcalls]

end Sys2Proof.Machine
end
